-- ==== Sys2Proof/Word.lean ====
section
/-! DEFINITION. The words the machine moves and the plain data its operands are made of (00_scope.md section 5,
10_state.md R12, 40_marshal.md R78, 41_bus.md R90, 43_mode_command.md R120, R128). -/

namespace Sys2Proof

/-- An 8-bit unsigned value (00_scope.md section 5). -/
abbrev Byte := BitVec 8

/-- A transport error, "opaque to this layer" (R96, R191): never inspected, only copied, so that nothing of the type TE
matters but how many errors it has, which is a parameter (`Params.te`). DESIGN CHOICE (log 4): they are told apart by a
number. -/
structure TE where
  code : Nat
deriving DecidableEq, Repr, Inhabited

/-- The chip's six mutually exclusive operating states (R120). -/
inductive Mode where
  | sleep | idle | standby | pll | rx | tx
deriving DecidableEq, Repr, Inhabited

/-- The three one-shot commands (R128). -/
inductive Command where
  | reset | rstRd | rstWr
deriving DecidableEq, Repr, Inhabited

/-- One phase of a transaction (R90): bytes the block sends, or a number of bytes asked of the chip. -/
inductive Op where
  | write (bytes : List Byte)
  | read (n : Nat)
deriving DecidableEq, Repr, Inhabited

/-- The name of a field, a string (R78), held as its bytes (log 22). -/
abbrev FieldName := List Byte

/-- A bit field: it occupies bits `lo+w-1 .. lo` (R78). -/
structure Field where
  name : FieldName
  lo   : Nat
  w    : Nat
deriving DecidableEq, Repr, Inhabited

/-- A register descriptor (R78). Its width is a number, so that an illegal one can be written and refused (R115). -/
structure Descriptor where
  addr     : BitVec 8
  width    : Nat
  readable : Bool
  writable : Bool
  rfields  : List Field
  wfields  : List Field
deriving DecidableEq, Repr, Inhabited

/-- A typed value: a natural number for each field name (R78). -/
abbrev TypedValue := List (FieldName × Nat)

/-- A flattened frame (R94): the written bytes, then a read phase of `rd` bytes (0: no read phase). -/
structure Frame where
  out : List Byte
  rd  : Nat
deriving DecidableEq, Repr, Inhabited

/-- An encoded instruction as it stands in the host's inbox: a request code with its operand words
(R62; DESIGN CHOICE of the words' layout, log 9), or a frame of the wire (R50). -/
inductive InstrWord where
  | request (code : Byte) (operands : List Nat)
  | frame (f : Frame)
deriving DecidableEq, Repr, Inhabited

/-- What a frame on the wire is (R61): the chip's side of the encoding. `empty` is a chip-select assertion
in which no byte moves (R103, log 18). -/
inductive FrameOp where
  | empty
  | strobe (m : Mode)
  | rstRd
  | rstWr
  | rxFifo (n : Nat)
  | txFifo (payload : List Byte)
  | reset
  | regRead (addr : BitVec 6) (n : Nat)
  | regWrite (addr : BitVec 6) (payload : List Byte)
deriving DecidableEq, Repr, Inhabited

/-- The staging bytes STG[0..3] (R12). -/
structure Staging where
  b0 : Byte
  b1 : Byte
  b2 : Byte
  b3 : Byte
deriving DecidableEq, Repr, Inhabited

/-- RES.data (R17), by what the operation returns. -/
inductive Data where
  /-- nothing: WRREG, SETMODE, CMD, TX, BWRITE -/
  | unit
  /-- an unsigned integer: DEC, FINS, FEXT -/
  | uint (v : Nat)
  /-- a typed value: RDREG -/
  | typed (v : TypedValue)
  /-- bytes: ENC, RX -/
  | bytes (b : List Byte)
  /-- the read buffers of a TRANSACT, one per Read phase -/
  | reads (r : List (List Byte))
deriving DecidableEq, Repr, Inhabited

/-- The result register RES (R17, R193): its kind with the fields that are meaningful for that kind. -/
inductive Res where
  | ok (data : Data)
  | transportErr (te : TE)
  | packetErr (fecFailed crcFailed : Bool)
deriving DecidableEq, Repr, Inhabited

/-- The sequencer position SEQ (R14). -/
inductive Seq where
  | idle | rxStatus | rxCheck | rxPtr | rxData | txPtr | txData | regXfer | strobe | xact | marshal
deriving DecidableEq, Repr, Inhabited

/-- The operand registers and flags, which live only inside one operation (R12, R13, R16), with the two operands
(`fld`, `ops`) that the spec gives a request but names no register for. BUF here is the block's operand register (R12); the caller's
memory it is filled from or stored to (R30 c) is `State.callerBuf` (log 14). -/
structure Regs where
  opr  : BitVec 8
  addr : BitVec 8
  wid  : BitVec 3
  val  : BitVec 32
  stg  : Staging
  mode : Mode
  cmd  : Command
  len  : Nat
  buf  : List Byte
  fecp : Bool
  crcp : Bool
  fld  : List Field
  ops  : List Op
deriving DecidableEq, Repr, Inhabited

end Sys2Proof
end

