-- ==== Sys2Proof/Config.lean ====
section
/-! DEFINITION. The parameters of 00_scope.md R5 that the spec leaves OPEN, as plain data held by the machine
(log 1), and the free values of R13, R16 and R25 (log 6). -/

namespace Sys2Proof

/-- What is remembered of the catalog registers (R161 `chip.cat`, opaque in the spec): a list of
(address, bytes) pairs (log 15). -/
abbrev Catalog := List (BitVec 6 × List Byte)

/-- A chip state written down: what a draw of the chip state after a Reset is given as (R166).
Pointers and buffer bytes outside FIFO_DEPTH are cut off when it is taken up (log 20). -/
structure ChipPicture where
  mode    : Mode
  prior   : Mode
  rdPtr   : Nat
  wrPtr   : Nat
  rx      : List Host.Cell
  tx      : List Host.Cell
  fecPass : Bool
  crcPass : Bool
  cat     : Catalog
deriving DecidableEq, Repr, Inhabited

/-- A member of CHIP_RESET, or a family of members: where a field is none, every value of it is in the set (log 20). -/
structure ChipPattern where
  mode    : Option Mode
  prior   : Option Mode
  rdPtr   : Option Nat
  wrPtr   : Option Nat
  rx      : Option (List Host.Cell)
  tx      : Option (List Host.Cell)
  fecPass : Option Bool
  crcPass : Option Bool
  cat     : Option Catalog
deriving DecidableEq, Repr, Inhabited

/-- The member of the pattern that has the draw's values where the pattern leaves one open. -/
def ChipPattern.fill (p : ChipPattern) (draw : ChipPicture) : ChipPicture :=
  { mode := p.mode.getD draw.mode, prior := p.prior.getD draw.prior, rdPtr := p.rdPtr.getD draw.rdPtr,
    wrPtr := p.wrPtr.getD draw.wrPtr, rx := p.rx.getD draw.rx, tx := p.tx.getD draw.tx,
    fecPass := p.fecPass.getD draw.fecPass, crcPass := p.crcPass.getD draw.crcPass, cat := p.cat.getD draw.cat }

/-- The parameter Responder (R5, R104): the relation that answers transactions (log 3). -/
inductive Responder where
  /-- the reference instance of 45_chip_responder.md: an answer says only what its rules leave to a draw -/
  | reference
  /-- any other relation: an answer says the whole outcome and the whole next chip state. A claim about one responder (a
  stricter chip, U11) takes as its premise that the answers are that responder's -/
  | given
deriving DecidableEq, Repr, Inhabited

/-- The OPEN parameters of R5. No step changes them. -/
structure Params where
  /-- TE (R5, any non-empty type): `some n` for a type of n + 1 errors, `none` for one without end (log 4) -/
  te : Option Nat
  /-- STATUS_ADDR, a legal register address (R31) -/
  statusAddr : BitVec 6
  /-- status_decode (R18): the bit that carries the FEC flag, and the value of it that means pass (log 2) -/
  fecBit   : BitVec 3
  fecLevel : Bool
  /-- status_decode (R18): the bit that carries the CRC flag, and the value of it that means pass (log 2) -/
  crcBit   : BitVec 3
  crcLevel : Bool
  /-- FIFO_DEPTH -/
  fifoDepth : Nat
  /-- REGS, the register catalog -/
  catalog : List Descriptor
  /-- CHIP_RESET, the union of these families; the empty list stands for the default, every chip state -/
  chipReset : List ChipPattern
  /-- Responder -/
  responder : Responder
deriving DecidableEq, Repr, Inhabited

/-- The suggested instance of R5 (the spec's own "general knowledge"; PRESUMED, log 1), the reference responder and every
transport error. Only State.reset and the tests use it. -/
def Params.suggested : Params :=
  { te := none, statusAddr := 0x00, fecBit := 6, fecLevel := false, crcBit := 5, crcLevel := false, fifoDepth := 64,
    catalog := [], chipReset := [], responder := .reference }

/-- The value the operand registers, BUF among them, hold once an operation has ended: "an unspecified value" (R13, R16). A
free value: it has no body, and nothing is known of it (log 6). -/
opaque Config.freeRegs : Nat → Regs

/-- The value of RES after a reset of the block, "unspecified until the first operation ends" (R25). Free (log 6). -/
opaque Config.freeRes : Nat → Res

end Sys2Proof
end

