-- ==== Sys2Proof/Machine/Flags.lean ====
section
/-! DEFINITION. The condition flags FECP and CRCP (R16), the status payload they are decoded from (R18, R141, R169),
and the cause codes of RES (R193). No other operation computes a flag. -/

namespace Sys2Proof.Machine

/-- STATUS_WIDTH (R5). -/
def statusWidth : Nat := 1

/-- `status_decode` (R18, R141): (fec_pass, crc_pass) of a status payload. Every other bit is ignored (R18). -/
def statusDecode (cfg : Params) (payload : List Byte) : Bool × Bool :=
  let b := payload.headD 0
  (b.getLsbD cfg.fecBit.toNat == cfg.fecLevel, b.getLsbD cfg.crcBit.toNat == cfg.crcLevel)

/-- Bit `i` of a byte set to `v`. -/
def setBit (b : Byte) (i : BitVec 3) (v : Bool) : Byte :=
  if v then b ||| (1#8 <<< i.toNat) else b &&& ~~~(1#8 <<< i.toNat)

/-- A status payload that reports the two flags (R169); the other bits are those of `draw`. -/
def statusPayload (cfg : Params) (fec crc : Bool) (draw : Byte) : Byte :=
  setBit (setBit draw cfg.fecBit (fec == cfg.fecLevel)) cfg.crcBit (crc == cfg.crcLevel)

/-- The 4-bit code of a sequencer position (R14). -/
def seqCode : Seq → BitVec 4
  | .idle => 0
  | .rxStatus => 1
  | .rxCheck => 2
  | .rxPtr => 3
  | .rxData => 4
  | .txPtr => 5
  | .txData => 6
  | .regXfer => 7
  | .strobe => 8
  | .xact => 9
  | .marshal => 10

/-- The kind code of RES (R193). -/
def kindCode : Res → Nat
  | .ok _ => 0
  | .transportErr _ => 1
  | .packetErr _ _ => 2

/-- The sub-code of a PacketErr (R193): fec_failed in bit 1, crc_failed in bit 0. -/
def subCode : Res → Option (BitVec 2)
  | .packetErr f c => some ((if f then 2#2 else 0#2) ||| (if c then 1#2 else 0#2))
  | _ => none

end Sys2Proof.Machine
end

