-- ==== Sys2Proof/Machine/Operands.lean ====
section
/-! DEFINITION. The pure functions of the block: register marshalling (40_marshal.md), the legality of operands
(R31, R78, R80, R81, R84, R85, R114, R115), and the byte-level shape of a transaction (R90, R94). None touches the
state (R86). -/

namespace Sys2Proof.Machine

/-! ### Integer layer (R77) -/

/-- ENC_N (R77): the `n` bytes of `u`, least significant first; byte i is `(u >> 8i) & 0xFF`. -/
def encN : Nat → Nat → List Byte
  | 0, _ => []
  | n + 1, u => BitVec.ofNat 8 u :: encN n (u >>> 8)

/-- DEC_N (R77): the sum of `b[i] << 8i`. The terms occupy disjoint bits (R87), so OR and sum agree. -/
def decN : List Byte → Nat
  | [] => 0
  | b :: t => b.toNat ||| (decN t <<< 8)

/-! ### Fields (R79 to R81) -/

/-- MASK(w): the `w` low bits set (R79). -/
def mask (w : Nat) : Nat := 2 ^ w - 1

/-- FINS (R80): the field's bits of the `n`-byte container `c` replaced by the masked `v`; the complement is taken
within `8n` bits. -/
def fins (n c lo w v : Nat) : Nat := (c &&& (mask (8 * n) ^^^ (mask w <<< lo))) ||| ((v &&& mask w) <<< lo)

/-- FEXT (R81). -/
def fext (c lo w : Nat) : Nat := (c >>> lo) &&& mask w

/-! ### Register layer (R78) -/

/-- The number a typed value gives a field name; 0 where it gives none (such a value is refused, `valueIncomplete`). -/
def fieldValue (val : TypedValue) (name : FieldName) : Nat :=
  match val with
  | [] => 0
  | (k, v) :: t => if k = name then v else fieldValue t name

/-- Whether a typed value gives the field name a number. -/
def hasField (val : TypedValue) (name : FieldName) : Bool := val.any (fun p => p.1 = name)

/-- TOUINT (R78) over the writable layout: OR of each field inserted into 0. -/
def toUint (n : Nat) (fields : List Field) (val : TypedValue) : Nat :=
  match fields with
  | [] => 0
  | f :: t => fins n 0 f.lo f.w (fieldValue val f.name) ||| toUint n t val

/-- FROMUINT (R78) over the readable layout: each field extracted. -/
def fromUint (fields : List Field) (u : Nat) : TypedValue :=
  fields.map (fun f => (f.name, fext u f.lo f.w))

/-- FIELDMASK (R83 e): the bits that belong to some field. -/
def fieldMask : List Field → Nat
  | [] => 0
  | f :: t => (mask f.w <<< f.lo) ||| fieldMask t

/-! ### Legality of operands -/

/-- Why a request's operands are refused (R190: such a request "is a request the hardware is never given"). -/
inductive OperandFlaw where
  /-- the register type lacks the facet the access needs (R84, R114) -/
  | facetMissing
  /-- a width that is not 1, 2 or 4, or not the operation's own (R34, R85, R115) -/
  | widthMismatch
  /-- an address with bit 7 or bit 6 set (R31, R115) -/
  | addressIllegal
  /-- a field outside its register, of width 0, overlapping another or sharing its name (R78) -/
  | descriptorIllFormed
  /-- a typed value that gives some field of the register no number (R78) -/
  | valueIncomplete
  /-- a container outside UInt(N), or a field position outside the container (R80, R81) -/
  | fieldIllFormed
  /-- DEC_N handed a list of another length than N (R85) -/
  | lengthWrong
  /-- a transaction of no op, or a BWRITE of no byte (R90, R95) -/
  | emptyTransaction
deriving DecidableEq, Repr

/-- WIDTHS (R5): the legal register widths. -/
def legalWidth (n : Nat) : Bool := n = 1 || n = 2 || n = 4

/-- The fields of one list lie in the register, do not overlap and have different names (R78). -/
def fieldsWf (n : Nat) : List Field → Bool
  | [] => true
  | f :: t =>
    1 ≤ f.w && f.lo + f.w ≤ 8 * n
      && t.all (fun g => (f.lo + f.w ≤ g.lo || g.lo + g.w ≤ f.lo) && f.name ≠ g.name)
      && fieldsWf n t

/-- The facet an access needs (R84): readable for RDREG, writable for WRREG. -/
def hasFacet (reading : Bool) (d : Descriptor) : Bool := if reading then d.readable else d.writable

/-- The require line of R105 and R109, and R78's own conditions; none: the access is legal. -/
def descriptorFlaw (reading : Bool) (n : Nat) (d : Descriptor) : Option OperandFlaw :=
  if hasFacet reading d = false then some .facetMissing
  else if d.width ≠ n || !legalWidth n then some .widthMismatch
  else if d.addr &&& 0xC0 ≠ 0 then some .addressIllegal
  else if !(fieldsWf n d.rfields && fieldsWf n d.wfields) then some .descriptorIllFormed
  else none

/-- What is wrong with a WRREG's operands. -/
def writeFlaw (n : Nat) (d : Descriptor) (val : TypedValue) : Option OperandFlaw :=
  match descriptorFlaw false n d with
  | some r => some r
  | none => if d.wfields.all (fun f => hasField val f.name) then none else some .valueIncomplete

/-- What is wrong with the operands of FINS and FEXT (R80, R81). -/
def containerFlaw (n c lo w : Nat) : Option OperandFlaw :=
  if !legalWidth n then some .widthMismatch
  else if c < 2 ^ (8 * n) && 1 ≤ w && lo + w ≤ 8 * n then none
  else some .fieldIllFormed

/-- What is wrong with a DEC_N's operand (R85). -/
def decFlaw (n : Nat) (b : List Byte) : Option OperandFlaw :=
  if b.length = n then none else some .lengthWrong

/-- What is wrong with a TRANSACT's op list (R90). -/
def opsFlaw (ops : List Op) : Option OperandFlaw :=
  if ops = [] then some .emptyTransaction else none

/-- What is wrong with a BWRITE's byte list (R95). -/
def bytesFlaw (b : List Byte) : Option OperandFlaw :=
  if b = [] then some .emptyTransaction else none

/-- What the rules ask of the parameters: a status address other than 0x05 (R5), two one-bit status fields (R18). -/
def paramsWf (cfg : Params) : Bool := cfg.statusAddr ≠ 0x05 && cfg.fecBit ≠ cfg.crcBit

/-! ### Staging bytes (R12) -/

/-- The first bytes of STG replaced by the list, the others kept. -/
def loadStaging (g : Staging) : List Byte → Staging
  | [] => g
  | [a] => { g with b0 := a }
  | [a, b] => { g with b0 := a, b1 := b }
  | [a, b, c] => { g with b0 := a, b1 := b, b2 := c }
  | a :: b :: c :: d :: _ => { b0 := a, b1 := b, b2 := c, b3 := d }

/-- STG[0..n). -/
def takeStaging (g : Staging) (n : Nat) : List Byte := [g.b0, g.b1, g.b2, g.b3].take n

/-! ### Transactions (R90 to R94) -/

/-- Byte 0 of a read (R58 a): the address with READ_FLAG. -/
def readByte0 (addr : BitVec 8) : Byte := addr ||| 0x40

/-- The op list flattened onto a frame begun (R94); none where a byte is written after a byte is read, a shape no rule
has (R50). -/
def flattenFrom (f : Frame) : List Op → Option Frame
  | [] => some f
  | .write b :: t => if b = [] ∨ f.rd = 0 then flattenFrom { f with out := f.out ++ b } t else none
  | .read n :: t => flattenFrom { f with rd := f.rd + n } t

/-- The flattened frame of a transaction (R94): what the chip sees. -/
def flatten (ops : List Op) : Option Frame := flattenFrom { out := [], rd := 0 } ops

/-- The number of bytes a transaction moves. -/
def opsSize : List Op → Nat
  | [] => 0
  | .write b :: t => b.length + opsSize t
  | .read n :: t => n + opsSize t

/-- The number of bytes a transaction reads. -/
def readSize : List Op → Nat
  | [] => 0
  | .write _ :: t => readSize t
  | .read n :: t => n + readSize t

/-- The first `k` bytes of a transaction (R102). -/
def opsPrefix : Nat → List Op → List Op
  | _, [] => []
  | k, .write b :: t => .write (b.take k) :: opsPrefix (k - b.length) t
  | k, .read n :: t => .read (min k n) :: opsPrefix (k - n) t

/-- The bytes read, cut into one list per Read op, in op order (R90). -/
def splitReads : List Op → List Byte → List (List Byte)
  | [], _ => []
  | .write _ :: t, bs => splitReads t bs
  | .read n :: t, bs => bs.take n :: splitReads t (bs.drop n)

/-- A draw of exactly `n` bytes: the given list, cut or filled up to `n`. Every list of `n` bytes is such a draw (log 3). -/
def padTo (n : Nat) (bs : List Byte) : List Byte := (bs ++ List.replicate n 0).take n

end Sys2Proof.Machine
end

