-- ==== Sys2Proof/Syntax.lean ====
section
/-! DEFINITION. The instructions: one constructor per row of spec/opcode_table.json, 27 host operations (R62) and 13
wire frames (R50 to R57). -/

namespace Sys2Proof

/-- An operation of the block, or a frame of the wire, with its operands. -/
inductive Instr where
  /-- ENC1 (R71): encode a UInt(1) -/
  | enc1 (u : BitVec 8)
  /-- ENC2 (R72): encode a UInt(2) -/
  | enc2 (u : BitVec 16)
  /-- ENC4 (R73): encode a UInt(4) -/
  | enc4 (u : BitVec 32)
  /-- DEC1 (R74): decode one byte -/
  | dec1 (b : List Byte)
  /-- DEC2 (R75): decode two bytes -/
  | dec2 (b : List Byte)
  /-- DEC4 (R76): decode four bytes -/
  | dec4 (b : List Byte)
  /-- FINS (R80): insert `v` into bits `lo+w-1 .. lo` of the container `c` of `n` bytes -/
  | fins (n c lo w v : Nat)
  /-- FEXT (R81): extract bits `lo+w-1 .. lo` of the container `c` of `n` bytes -/
  | fext (n c lo w : Nat)
  /-- TRANSACT (R91) -/
  | transact (ops : List Op)
  /-- BWRITE (R95) -/
  | bwrite (bytes : List Byte)
  /-- RDREG1 (R106) -/
  | rdreg1 (d : Descriptor)
  /-- RDREG2 (R107) -/
  | rdreg2 (d : Descriptor)
  /-- RDREG4 (R108) -/
  | rdreg4 (d : Descriptor)
  /-- WRREG1 (R110) -/
  | wrreg1 (d : Descriptor) (val : TypedValue)
  /-- WRREG2 (R111) -/
  | wrreg2 (d : Descriptor) (val : TypedValue)
  /-- WRREG4 (R112) -/
  | wrreg4 (d : Descriptor) (val : TypedValue)
  /-- SETMODE.SLEEP (R122) -/
  | setmodeSleep
  /-- SETMODE.IDLE (R123) -/
  | setmodeIdle
  /-- SETMODE.STANDBY (R124) -/
  | setmodeStandby
  /-- SETMODE.PLL (R125) -/
  | setmodePll
  /-- SETMODE.RX (R126) -/
  | setmodeRx
  /-- SETMODE.TX (R127) -/
  | setmodeTx
  /-- CMD.RESET (R129) -/
  | cmdReset
  /-- CMD.RSTRD (R130) -/
  | cmdRstrd
  /-- CMD.RSTWR (R131) -/
  | cmdRstwr
  /-- RX (R140): receive into a caller's buffer of `len` bytes -/
  | rx (len : Nat)
  /-- TX (R147): transmit the caller's buffer -/
  | tx (buf : List Byte)
  /-- FRAME.REGWRITE (R52) -/
  | frameRegwrite (addr : BitVec 6) (payload : List Byte)
  /-- FRAME.REGREAD (R53) -/
  | frameRegread (addr : BitVec 6) (n : Nat)
  /-- FRAME.TXFIFO (R57) -/
  | frameTxfifo (payload : List Byte)
  /-- FRAME.RXFIFO (R57) -/
  | frameRxfifo (n : Nat)
  /-- FRAME.RESET (R56) -/
  | frameReset
  /-- STROBE.SLEEP (R54) -/
  | strobeSleep
  /-- STROBE.IDLE (R54) -/
  | strobeIdle
  /-- STROBE.STANDBY (R54) -/
  | strobeStandby
  /-- STROBE.PLL (R54) -/
  | strobePll
  /-- STROBE.RX (R54) -/
  | strobeRx
  /-- STROBE.TX (R54) -/
  | strobeTx
  /-- STROBE.RSTWR (R55) -/
  | strobeRstwr
  /-- STROBE.RSTRD (R55) -/
  | strobeRstrd
deriving DecidableEq, Repr, Inhabited

end Sys2Proof
end

