-- ==== Sys2Proof/WellFormed.lean ====
section
/-! DEFINITION. Which instructions are well formed: the operands a request may carry (R31, R78, R80, R85, R90, R95,
R114, R115), and the frames that are no other row's frame (R52, R53, R61). -/

namespace Sys2Proof

/-- What is wrong with the operands of a host operation; frames have none (the wire decides what they are). -/
def Instr.flaw : Instr → Option Machine.OperandFlaw
  | .enc1 _ => none
  | .enc2 _ => none
  | .enc4 _ => none
  | .dec1 b => Machine.decFlaw 1 b
  | .dec2 b => Machine.decFlaw 2 b
  | .dec4 b => Machine.decFlaw 4 b
  | .fins n c lo w _ => Machine.containerFlaw n c lo w
  | .fext n c lo w => Machine.containerFlaw n c lo w
  | .transact ops => Machine.opsFlaw ops
  | .bwrite b => Machine.bytesFlaw b
  | .rdreg1 d => Machine.descriptorFlaw true 1 d
  | .rdreg2 d => Machine.descriptorFlaw true 2 d
  | .rdreg4 d => Machine.descriptorFlaw true 4 d
  | .wrreg1 d v => Machine.writeFlaw 1 d v
  | .wrreg2 d v => Machine.writeFlaw 2 d v
  | .wrreg4 d v => Machine.writeFlaw 4 d v
  | .setmodeSleep => none
  | .setmodeIdle => none
  | .setmodeStandby => none
  | .setmodePll => none
  | .setmodeRx => none
  | .setmodeTx => none
  | .cmdReset => none
  | .cmdRstrd => none
  | .cmdRstwr => none
  | .rx _ => none
  | .tx _ => none
  | .frameRegwrite _ _ => none
  | .frameRegread _ _ => none
  | .frameTxfifo _ => none
  | .frameRxfifo _ => none
  | .frameReset => none
  | .strobeSleep => none
  | .strobeIdle => none
  | .strobeStandby => none
  | .strobePll => none
  | .strobeRx => none
  | .strobeTx => none
  | .strobeRstwr => none
  | .strobeRstrd => none

/-- A frame row's own frame (R61): a register frame has a legal width, is not at the FIFO port, and is not Reset. -/
def Instr.ownFrame : Instr → Bool
  | .frameRegwrite a p => Machine.legalWidth p.length && a ≠ 0x05 && !(a = 0x00 && p = [0x00])
  | .frameRegread a n => Machine.legalWidth n && a ≠ 0x05
  | _ => true

/-- A well-formed instruction. -/
def Instr.wf (i : Instr) : Bool := i.flaw = none && i.ownFrame

end Sys2Proof
end

