-- ==== Sys2Proof/Decode.lean ====
section
/-! DEFINITION. The encodings of 30_encoding.md: the byte-0 map of the wire (R51 to R57, R61), the host request codes
(R62), a total decoder that rejects by name, and the encoder written from the same tables. The layout of a request's
operand words is the model's own (DESIGN CHOICE, log 9). -/

namespace Sys2Proof

/-! ### Bytes of modes and commands -/

/-- The index of a mode (R134). -/
def modeIndex : Mode → Nat
  | .sleep => 0
  | .idle => 1
  | .standby => 2
  | .pll => 3
  | .rx => 4
  | .tx => 5

/-- MODE_BYTE (R54). -/
def modeByte : Mode → Byte
  | .sleep => 0x80
  | .idle => 0x90
  | .standby => 0xA0
  | .pll => 0xB0
  | .rx => 0xC0
  | .tx => 0xD0

/-- `mode_of` (R134): the mode whose strobe byte this is. -/
def modeOf (b : Byte) : Option Mode :=
  if b = 0x80 then some .sleep
  else if b = 0x90 then some .idle
  else if b = 0xA0 then some .standby
  else if b = 0xB0 then some .pll
  else if b = 0xC0 then some .rx
  else if b = 0xD0 then some .tx
  else none

/-- CMD_BYTES (R55, R56, R128). -/
def commandBytes : Command → List Byte
  | .reset => [0x00, 0x00]
  | .rstRd => [0xF0]
  | .rstWr => [0xE0]

/-! ### Frames on the wire (R51, R61) -/

/-- Why a frame has no rule. -/
inductive FrameReject where
  /-- a read phase with no byte 0 before it (R50: byte 0 is always written) -/
  | noByte0
  /-- the payload's direction is not the one byte 0 selects (R50, R51) -/
  | wrongDirection
  /-- a strobe byte with a non-zero low nibble (R60 a, R175) -/
  | strobeLowNibble
  /-- a strobe byte followed by payload (R175) -/
  | strobePayload
deriving DecidableEq, Repr

/-- What a frame is, in the priority order of R61. (The status read is the register read at STATUS_ADDR; the responder
tells it apart.) -/
def decodeFrame (f : Frame) : Except FrameReject FrameOp :=
  match f.out with
  | [] => if f.rd = 0 then .ok .empty else .error .noByte0
  | b :: p =>
    if b.getLsbD 7 then
      if p ≠ [] ∨ f.rd ≠ 0 then .error .strobePayload
      else
        match modeOf b with
        | some m => .ok (.strobe m)
        | none => if b = 0xE0 then .ok .rstWr else if b = 0xF0 then .ok .rstRd else .error .strobeLowNibble
    else if b = 0x45 then
      if p = [] then .ok (.rxFifo f.rd) else .error .wrongDirection
    else if b = 0x05 then
      if f.rd = 0 then .ok (.txFifo p) else .error .wrongDirection
    else if b = 0x00 ∧ p = [0x00] ∧ f.rd = 0 then .ok .reset
    else if b.getLsbD 6 then
      if p = [] then .ok (.regRead (b.setWidth 6) f.rd) else .error .wrongDirection
    else
      if f.rd = 0 then .ok (.regWrite (b.setWidth 6) p) else .error .wrongDirection

/-- The bytes of a frame (R52 to R57). -/
def encodeFrame : FrameOp → Frame
  | .empty => { out := [], rd := 0 }
  | .strobe m => { out := [modeByte m], rd := 0 }
  | .rstRd => { out := [0xF0], rd := 0 }
  | .rstWr => { out := [0xE0], rd := 0 }
  | .rxFifo n => { out := [0x45], rd := n }
  | .txFifo p => { out := 0x05 :: p, rd := 0 }
  | .reset => { out := [0x00, 0x00], rd := 0 }
  | .regRead a n => { out := [a.setWidth 8 ||| 0x40], rd := n }
  | .regWrite a p => { out := a.setWidth 8 :: p, rd := 0 }

/-! ### Operand words of a request (log 9) -/

/-- Reads something from the front of a word list. -/
abbrev Parse (α : Type) := List Nat → Option (α × List Nat)

def takeNat : Parse Nat
  | [] => none
  | w :: t => some (w, t)

def takeByte : Parse Byte
  | [] => none
  | w :: t => if w < 256 then some (BitVec.ofNat 8 w, t) else none

/-- `n` things, one after another. -/
def takeMany {α : Type} (p : Parse α) : Nat → Parse (List α)
  | 0, ws => some ([], ws)
  | n + 1, ws =>
    match p ws with
    | none => none
    | some (x, r) =>
      match takeMany p n r with
      | none => none
      | some (xs, r') => some (x :: xs, r')

/-- A count, then that many things. -/
def takeList {α : Type} (p : Parse α) : Parse (List α)
  | [] => none
  | n :: t => takeMany p n t

/-- The whole word list, read to its end. -/
def whole {α : Type} (p : Parse α) (ws : List Nat) : Option α :=
  match p ws with
  | some (x, []) => some x
  | _ => none

/-- A field: its name, `lo`, and `w - 1` (a field has at least one bit, R78). -/
def takeField : Parse Field := fun ws =>
  match takeList takeByte ws with
  | some (name, lo :: w :: r) => some ({ name := name, lo := lo, w := w + 1 }, r)
  | _ => none

/-- One entry of a typed value: a field name and its number. -/
def takeEntry : Parse (FieldName × Nat) := fun ws =>
  match takeList takeByte ws with
  | some (name, v :: r) => some ((name, v), r)
  | _ => none

/-- An op: tag 0 for Write with its bytes, tag 1 for Read with its length. -/
def takeOp : Parse Op
  | 0 :: r =>
    match takeList takeByte r with
    | some (b, r') => some (.write b, r')
    | none => none
  | 1 :: n :: r => some (.read n, r)
  | _ => none

/-- A descriptor of an access of width `n`: one less than the address (255 for address 0x00), width (0 for `n` itself),
facets (0 both, 1 readable, 2 writable, 3 neither), readable fields, writable fields. -/
def takeDescriptor (n : Nat) : Parse Descriptor
  | a :: w :: f :: r =>
    if a < 256 ∧ f < 4 then
      match takeList takeField r with
      | none => none
      | some (rf, r1) =>
        match takeList takeField r1 with
        | none => none
        | some (wf, r2) =>
          some ({ addr := BitVec.ofNat 8 (a + 1), width := if w = 0 then n else w, readable := f = 0 || f = 1,
                  writable := f = 0 || f = 2, rfields := rf, wfields := wf }, r2)
    else none
  | _ => none

/-- A descriptor and a typed value. -/
def takeWrite (n : Nat) : Parse (Descriptor × TypedValue) := fun ws =>
  match takeDescriptor n ws with
  | none => none
  | some (d, r) =>
    match takeList takeEntry r with
    | none => none
    | some (v, r') => some ((d, v), r')

/-- An unsigned integer of the given number of bits, alone. -/
def uintOperand (bits : Nat) : List Nat → Option (BitVec bits)
  | [u] => if u < 2 ^ bits then some (BitVec.ofNat bits u) else none
  | _ => none

/-- The words, each a byte. -/
def bytesOperand (ws : List Nat) : Option (List Byte) := whole (takeMany takeByte ws.length) ws

/-- The op list of a TRANSACT: one less than the number of ops (R90: non-empty), then the ops. -/
def opsOperand : List Nat → Option (List Op)
  | [] => none
  | k :: t => whole (takeMany takeOp (k + 1)) t

/-- LEN and then the bytes of the caller's buffer (R147). -/
def bufferOperand : List Nat → Option (List Byte)
  | [] => none
  | l :: t => if t.length = l then bytesOperand t else none

/-- The width code of a container: 0, 1, 2 for 1, 2, 4 bytes. -/
def containerWidth : Nat → Option Nat
  | 0 => some 1
  | 1 => some 2
  | 2 => some 4
  | _ => none

/-- FINS: width code, c, lo, w - 1, v. -/
def finsOperand : List Nat → Option Instr
  | [k, c, lo, w, v] => (containerWidth k).map (fun n => .fins n c lo (w + 1) v)
  | _ => none

/-- FEXT: width code, c, lo, w - 1. -/
def fextOperand : List Nat → Option Instr
  | [k, c, lo, w] => (containerWidth k).map (fun n => .fext n c lo (w + 1))
  | _ => none

/-- LEN, alone (R140). -/
def lenOperand : List Nat → Option Nat
  | [l] => some l
  | _ => none

/-- No operand word. -/
def noOperand (i : Instr) : List Nat → Option Instr
  | [] => some i
  | _ => none

/-! ### The decoder -/

/-- Why an instruction word is rejected. -/
inductive DecodeError where
  /-- a request code that is not in the table of R62 -/
  | requestUnknown (code : Byte)
  /-- the operand words are not those of the request (log 9) -/
  | operandsUnreadable (code : Byte)
  /-- a frame that no row of the byte-0 map has (R60, R61, R175) -/
  | frameUnknown (why : FrameReject)
  /-- a frame of no byte: no row -/
  | frameEmpty
deriving DecidableEq, Repr

/-- The operands, or a rejection that names the code. -/
def orUnreadable (code : Byte) (o : Option Instr) : Except DecodeError Instr :=
  match o with
  | some i => .ok i
  | none => .error (.operandsUnreadable code)

/-- A host request (R62). "Every other HOP value is refused". -/
def decodeRequest (code : Byte) (ws : List Nat) : Except DecodeError Instr :=
  match code with
  | 0x01#8 => orUnreadable code ((uintOperand 8 ws).map .enc1)
  | 0x02#8 => orUnreadable code ((uintOperand 16 ws).map .enc2)
  | 0x04#8 => orUnreadable code ((uintOperand 32 ws).map .enc4)
  | 0x11#8 => orUnreadable code ((bytesOperand ws).map .dec1)
  | 0x12#8 => orUnreadable code ((bytesOperand ws).map .dec2)
  | 0x14#8 => orUnreadable code ((bytesOperand ws).map .dec4)
  | 0x18#8 => orUnreadable code (finsOperand ws)
  | 0x19#8 => orUnreadable code (fextOperand ws)
  | 0x20#8 => orUnreadable code ((opsOperand ws).map .transact)
  | 0x21#8 => orUnreadable code ((bytesOperand ws).map .bwrite)
  | 0x31#8 => orUnreadable code ((whole (takeDescriptor 1) ws).map .rdreg1)
  | 0x32#8 => orUnreadable code ((whole (takeDescriptor 2) ws).map .rdreg2)
  | 0x34#8 => orUnreadable code ((whole (takeDescriptor 4) ws).map .rdreg4)
  | 0x41#8 => orUnreadable code ((whole (takeWrite 1) ws).map (fun p => .wrreg1 p.1 p.2))
  | 0x42#8 => orUnreadable code ((whole (takeWrite 2) ws).map (fun p => .wrreg2 p.1 p.2))
  | 0x44#8 => orUnreadable code ((whole (takeWrite 4) ws).map (fun p => .wrreg4 p.1 p.2))
  | 0x50#8 => orUnreadable code (noOperand .setmodeSleep ws)
  | 0x51#8 => orUnreadable code (noOperand .setmodeIdle ws)
  | 0x52#8 => orUnreadable code (noOperand .setmodeStandby ws)
  | 0x53#8 => orUnreadable code (noOperand .setmodePll ws)
  | 0x54#8 => orUnreadable code (noOperand .setmodeRx ws)
  | 0x55#8 => orUnreadable code (noOperand .setmodeTx ws)
  | 0x60#8 => orUnreadable code (noOperand .cmdReset ws)
  | 0x61#8 => orUnreadable code (noOperand .cmdRstrd ws)
  | 0x62#8 => orUnreadable code (noOperand .cmdRstwr ws)
  | 0x70#8 => orUnreadable code ((lenOperand ws).map .rx)
  | 0x71#8 => orUnreadable code ((bufferOperand ws).map .tx)
  | _ => .error (.requestUnknown code)

/-- The frame row of what a frame is. -/
def frameInstr : FrameOp → Except DecodeError Instr
  | .empty => .error .frameEmpty
  | .strobe .sleep => .ok .strobeSleep
  | .strobe .idle => .ok .strobeIdle
  | .strobe .standby => .ok .strobeStandby
  | .strobe .pll => .ok .strobePll
  | .strobe .rx => .ok .strobeRx
  | .strobe .tx => .ok .strobeTx
  | .rstRd => .ok .strobeRstrd
  | .rstWr => .ok .strobeRstwr
  | .rxFifo n => .ok (.frameRxfifo n)
  | .txFifo p => .ok (.frameTxfifo p)
  | .reset => .ok .frameReset
  | .regRead a n => .ok (.frameRegread a n)
  | .regWrite a p => .ok (.frameRegwrite a p)

/-- The instruction an instruction word stands for. -/
def decode : InstrWord → Except DecodeError Instr
  | .request code ws => decodeRequest code ws
  | .frame f =>
    match decodeFrame f with
    | .ok op => frameInstr op
    | .error why => .error (.frameUnknown why)

/-! ### The encoder -/

def byteWords (b : List Byte) : List Nat := b.map BitVec.toNat

def nameWords (n : FieldName) : List Nat := n.length :: byteWords n

def fieldWords (f : Field) : List Nat := nameWords f.name ++ [f.lo, f.w - 1]

def fieldsWords (fs : List Field) : List Nat := fs.length :: fs.flatMap fieldWords

def entryWords (e : FieldName × Nat) : List Nat := nameWords e.1 ++ [e.2]

def opWords : Op → List Nat
  | .write b => 0 :: b.length :: byteWords b
  | .read n => [1, n]

def facetCode (d : Descriptor) : Nat :=
  if d.readable then (if d.writable then 0 else 1) else (if d.writable then 2 else 3)

def descriptorWords (n : Nat) (d : Descriptor) : List Nat :=
  (d.addr - 1).toNat :: (if d.width = n then 0 else d.width) :: facetCode d :: (fieldsWords d.rfields ++ fieldsWords d.wfields)

def writeWords (n : Nat) (d : Descriptor) (v : TypedValue) : List Nat :=
  descriptorWords n d ++ (v.length :: v.flatMap entryWords)

def containerCode (n : Nat) : Nat := if n = 1 then 0 else if n = 2 then 1 else 2

/-- The instruction word of an instruction: the request code of R62 with its operand words, or the frame of R52 to R57. -/
def encode : Instr → InstrWord
  | .enc1 u => .request 0x01 [u.toNat]
  | .enc2 u => .request 0x02 [u.toNat]
  | .enc4 u => .request 0x04 [u.toNat]
  | .dec1 b => .request 0x11 (byteWords b)
  | .dec2 b => .request 0x12 (byteWords b)
  | .dec4 b => .request 0x14 (byteWords b)
  | .fins n c lo w v => .request 0x18 [containerCode n, c, lo, w - 1, v]
  | .fext n c lo w => .request 0x19 [containerCode n, c, lo, w - 1]
  | .transact ops => .request 0x20 ((ops.length - 1) :: ops.flatMap opWords)
  | .bwrite b => .request 0x21 (byteWords b)
  | .rdreg1 d => .request 0x31 (descriptorWords 1 d)
  | .rdreg2 d => .request 0x32 (descriptorWords 2 d)
  | .rdreg4 d => .request 0x34 (descriptorWords 4 d)
  | .wrreg1 d v => .request 0x41 (writeWords 1 d v)
  | .wrreg2 d v => .request 0x42 (writeWords 2 d v)
  | .wrreg4 d v => .request 0x44 (writeWords 4 d v)
  | .setmodeSleep => .request 0x50 []
  | .setmodeIdle => .request 0x51 []
  | .setmodeStandby => .request 0x52 []
  | .setmodePll => .request 0x53 []
  | .setmodeRx => .request 0x54 []
  | .setmodeTx => .request 0x55 []
  | .cmdReset => .request 0x60 []
  | .cmdRstrd => .request 0x61 []
  | .cmdRstwr => .request 0x62 []
  | .rx l => .request 0x70 [l]
  | .tx b => .request 0x71 (b.length :: byteWords b)
  | .frameRegwrite a p => .frame (encodeFrame (.regWrite a p))
  | .frameRegread a n => .frame (encodeFrame (.regRead a n))
  | .frameTxfifo p => .frame (encodeFrame (.txFifo p))
  | .frameRxfifo n => .frame (encodeFrame (.rxFifo n))
  | .frameReset => .frame (encodeFrame .reset)
  | .strobeSleep => .frame (encodeFrame (.strobe .sleep))
  | .strobeIdle => .frame (encodeFrame (.strobe .idle))
  | .strobeStandby => .frame (encodeFrame (.strobe .standby))
  | .strobePll => .frame (encodeFrame (.strobe .pll))
  | .strobeRx => .frame (encodeFrame (.strobe .rx))
  | .strobeTx => .frame (encodeFrame (.strobe .tx))
  | .strobeRstwr => .frame (encodeFrame .rstWr)
  | .strobeRstrd => .frame (encodeFrame .rstRd)

/-! ### Words numbered as the opcode table numbers them (log 10) -/

/-- The first `k` bytes of a word, least significant first. -/
def wordBytes : Nat → Nat → List Byte
  | 0, _ => []
  | k + 1, w => BitVec.ofNat 8 w :: wordBytes k (w / 256)

/-- For each request code of R62, how many operand words its shortest request of zeros has; none for other bytes. -/
def zeroOperands (code : Byte) : Option Nat :=
  match code with
  | 0x01#8 => some 1
  | 0x02#8 => some 1
  | 0x04#8 => some 1
  | 0x11#8 => some 1
  | 0x12#8 => some 2
  | 0x14#8 => some 4
  | 0x18#8 => some 5
  | 0x19#8 => some 4
  | 0x20#8 => some 3
  | 0x21#8 => some 2
  | 0x31#8 => some 5
  | 0x32#8 => some 5
  | 0x34#8 => some 5
  | 0x41#8 => some 6
  | 0x42#8 => some 6
  | 0x44#8 => some 6
  | 0x50#8 => some 0
  | 0x51#8 => some 0
  | 0x52#8 => some 0
  | 0x53#8 => some 0
  | 0x54#8 => some 0
  | 0x55#8 => some 0
  | 0x60#8 => some 0
  | 0x61#8 => some 0
  | 0x62#8 => some 0
  | 0x70#8 => some 1
  | 0x71#8 => some 1
  | _ => none

/-- A frame whose byte 0 alone is given: a register write goes out with a payload of four zero bytes, a register read
asks for one byte, every other frame is byte 0 alone. -/
def frameOfByte0 (b : Byte) : Frame :=
  if b.getLsbD 7 ∨ b = 0x05 ∨ b = 0x45 then { out := [b], rd := 0 }
  else if b.getLsbD 6 then { out := [b], rd := 1 }
  else { out := [b, 0, 0, 0, 0], rd := 0 }

/-- The instruction word whose bits are `w`: a byte that is a request code begins a request (its bytes after the first are
operand words, filled up with zeros), any other byte begins a frame. -/
def tableWord (nbits w : Nat) : InstrWord :=
  match wordBytes (nbits / 8) w with
  | [] => .frame { out := [], rd := 0 }
  | b :: t =>
    match zeroOperands b with
    | some k => .request b (byteWords t ++ List.replicate (k - t.length) 0)
    | none => .frame (if t = [] then frameOfByte0 b else { out := b :: t, rd := 0 })

/-- The instruction the decoder reads from a word of the opcode table. -/
def decodeTableWord (nbits w : Nat) : Option Instr :=
  match decode (tableWord nbits w) with
  | .ok i => some i
  | .error _ => none

end Sys2Proof
end

