-- ==== Sys2Proof/Machine/State.lean ====
section
/-! DEFINITION. The state of the machine: the block (10_state.md sections 1 to 5), the chip as responder
(45_chip_responder.md R161), the event history (R24), the parameters (R5), and what the outside world is about to do.
All of it is plain data. -/

namespace Sys2Proof.Machine

/-- A FIFO memory (R30 b): (index, byte) pairs, indexes strictly rising, no entry equal to what an unlisted index
reads as. -/
abbrev Memory := List Host.Cell

/-- What the bus provider reports of a transaction (R90). -/
inductive BusOutcome where
  /-- one byte list per Read op, in op order -/
  | ok (reads : List (List Byte))
  /-- the transport failure, unchanged -/
  | err (e : TE)
deriving DecidableEq, Repr, Inhabited

/-- An entry of the event history H (R24): the op list as issued, the outcome, the operation that issued it (its
request code, R62). -/
structure Entry where
  ops     : List Op
  outcome : BusOutcome
  by_     : Byte
deriving DecidableEq, Repr, Inhabited

/-- The chip (R161). -/
structure Chip where
  mode    : Mode
  prior   : Mode
  rdPtr   : Nat
  wrPtr   : Nat
  rxfifo  : Memory
  txfifo  : Memory
  fecPass : Bool
  crcPass : Bool
  cat     : Catalog
deriving DecidableEq, Repr, Inhabited

/-- One thing the radio may do (R174). -/
inductive RadioAct where
  /-- set the validity flags to any values -/
  | flags (fec crc : Bool)
  /-- replace bytes of the receive buffer: a packet arriving -/
  | receive (cells : List Host.Cell)
  /-- fall back to the prior mode, in Rx or Tx -/
  | fallback
deriving DecidableEq, Repr, Inhabited

/-- One answer of the far end: everything about one transaction that the rules leave to a draw (R104, R162; log 3). -/
structure Answer where
  /-- what the radio does before the transaction (R174) -/
  radio : List RadioAct
  /-- the transport failure, if the provider reports one, and how many bytes of the frame the chip received (R96, R102) -/
  fault : Option (TE × Nat)
  /-- bytes: of a catalog register (R170), of the status payload's other bits (R169), of the caller's buffer after a
  failed RX (R156); of every read where the responder is given (R104) -/
  bytes : List Byte
  /-- the catalog's state afterwards, when the frame may change it (R170, R171) -/
  cat : Catalog
  /-- which family of CHIP_RESET the chip's state is in afterwards, when the frame is Reset (R166) -/
  pick : Nat
  /-- the chip's state afterwards, when the frame is Reset (R166), or the responder is given (R104) -/
  chip : ChipPicture
deriving DecidableEq, Repr, Inhabited

/-- What the outside world does next, between operations. -/
inductive Input where
  /-- the host issues an operation, or puts a frame on the bus -/
  | instr (w : InstrWord)
  /-- the radio acts (R174) -/
  | radio (acts : List RadioAct)
  /-- the block is reset (R215) -/
  | blockReset
deriving DecidableEq, Repr, Inhabited

/-- Why the machine stops with a fault. The hardware has none (R190); the one below is the model's own, asked for by
R13. Safe: no run from State.reset reaches it. -/
inductive Fault where
  /-- raised by resuming an operation when OPR is not the code of an operation that has the position SEQ: the operation in
  progress has not written the operand registers that the position reads (R13, U10; log 26). Safe. -/
  | operandNotWritten
deriving DecidableEq, Repr

/-- Why the machine gives no meaning to what it is asked ("refused", 00_scope.md section 6). All are safe: the machine
stops where the spec gives no effect. -/
inductive Refusal where
  /-- raised by exec for an instruction that has no meaning yet; none at present. Safe. -/
  | notModelled (mnemonic : String)
  /-- raised by step for an instruction word that stands for no instruction (R60, R62, U20). Safe. -/
  | undecodable (why : DecodeError)
  /-- raised by a meaning whose operands the spec refuses (R31, R78, R80, R85, R90, R114, R115, U19). Safe. -/
  | operands (why : OperandFlaw)
  /-- raised by a meaning while another operation is in progress (R11, R204). Safe. -/
  | operationInProgress
  /-- raised by step for a reset of the block while an operation is in progress (R215, U14). Safe. -/
  | resetDuringOperation
  /-- raised by the responder for a frame that has no rule (R175, U1, U2). Safe. -/
  | frameNoRule (why : FrameReject)
  /-- raised by the responder for a transaction that writes a byte after it has read one, which no rule has (R50). Safe. -/
  | writeAfterRead
  /-- raised by the responder for a FIFO frame that would carry a pointer past FIFO_DEPTH (R176, U7). Safe. -/
  | fifoPastEnd
  /-- raised by the responder for a register frame whose payload length is not the register's width (R177, U6). Safe. -/
  | registerLength
deriving DecidableEq, Repr

/-- The state of the machine (INVENTORY.md, State). -/
structure State where
  /-- the OPEN parameters of R5; no step changes them -/
  cfg     : Params
  /-- BUSOWN (R11): a constant fact -/
  busOwn  : Bool
  /-- SEQ (R14) -/
  seq     : Seq
  /-- the operand registers and flags (R12, R16) -/
  regs    : Regs
  /-- the caller's buffer, the host's memory (R30 c, log 14): what the last RX filled or the last TX was given -/
  callerBuf : List Byte
  /-- RES (R17) -/
  res     : Res
  /-- the chip (R161) -/
  chip    : Chip
  /-- H (R24) -/
  hist    : List Entry
  /-- the model's own: the counter the free values are drawn with (log 6) -/
  tick    : Nat
  /-- what the outside world does next, in order -/
  inbox   : List Input
  /-- the far end's answers to come, in order -/
  answers : List Answer
deriving DecidableEq, Repr, Inhabited

/-- The operand registers at reset: unspecified in the spec (R25); DESIGN CHOICE (log 5). -/
def Regs.atReset : Regs :=
  { opr := 0, addr := 0, wid := 1, val := 0, stg := { b0 := 0, b1 := 0, b2 := 0, b3 := 0 }, mode := .sleep,
    cmd := .reset, len := 0, buf := [], fecp := false, crcp := false, fld := [], ops := [] }

/-- The chip at power-on: unspecified in the spec (R25, R216); DESIGN CHOICE, the values of R178's test responder (log 7). -/
def Chip.atReset : Chip :=
  { mode := .standby, prior := .standby, rdPtr := 0, wrPtr := 0, rxfifo := [], txfifo := [], fecPass := true,
    crcPass := true, cat := [] }

/-- The machine right after reset (R25, R215): idle, the bus owned, H empty; nothing requested and nothing answered. -/
def State.reset : State :=
  { cfg := Params.suggested, busOwn := true, seq := .idle, regs := Regs.atReset, callerBuf := [], res := .ok .unit,
    chip := Chip.atReset, hist := [], tick := 0, inbox := [], answers := [] }

end Sys2Proof.Machine

namespace Sys2Proof.Machine

/-- The three outcomes of an instruction. -/
abbrev Result := Host.Outcome State Fault Refusal

end Sys2Proof.Machine
end

