-- ==== Sys2Proof/Machine/Ops.lean ====
section
/-! DEFINITION. The named operations over memory and registers: the FIFO memories, the start of an operation, its end,
and the raising of an exception (R196). -/

namespace Sys2Proof.Machine

/-! ### FIFO memory (R30 b, R46, R161) -/

/-- What an index that a memory does not list reads as: DESIGN CHOICE 0 (log 8); the spec leaves the buffers'
contents after power-on unspecified (R25). -/
def Memory.unlisted : Byte := 0

/-- The byte at an index. -/
def Memory.read : Memory → Nat → Byte
  | [], _ => Memory.unlisted
  | (k, b) :: t, a => if k = a then b else Memory.read t a

/-- A byte stored at an index; the canonical form is kept. -/
def Memory.write : Memory → Nat → Byte → Memory
  | [], a, b => if b = Memory.unlisted then [] else [(a, b)]
  | (k, c) :: t, a, b =>
    if a < k then (if b = Memory.unlisted then (k, c) :: t else (a, b) :: (k, c) :: t)
    else if a = k then (if b = Memory.unlisted then t else (k, b) :: t)
    else (k, c) :: Memory.write t a b

/-- The canonical form: indexes strictly rising, no entry that an unlisted index would read as. -/
abbrev Memory.wf (m : Memory) : Prop := m.Pairwise (fun x y => x.1 < y.1) ∧ ∀ c ∈ m, c.2 ≠ Memory.unlisted

/-- Every listed index lies inside a buffer of `depth` bytes. -/
abbrev Memory.within (depth : Nat) (m : Memory) : Prop := ∀ c ∈ m, c.1 < depth

/-- `n` bytes from an index on. -/
def Memory.readBytes (m : Memory) (a : Nat) : Nat → List Byte
  | 0 => []
  | n + 1 => m.read a :: Memory.readBytes m (a + 1) n

/-- The bytes stored from an index on. -/
def Memory.writeBytes (m : Memory) (a : Nat) : List Byte → Memory
  | [] => m
  | b :: t => Memory.writeBytes (m.write a b) (a + 1) t

/-- The bytes of the cells that lie in a buffer of `depth` bytes stored, in order; a cell outside it is ignored. -/
def Memory.writeCells (depth : Nat) (m : Memory) : List Host.Cell → Memory
  | [] => m
  | c :: t => Memory.writeCells depth (if c.1 < depth then m.write c.1 c.2 else m) t

/-! ### Starting and ending an operation (R11, R13, R15, R17, R196) -/

/-- A request accepted from IDLE (R15): the operand registers loaded, SEQ at the operation's first position. A second
operation while one is in progress is a move the host does not have (R11). -/
def accept (s : State) (q : Seq) (r : Regs) (k : State → Result) : Result :=
  if s.seq = .idle then k { s with seq := q, regs := r } else .refused .operationInProgress

/-- The operands checked (R105, R109: "require ... else refused"). -/
def require (flaw : Option OperandFlaw) (k : Result) : Result :=
  match flaw with
  | none => k
  | some why => .refused (.operands why)

/-- The end of every operation (R17, R196, R209): RES written once, SEQ back to IDLE; the operand registers and flags,
discarded, hold unspecified values from here on (R13, R16; log 6). -/
def finish (r : Res) (s : State) : State :=
  { s with seq := .idle, res := r, regs := Config.freeRegs s.tick, tick := s.tick + 1 }

/-- `raise TransportError(e)` (R191, R196): the operation ends where it stands; nothing is saved, nothing is sent. -/
def raiseTransport (e : TE) (s : State) : State := finish (.transportErr e) s

/-- `raise PacketError` (R192, R196). -/
def raisePacket (fecFailed crcFailed : Bool) (s : State) : State := finish (.packetErr fecFailed crcFailed) s

/-- `return v`. -/
def returnOk (v : Data) (s : State) : State := finish (.ok v) s

/-- A reset of the block between operations (R25, R215): idle, the bus owned, H empty, every other register of the
block unspecified; the chip and the caller's memory are not told. -/
def resetBlock (s : State) : State :=
  { s with busOwn := true, seq := .idle, hist := [], regs := Config.freeRegs s.tick, res := Config.freeRes s.tick,
           tick := s.tick + 1 }

end Sys2Proof.Machine
end

