-- ==== Sys2Proof/Machine/Responder.lean ====
section
/-! DEFINITION. The far end (R104): the chip as reference responder (45_chip_responder.md), the radio agent (R174), and any
other responder. Every draw of the relation is part of the `Answer` handed in (log 3); the rules say the rest. -/

namespace Sys2Proof.Machine

/-! ### The radio (R174) -/

/-- One act of the radio. The pointers and the transmit buffer are never changed by it. -/
def radioAct (cfg : Params) (a : RadioAct) (c : Chip) : Chip :=
  match a with
  | .flags f k => { c with fecPass := f, crcPass := k }
  | .receive cells => { c with rxfifo := c.rxfifo.writeCells cfg.fifoDepth cells }
  | .fallback => if c.mode = .rx ∨ c.mode = .tx then { c with mode := c.prior } else c

/-- The radio's acts between two transactions, in order. -/
def radioActs (cfg : Params) (acts : List RadioAct) (c : Chip) : Chip :=
  match acts with
  | [] => c
  | a :: t => radioActs cfg t (radioAct cfg a c)

/-! ### Effects of frames -/

/-- Mode strobe (R163): the prior mode is the one Rx or Tx is entered from. -/
def strobeMode (m : Mode) (c : Chip) : Chip :=
  { c with
    prior := if (m = .rx ∨ m = .tx) ∧ c.mode ≠ .rx ∧ c.mode ≠ .tx then c.mode else c.prior
    mode := m }

/-- Read-pointer reset (R164). -/
def resetRdPtr (c : Chip) : Chip := { c with rdPtr := 0 }

/-- Write-pointer reset (R165). -/
def resetWrPtr (c : Chip) : Chip := { c with wrPtr := 0 }

/-- The chip state a picture stands for, on a chip of the given FIFO depth (log 20). -/
def chipOfPicture (depth : Nat) (p : ChipPicture) : Chip :=
  { mode := p.mode, prior := p.prior, rdPtr := min p.rdPtr depth, wrPtr := min p.wrPtr depth,
    rxfifo := Memory.writeCells depth [] p.rx, txfifo := Memory.writeCells depth [] p.tx,
    fecPass := p.fecPass, crcPass := p.crcPass, cat := p.cat }

/-- The member of CHIP_RESET that a draw picks (R166): any state, where CHIP_RESET is the default. -/
def resetPicture (cfg : Params) (pick : Nat) (draw : ChipPicture) : ChipPicture :=
  match cfg.chipReset with
  | [] => draw
  | p :: t => ((p :: t).getD pick p).fill draw

/-- Reset (R166): the whole chip state replaced. -/
def resetChip (cfg : Params) (pick : Nat) (draw : ChipPicture) : Chip :=
  chipOfPicture cfg.fifoDepth (resetPicture cfg pick draw)

/-- RX buffer read (R167): bytes from the read pointer on; the pointer moves on by one per byte. -/
def readFifo (cfg : Params) (n : Nat) (c : Chip) : Except Refusal (List Byte × Chip) :=
  if c.rdPtr + n ≤ cfg.fifoDepth then .ok (c.rxfifo.readBytes c.rdPtr n, { c with rdPtr := c.rdPtr + n })
  else .error .fifoPastEnd

/-- TX buffer write (R168). -/
def writeFifo (cfg : Params) (p : List Byte) (c : Chip) : Except Refusal (List Byte × Chip) :=
  if c.wrPtr + p.length ≤ cfg.fifoDepth then
    .ok ([], { c with txfifo := c.txfifo.writeBytes c.wrPtr p, wrPtr := c.wrPtr + p.length })
  else .error .fifoPastEnd

/-- Whether a payload length is one the register at an address may have (R177): a legal width, and the width of one of
the registers the catalog REGS has there for that direction, if it has any (log 16). -/
def lengthFits (cfg : Params) (reading : Bool) (a : BitVec 6) (n : Nat) : Bool :=
  let there := cfg.catalog.filter (fun d => d.addr = a.setWidth 8 && hasFacet reading d)
  legalWidth n && (there = [] || there.any (fun d => d.width = n))

/-- A register read (R169, R170): at STATUS_ADDR a status payload that reports the flags truthfully; elsewhere any bytes. -/
def readRegister (cfg : Params) (a : Answer) (addr : BitVec 6) (n : Nat) (c : Chip) : Except Refusal (List Byte × Chip) :=
  if addr = cfg.statusAddr then
    if n = statusWidth then .ok ([statusPayload cfg c.fecPass c.crcPass (a.bytes.headD 0)], c) else .error .registerLength
  else if lengthFits cfg true addr n then .ok (padTo n a.bytes, { c with cat := a.cat })
  else .error .registerLength

/-- A register write (R171). -/
def writeRegister (cfg : Params) (a : Answer) (addr : BitVec 6) (p : List Byte) (c : Chip) :
    Except Refusal (List Byte × Chip) :=
  if lengthFits cfg false addr p.length then .ok ([], { c with cat := a.cat }) else .error .registerLength

/-- The rule a frame selects (R162): the bytes read and the next chip state. -/
def respond (cfg : Params) (a : Answer) (f : FrameOp) (c : Chip) : Except Refusal (List Byte × Chip) :=
  match f with
  | .empty => .ok ([], c)
  | .strobe m => .ok ([], strobeMode m c)
  | .rstRd => .ok ([], resetRdPtr c)
  | .rstWr => .ok ([], resetWrPtr c)
  | .rxFifo n => readFifo cfg n c
  | .txFifo p => writeFifo cfg p c
  | .reset => .ok ([], resetChip cfg a.pick a.chip)
  | .regRead addr n => readRegister cfg a addr n c
  | .regWrite addr p => writeRegister cfg a addr p c

/-- The frame a transaction is (R94), or why it has no rule. -/
def frameOf (ops : List Op) : Except Refusal FrameOp :=
  match flatten ops with
  | none => .error .writeAfterRead
  | some f =>
    match decodeFrame f with
    | .ok op => .ok op
    | .error why => .error (.frameNoRule why)

/-- A frame received whole. -/
def receiveWhole (cfg : Params) (a : Answer) (ops : List Op) (c : Chip) : Except Refusal (List Byte × Chip) :=
  match frameOf ops with
  | .ok f => respond cfg a f c
  | .error r => .error r

/-- What a broken-off frame, a proper prefix of the one issued, leaves (R102, R162): the rule of the frame that arrived;
an incomplete access to a catalog register may change the catalog in any way and nothing else (log 17). -/
def respondBroken (cfg : Params) (a : Answer) (f : FrameOp) (c : Chip) : Except Refusal Chip :=
  match f with
  | .regRead addr _ => .ok (if addr = cfg.statusAddr then c else { c with cat := a.cat })
  | .regWrite _ _ => .ok { c with cat := a.cat }
  | .empty | .strobe _ | .rstRd | .rstWr | .rxFifo _ | .txFifo _ | .reset =>
    match respond cfg a f c with
    | .ok (_, c') => .ok c'
    | .error r => .error r

/-- The chip after a failed transaction of which it received `k` bytes (R102). -/
def receiveBroken (cfg : Params) (a : Answer) (ops : List Op) (k : Nat) (c : Chip) : Except Refusal Chip :=
  if opsSize ops ≤ k then
    match receiveWhole cfg a ops c with
    | .ok (_, c') => .ok c'
    | .error r => .error r
  else
    match frameOf (opsPrefix k ops) with
    | .ok f => respondBroken cfg a f c
    | .error r => .error r

/-- The error of TE that a draw picks (R96: "any transaction may fail, with any e"; log 4). -/
def errorOf (cfg : Params) (e : TE) : TE :=
  match cfg.te with
  | none => e
  | some n => { code := e.code % (n + 1) }

/-- One transaction at the far end under the reference responder: the radio's acts first, then the frame, in one step. -/
def referenceTransact (cfg : Params) (a : Answer) (ops : List Op) (c : Chip) : Except Refusal (BusOutcome × Chip) :=
  let c0 := radioActs cfg a.radio c
  match a.fault with
  | none =>
    match receiveWhole cfg a ops c0 with
    | .ok (bytes, c') => .ok (.ok (splitReads ops bytes), c')
    | .error r => .error r
  | some (e, k) =>
    match receiveBroken cfg a ops k c0 with
    | .ok c' => .ok (.err (errorOf cfg e), c')
    | .error r => .error r

/-- One transaction under a given responder: the outcome has the shape R90 asks for and the chip a legal state (R161);
everything else is the answer's. -/
def givenTransact (cfg : Params) (a : Answer) (ops : List Op) : BusOutcome × Chip :=
  let c' := chipOfPicture cfg.fifoDepth a.chip
  match a.fault with
  | none => (.ok (splitReads ops (padTo (readSize ops) a.bytes)), c')
  | some (e, _) => (.err (errorOf cfg e), c')

/-- Responder(chip, ops, outcome, chip') (R104), with the draw `a`. -/
def chipTransact (cfg : Params) (a : Answer) (ops : List Op) (c : Chip) : Except Refusal (BusOutcome × Chip) :=
  match cfg.responder with
  | .reference => referenceTransact cfg a ops c
  | .given => .ok (givenTransact cfg a ops)

end Sys2Proof.Machine
end

