-- ==== Sys2Proof/Machine/Stages.lean ====
section
/-! DEFINITION. The bus transaction primitive as the block sees it (R91, R101) and the positions of the sequencer: one
definition per value of SEQ, one row of R151 each. A position whose transaction has no answer yet leaves the operation
where it is (R100). -/

namespace Sys2Proof.Machine

/-- What comes of a transaction the block issues. -/
inductive BusResult where
  /-- the provider has not answered (R100) -/
  | waits
  /-- the far end has no rule for the frame -/
  | refused (r : Refusal)
  /-- `Err(e)`, with the answer that said so; H has its entry -/
  | failed (e : TE) (a : Answer) (s : State)
  /-- `Ok(reads)`; H has its entry -/
  | answered (reads : List (List Byte)) (s : State)

/-- BusTransact(ops) (R91): one atomic step of the provider and the chip, then one entry in H (R101). -/
def busTransact (s : State) (ops : List Op) : BusResult :=
  match s.answers with
  | [] => .waits
  | a :: rest =>
    match chipTransact s.cfg a ops s.chip with
    | .error r => .refused r
    | .ok (.ok reads, c) =>
      .answered reads { s with chip := c, answers := rest, hist := s.hist ++ [{ ops := ops, outcome := .ok reads, by_ := s.regs.opr }] }
    | .ok (.err e, c) =>
      .failed e a { s with chip := c, answers := rest, hist := s.hist ++ [{ ops := ops, outcome := .err e, by_ := s.regs.opr }] }

/-- BusWrite(bytes) (R95): the single-phase convenience. -/
def busWrite (s : State) (bytes : List Byte) : BusResult := busTransact s [.write bytes]

/-- The next thing the sequencer does after a transaction: wait, stop, take the failure edge, or go on. -/
def afterBus (s : State) (r : BusResult) (fail : TE → Answer → State → Result)
    (ok : List (List Byte) → State → Result) : Result :=
  match r with
  | .waits => .next s
  | .refused why => .refused why
  | .failed e a s' => fail e a s'
  | .answered reads s' => ok reads s'

/-- The failure edge of every state but RX's (R151, R196). -/
def failPlain (e : TE) (_ : Answer) (s : State) : Result := .next (raiseTransport e s)

/-- The failure edge of RX's states: the caller's buffer then holds LEN bytes that nothing is known of (R156). -/
def failRx (e : TE) (a : Answer) (s : State) : Result :=
  .next (raiseTransport e { s with callerBuf := padTo s.regs.len a.bytes })

/-! ### Single-step positions -/

/-- XACT for TRANSACT (R91). -/
def transactStage (s : State) : Result :=
  afterBus s (busTransact s s.regs.ops) failPlain (fun reads s' => .next (returnOk (.reads reads) s'))

/-- XACT for BWRITE (R95): the same transaction; nothing is returned. -/
def bwriteStage (s : State) : Result :=
  afterBus s (busTransact s s.regs.ops) failPlain (fun _ s' => .next (returnOk .unit s'))

/-- REG_XFER for RDREG (R105): the bytes read into STG, DEC_N of them into VAL, the typed value returned. -/
def readStage (s : State) : Result :=
  let n := s.regs.wid.toNat
  afterBus s (busTransact s [.write [readByte0 s.regs.addr], .read n]) failPlain fun reads s' =>
    let stg := loadStaging s'.regs.stg (reads.headD [])
    let val := BitVec.ofNat 32 (decN (takeStaging stg n))
    .next (returnOk (.typed (fromUint s'.regs.fld val.toNat)) { s' with regs := { s'.regs with stg := stg, val := val } })

/-- REG_XFER for WRREG (R109): the staged bytes sent. -/
def writeStage (s : State) : Result :=
  afterBus s (busTransact s [.write [s.regs.addr], .write (takeStaging s.regs.stg s.regs.wid.toNat)]) failPlain
    fun _ s' => .next (returnOk .unit s')

/-- STROBE for SETMODE (R121). -/
def modeStage (s : State) : Result :=
  afterBus s (busWrite s [modeByte s.regs.mode]) failPlain fun _ s' => .next (returnOk .unit s')

/-- STROBE for CMD (R128). -/
def commandStage (s : State) : Result :=
  afterBus s (busWrite s (commandBytes s.regs.cmd)) failPlain fun _ s' => .next (returnOk .unit s')

/-! ### The packet FSM (R140, R147, R151): each position is one step and names its successor (R14, R97) -/

/-- RX_STATUS (R141): FECP and CRCP from one read of the status register. -/
def rxStatusStage (s : State) : Result :=
  afterBus s (busTransact s [.write [readByte0 (s.cfg.statusAddr.setWidth 8)], .read statusWidth]) failRx fun reads s' =>
    let flags := statusDecode s'.cfg (reads.headD [])
    .next { s' with seq := .rxCheck, regs := { s'.regs with fecp := flags.1, crcp := flags.2 } }

/-- RX_CHECK (R142): no transaction. -/
def rxCheckStage (s : State) : Result :=
  if s.regs.fecp && s.regs.crcp then .next { s with seq := .rxPtr }
  else .next (raisePacket (!s.regs.fecp) (!s.regs.crcp) s)

/-- RX_PTR (R143). -/
def rxPtrStage (s : State) : Result :=
  afterBus s (busWrite s (commandBytes .rstRd)) failRx fun _ s' => .next { s' with seq := .rxData }

/-- RX_DATA (R144): the bytes into BUF, and handed to the caller, whose buffer they fill. -/
def rxDataStage (s : State) : Result :=
  afterBus s (busTransact s [.write [0x45], .read s.regs.len]) failRx fun reads s' =>
    let buf := reads.headD []
    .next (returnOk (.bytes buf) { s' with regs := { s'.regs with buf := buf }, callerBuf := buf })

/-- TX_PTR (R148). -/
def txPtrStage (s : State) : Result :=
  afterBus s (busWrite s (commandBytes .rstWr)) failPlain fun _ s' => .next { s' with seq := .txData }

/-- TX_DATA (R149). -/
def txDataStage (s : State) : Result :=
  afterBus s (busTransact s [.write [0x05], .write s.regs.buf]) failPlain fun _ s' => .next (returnOk .unit s')

/-- The operation in progress takes its next step from where it stands. OPR says which operation has the position (R15). -/
def resume (s : State) : Result :=
  match s.seq with
  | .idle => .next s
  | .rxStatus => if s.regs.opr = 0x70 then rxStatusStage s else .fault .operandNotWritten
  | .rxCheck => if s.regs.opr = 0x70 then rxCheckStage s else .fault .operandNotWritten
  | .rxPtr => if s.regs.opr = 0x70 then rxPtrStage s else .fault .operandNotWritten
  | .rxData => if s.regs.opr = 0x70 then rxDataStage s else .fault .operandNotWritten
  | .txPtr => if s.regs.opr = 0x71 then txPtrStage s else .fault .operandNotWritten
  | .txData => if s.regs.opr = 0x71 then txDataStage s else .fault .operandNotWritten
  | .regXfer =>
    if s.regs.opr = 0x31 ∨ s.regs.opr = 0x32 ∨ s.regs.opr = 0x34 then readStage s
    else if s.regs.opr = 0x41 ∨ s.regs.opr = 0x42 ∨ s.regs.opr = 0x44 then writeStage s
    else .fault .operandNotWritten
  | .strobe =>
    if s.regs.opr = 0x50 ∨ s.regs.opr = 0x51 ∨ s.regs.opr = 0x52 ∨ s.regs.opr = 0x53 ∨ s.regs.opr = 0x54
        ∨ s.regs.opr = 0x55 then modeStage s
    else if s.regs.opr = 0x60 ∨ s.regs.opr = 0x61 ∨ s.regs.opr = 0x62 then commandStage s
    else .fault .operandNotWritten
  | .xact =>
    if s.regs.opr = 0x20 then transactStage s
    else if s.regs.opr = 0x21 then bwriteStage s
    else .fault .operandNotWritten
  | .marshal => .fault .operandNotWritten

end Sys2Proof.Machine
end

