-- ==== Sys2Proof/Machine/Bus.lean ====
section
/-! DEFINITION. TRANSACT and BWRITE (41_bus.md). -/

namespace Sys2Proof.Machine

/-- A host's own transaction (R91): LEN holds the op count (R12). -/
def startTransact (ops : List Op) (s : State) : Result :=
  accept s .xact { s.regs with opr := 0x20, len := ops.length, ops := ops } transactStage

/-- A host's own single-phase transfer (R95): one op. -/
def startBwrite (bytes : List Byte) (s : State) : Result :=
  accept s .xact { s.regs with opr := 0x21, ops := [.write bytes] } bwriteStage

/-- TRANSACT (R91). -/
def execTransact (ops : List Op) (s : State) : Result := require (opsFlaw ops) (startTransact ops s)

/-- BWRITE (R95). -/
def execBwrite (bytes : List Byte) (s : State) : Result := require (bytesFlaw bytes) (startBwrite bytes s)

end Sys2Proof.Machine
end

