-- ==== Sys2Proof/Machine/Frames.lean ====
section
/-! DEFINITION. The wire frames of the opcode table, run on their own. Only the block puts bytes on the bus (R11), and it
puts a bare frame there by its transaction primitive: so a frame row is the host's own TRANSACT or BWRITE of exactly that
frame, in the op form its rule gives (R52 to R57), which the chip answers by the rule the frame selects (R162; log 11). -/

namespace Sys2Proof.Machine

/-- FRAME.REGWRITE (R52, R171). -/
def execFrameRegwrite (addr : BitVec 6) (payload : List Byte) (s : State) : Result :=
  startTransact [.write [addr.setWidth 8], .write payload] s

/-- FRAME.REGREAD (R53, R169, R170). -/
def execFrameRegread (addr : BitVec 6) (n : Nat) (s : State) : Result :=
  startTransact [.write [readByte0 (addr.setWidth 8)], .read n] s

/-- FRAME.TXFIFO (R57, R168). -/
def execFrameTxfifo (payload : List Byte) (s : State) : Result := startTransact [.write [0x05], .write payload] s

/-- FRAME.RXFIFO (R57, R167). -/
def execFrameRxfifo (n : Nat) (s : State) : Result := startTransact [.write [0x45], .read n] s

/-- FRAME.RESET (R56, R166). -/
def execFrameReset (s : State) : Result := startBwrite [0x00, 0x00] s

/-- STROBE.SLEEP (R54, R163). -/
def execStrobeSleep (s : State) : Result := startBwrite [0x80] s

/-- STROBE.IDLE (R54, R163). -/
def execStrobeIdle (s : State) : Result := startBwrite [0x90] s

/-- STROBE.STANDBY (R54, R163). -/
def execStrobeStandby (s : State) : Result := startBwrite [0xA0] s

/-- STROBE.PLL (R54, R163). -/
def execStrobePll (s : State) : Result := startBwrite [0xB0] s

/-- STROBE.RX (R54, R163). -/
def execStrobeRx (s : State) : Result := startBwrite [0xC0] s

/-- STROBE.TX (R54, R163). -/
def execStrobeTx (s : State) : Result := startBwrite [0xD0] s

/-- STROBE.RSTWR (R55, R165). -/
def execStrobeRstwr (s : State) : Result := startBwrite [0xE0] s

/-- STROBE.RSTRD (R55, R164). -/
def execStrobeRstrd (s : State) : Result := startBwrite [0xF0] s

end Sys2Proof.Machine
end

