-- ==== Sys2Proof/Machine/Marshal.lean ====
section
/-! DEFINITION. ENC1, ENC2, ENC4, DEC1, DEC2, DEC4, FINS, FEXT (40_marshal.md). No transaction, no flag, no failure
(R86). -/

namespace Sys2Proof.Machine

/-- ENC_N as an operation (R71 to R73): WID, VAL and STG written, the N staged bytes returned. -/
def marshalEnc (hop : Byte) (n u : Nat) (s : State) : Result :=
  accept s .marshal
    { s.regs with opr := hop, wid := BitVec.ofNat 3 n, val := BitVec.ofNat 32 u, stg := loadStaging s.regs.stg (encN n u) }
    fun s' => .next (returnOk (.bytes (takeStaging s'.regs.stg n)) s')

/-- DEC_N as an operation (R74 to R76): WID, STG and VAL written, VAL returned. A list of another length is refused (R85). -/
def marshalDec (hop : Byte) (n : Nat) (b : List Byte) (s : State) : Result :=
  require (decFlaw n b) <|
    accept s .marshal
      { s.regs with opr := hop, wid := BitVec.ofNat 3 n, stg := loadStaging s.regs.stg b,
                    val := BitVec.ofNat 32 (decN (takeStaging (loadStaging s.regs.stg b) n)) }
      fun s' => .next (returnOk (.uint s'.regs.val.toNat) s')

/-- ENC1 (R71). -/
def execEnc1 (u : BitVec 8) (s : State) : Result := marshalEnc 0x01 1 u.toNat s

/-- ENC2 (R72). -/
def execEnc2 (u : BitVec 16) (s : State) : Result := marshalEnc 0x02 2 u.toNat s

/-- ENC4 (R73). -/
def execEnc4 (u : BitVec 32) (s : State) : Result := marshalEnc 0x04 4 u.toNat s

/-- DEC1 (R74). -/
def execDec1 (b : List Byte) (s : State) : Result := marshalDec 0x11 1 b s

/-- DEC2 (R75). -/
def execDec2 (b : List Byte) (s : State) : Result := marshalDec 0x12 2 b s

/-- DEC4 (R76). -/
def execDec4 (b : List Byte) (s : State) : Result := marshalDec 0x14 4 b s

/-- FINS (R80): the container with the field inserted. -/
def execFins (n c lo w v : Nat) (s : State) : Result :=
  require (containerFlaw n c lo w) <|
    accept s .marshal { s.regs with opr := 0x18 } fun s' => .next (returnOk (.uint (fins n c lo w v)) s')

/-- FEXT (R81): the field's value. -/
def execFext (n c lo w : Nat) (s : State) : Result :=
  require (containerFlaw n c lo w) <|
    accept s .marshal { s.regs with opr := 0x19 } fun s' => .next (returnOk (.uint (fext c lo w)) s')

end Sys2Proof.Machine
end

