-- ==== Sys2Proof/Machine/ModeCommand.lean ====
section
/-! DEFINITION. SETMODE.x and CMD.x (43_mode_command.md). -/

namespace Sys2Proof.Machine

/-- SETMODE(m) (R121): MODE loaded, then one strobe. No precondition is checked (R133). -/
def setMode (hop : Byte) (m : Mode) (s : State) : Result :=
  accept s .strobe { s.regs with opr := hop, mode := m } modeStage

/-- CMD(c) (R128): CMD loaded, then one frame. -/
def command (hop : Byte) (c : Command) (s : State) : Result :=
  accept s .strobe { s.regs with opr := hop, cmd := c } commandStage

/-- SETMODE.SLEEP (R122). -/
def execSetmodeSleep (s : State) : Result := setMode 0x50 .sleep s

/-- SETMODE.IDLE (R123). -/
def execSetmodeIdle (s : State) : Result := setMode 0x51 .idle s

/-- SETMODE.STANDBY (R124). -/
def execSetmodeStandby (s : State) : Result := setMode 0x52 .standby s

/-- SETMODE.PLL (R125). -/
def execSetmodePll (s : State) : Result := setMode 0x53 .pll s

/-- SETMODE.RX (R126). -/
def execSetmodeRx (s : State) : Result := setMode 0x54 .rx s

/-- SETMODE.TX (R127). -/
def execSetmodeTx (s : State) : Result := setMode 0x55 .tx s

/-- CMD.RESET (R129): of the chip, not of the block (R217). -/
def execCmdReset (s : State) : Result := command 0x60 .reset s

/-- CMD.RSTRD (R130). -/
def execCmdRstrd (s : State) : Result := command 0x61 .rstRd s

/-- CMD.RSTWR (R131). -/
def execCmdRstwr (s : State) : Result := command 0x62 .rstWr s

end Sys2Proof.Machine
end

