-- ==== Sys2Proof/Machine/Packet.lean ====
section
/-! DEFINITION. RX and TX (44_packet.md). -/

namespace Sys2Proof.Machine

/-- RX (R140): LEN loaded, then the step of RX_STATUS; RX_CHECK, RX_PTR and RX_DATA are steps of their own. -/
def execRx (len : Nat) (s : State) : Result :=
  accept s .rxStatus { s.regs with opr := 0x70, len := len } rxStatusStage

/-- TX (R147): LEN and BUF loaded from the caller's buffer, then the step of TX_PTR; TX_DATA is a step of its own. -/
def execTx (buf : List Byte) (s : State) : Result :=
  accept s .txPtr { s.regs with opr := 0x71, len := buf.length, buf := buf } fun s' => txPtrStage { s' with callerBuf := buf }

end Sys2Proof.Machine
end

