-- ==== Sys2Proof/Machine/RegAccess.lean ====
section
/-! DEFINITION. RDREG1, RDREG2, RDREG4, WRREG1, WRREG2, WRREG4 (42_regaccess.md). -/

namespace Sys2Proof.Machine

/-- RDREG<N> (R105): ADDR and WID loaded, then one read transaction. -/
def readRegisterOp (hop : Byte) (n : Nat) (d : Descriptor) (s : State) : Result :=
  require (descriptorFlaw true n d) <|
    accept s .regXfer { s.regs with opr := hop, addr := d.addr, wid := BitVec.ofNat 3 n, fld := d.rfields } readStage

/-- WRREG<N> (R109): ADDR, WID, VAL (TOUINT) and STG (ENC_N) loaded, then one write transaction. -/
def writeRegisterOp (hop : Byte) (n : Nat) (d : Descriptor) (val : TypedValue) (s : State) : Result :=
  require (writeFlaw n d val) <|
    accept s .regXfer
      { s.regs with opr := hop, addr := d.addr, wid := BitVec.ofNat 3 n, val := BitVec.ofNat 32 (toUint n d.wfields val),
                    stg := loadStaging s.regs.stg (encN n (toUint n d.wfields val)) }
      writeStage

/-- RDREG1 (R106). -/
def execRdreg1 (d : Descriptor) (s : State) : Result := readRegisterOp 0x31 1 d s

/-- RDREG2 (R107). -/
def execRdreg2 (d : Descriptor) (s : State) : Result := readRegisterOp 0x32 2 d s

/-- RDREG4 (R108). -/
def execRdreg4 (d : Descriptor) (s : State) : Result := readRegisterOp 0x34 4 d s

/-- WRREG1 (R110). -/
def execWrreg1 (d : Descriptor) (val : TypedValue) (s : State) : Result := writeRegisterOp 0x41 1 d val s

/-- WRREG2 (R111). -/
def execWrreg2 (d : Descriptor) (val : TypedValue) (s : State) : Result := writeRegisterOp 0x42 2 d val s

/-- WRREG4 (R112). -/
def execWrreg4 (d : Descriptor) (val : TypedValue) (s : State) : Result := writeRegisterOp 0x44 4 d val s

end Sys2Proof.Machine
end

