-- ==== Sys2Proof/Machine/Dispatch.lean ====
section
/-! DEFINITION. One arm per instruction. -/

namespace Sys2Proof.Machine

def exec (i : Instr) (s : State) : Host.Outcome State Fault Refusal :=
  match i with
  | .enc1 u => Sys2Proof.Machine.execEnc1 u s
  | .enc2 u => Sys2Proof.Machine.execEnc2 u s
  | .enc4 u => Sys2Proof.Machine.execEnc4 u s
  | .dec1 b => Sys2Proof.Machine.execDec1 b s
  | .dec2 b => Sys2Proof.Machine.execDec2 b s
  | .dec4 b => Sys2Proof.Machine.execDec4 b s
  | .fins n c lo w v => Sys2Proof.Machine.execFins n c lo w v s
  | .fext n c lo w => Sys2Proof.Machine.execFext n c lo w s
  | .transact ops => Sys2Proof.Machine.execTransact ops s
  | .bwrite b => Sys2Proof.Machine.execBwrite b s
  | .rdreg1 d => Sys2Proof.Machine.execRdreg1 d s
  | .rdreg2 d => Sys2Proof.Machine.execRdreg2 d s
  | .rdreg4 d => Sys2Proof.Machine.execRdreg4 d s
  | .wrreg1 d v => Sys2Proof.Machine.execWrreg1 d v s
  | .wrreg2 d v => Sys2Proof.Machine.execWrreg2 d v s
  | .wrreg4 d v => Sys2Proof.Machine.execWrreg4 d v s
  | .setmodeSleep => Sys2Proof.Machine.execSetmodeSleep s
  | .setmodeIdle => Sys2Proof.Machine.execSetmodeIdle s
  | .setmodeStandby => Sys2Proof.Machine.execSetmodeStandby s
  | .setmodePll => Sys2Proof.Machine.execSetmodePll s
  | .setmodeRx => Sys2Proof.Machine.execSetmodeRx s
  | .setmodeTx => Sys2Proof.Machine.execSetmodeTx s
  | .cmdReset => Sys2Proof.Machine.execCmdReset s
  | .cmdRstrd => Sys2Proof.Machine.execCmdRstrd s
  | .cmdRstwr => Sys2Proof.Machine.execCmdRstwr s
  | .rx len => Sys2Proof.Machine.execRx len s
  | .tx buf => Sys2Proof.Machine.execTx buf s
  | .frameRegwrite a p => Sys2Proof.Machine.execFrameRegwrite a p s
  | .frameRegread a n => Sys2Proof.Machine.execFrameRegread a n s
  | .frameTxfifo p => Sys2Proof.Machine.execFrameTxfifo p s
  | .frameRxfifo n => Sys2Proof.Machine.execFrameRxfifo n s
  | .frameReset => Sys2Proof.Machine.execFrameReset s
  | .strobeSleep => Sys2Proof.Machine.execStrobeSleep s
  | .strobeIdle => Sys2Proof.Machine.execStrobeIdle s
  | .strobeStandby => Sys2Proof.Machine.execStrobeStandby s
  | .strobePll => Sys2Proof.Machine.execStrobePll s
  | .strobeRx => Sys2Proof.Machine.execStrobeRx s
  | .strobeTx => Sys2Proof.Machine.execStrobeTx s
  | .strobeRstwr => Sys2Proof.Machine.execStrobeRstwr s
  | .strobeRstrd => Sys2Proof.Machine.execStrobeRstrd s

end Sys2Proof.Machine
end

