-- ==== Sys2Proof/Machine/TestResponder.lean ====
section
/-! DEFINITION. The deterministic responder for tests (R178): the reference responder with every draw fixed. "No rule of
the block and no claim about the chip may rest on them"; the tests and `State.withFetchWord` use it. -/

namespace Sys2Proof.Machine

/-- The chip state that Reset sets in the test responder. -/
def testResetPicture : ChipPicture :=
  { mode := .standby, prior := .standby, rdPtr := 0, wrPtr := 0, rx := [], tx := [], fecPass := true, crcPass := true,
    cat := [] }

/-- An answer with no failure, no step of the radio and every other draw zero. -/
def plainAnswer : Answer := { radio := [], fault := none, bytes := [], cat := [], pick := 0, chip := testResetPicture }

/-- What was last written to an address by a catalog write of the same length; nothing if nothing was. -/
def remembered (cat : Catalog) (addr : BitVec 6) (n : Nat) : List Byte :=
  match cat.find? (fun e => e.1 = addr && e.2.length = n) with
  | some e => e.2
  | none => []

/-- Whether a family of CHIP_RESET has the state that Reset sets in the test responder as a member. -/
def hasTestReset (cfg : Params) (p : ChipPattern) : Bool :=
  chipOfPicture cfg.fifoDepth (p.fill testResetPicture) = chipOfPicture cfg.fifoDepth testResetPicture

/-- The family of CHIP_RESET that the test responder's Reset is drawn from: the first that has that state. Where none has it,
the reference responder cannot set it (R166), and the first family is taken, with its values where it leaves one open (log 20). -/
def testPick (cfg : Params) : Nat := cfg.chipReset.findIdx (hasTestReset cfg)

/-- The test responder's answer to a transaction: a catalog write is remembered, a catalog read returns what was
remembered, or zeros; the status payload's other bits are 0; Reset draws the state R178 gives. -/
def testAnswer (cfg : Params) (ops : List Op) (c : Chip) : Answer :=
  match frameOf ops with
  | .ok (.regRead addr n) =>
    if addr = cfg.statusAddr then plainAnswer else { plainAnswer with bytes := remembered c.cat addr n, cat := c.cat }
  | .ok (.regWrite addr p) =>
    { plainAnswer with cat := (addr, p) :: c.cat.filter (fun e => !(e.1 = addr && e.2.length = p.length)) }
  | .ok .reset => { plainAnswer with pick := testPick cfg }
  | _ => plainAnswer

end Sys2Proof.Machine
end

