-- ==== Sys2Proof/Machine/Fetch.lean ====
section
/-! DEFINITION. What the machine takes next: the operation in progress, or the next input of the outside world (R11,
R26, R174, R209, R215). -/

namespace Sys2Proof.Machine

/-- An instruction word taken from the inbox and run: decoded, or rejected by name. -/
def runWord (w : InstrWord) (s : State) : Result :=
  match decode w with
  | .ok i => exec i s
  | .error why => .refused (.undecodable why)

/-- From IDLE the next input is taken, if there is one (R26: "the block is idle and waits for the host's first operation"). -/
def takeInput (s : State) : Result :=
  match s.inbox with
  | [] => .next s
  | .instr w :: rest => runWord w { s with inbox := rest }
  | .radio acts :: rest => .next { s with inbox := rest, chip := radioActs s.cfg acts s.chip }
  | .blockReset :: rest => .next (resetBlock { s with inbox := rest })

/-- Whether the next input is a reset of the block. -/
def resetWaits (s : State) : Bool :=
  match s.inbox with
  | .blockReset :: _ => true
  | _ => false

/-- During an operation no request is taken (R11); a reset of the block is not defined (R215); the operation goes on. -/
def goOn (s : State) : Result :=
  if resetWaits s then .refused .resetDuringOperation else resume s

/-- One step of the machine. -/
def nextStep (s : State) : Result :=
  if s.seq = .idle then takeInput s else goOn s

/-- The state in which the next step takes the given instruction word: it stands first in the inbox, the block is idle, and
the far end has three plain answers after those it already has (an operation issues at most three transactions; log 10). -/
def placeWord (w : InstrWord) (s : State) : State :=
  { s with seq := .idle, inbox := .instr w :: s.inbox, answers := s.answers ++ [plainAnswer, plainAnswer, plainAnswer] }

end Sys2Proof.Machine
end

