-- ==== Sys2Proof/Machine/Step.lean ====
section
/-! DEFINITION. The step function: the three outcomes (next, fault, refusal). -/

namespace Sys2Proof.Machine

/-- One step. -/
def step (s : State) : Host.Outcome State Fault Refusal := nextStep s

/-- The state whose next step runs the instruction with the given bits, numbered as the opcode table numbers them (log 10). -/
def State.withFetchWord (s : State) (nbits w : Nat) : State := placeWord (tableWord nbits w) s

end Sys2Proof.Machine
end

