-- ==== Sys2Proof/Safety.lean ====
section
/-! DEFINITION. What counts as a safe run: the invariant that every step keeps, the form of what the block has put on the
bus, and the end of an operation and of a run (R209). -/

namespace Sys2Proof.Machine

/-- A legal chip state (R161): pointers in 0 .. FIFO_DEPTH, buffers in canonical form and inside FIFO_DEPTH. -/
def ChipOk (depth : Nat) (c : Chip) : Prop :=
  c.rdPtr ≤ depth ∧ c.wrPtr ≤ depth ∧ Memory.wf c.rxfifo ∧ Memory.wf c.txfifo ∧ Memory.within depth c.rxfifo
    ∧ Memory.within depth c.txfifo

/-- A register address with bits 7 and 6 zero (R31). -/
def LegalAddr (a : Byte) : Prop := a &&& 0xC0 = 0

/-- The two-phase frame of RDREG<n> (R53, R105). -/
def ReadForm (n : Nat) (ops : List Op) : Prop := ∃ a, LegalAddr a ∧ ops = [.write [readByte0 a], .read n]

/-- The two-phase frame of WRREG<n> (R52, R109). -/
def WriteForm (n : Nat) (ops : List Op) : Prop :=
  ∃ a p, LegalAddr a ∧ p.length = n ∧ ops = [.write [a], .write p]

/-- The frames of RX (R145). -/
def RxForm (cfg : Params) (ops : List Op) : Prop :=
  ops = [.write [readByte0 (cfg.statusAddr.setWidth 8)], .read 1] ∨ ops = [.write [0xF0]]
    ∨ ∃ len, ops = [.write [0x45], .read len]

/-- The frames of TX (R147). -/
def TxForm (ops : List Op) : Prop := ops = [.write [0xE0]] ∨ ∃ buf, ops = [.write [0x05], .write buf]

/-- The op list an operation may issue, by its request code: the shapes of R90 with the bytes the operation's rule fixes
(R52 to R57, R132). -/
def IssuedForm (cfg : Params) (hop : Byte) (ops : List Op) : Prop :=
  (hop = 0x20 ∧ ops ≠ []) ∨ (hop = 0x21 ∧ ∃ b, b ≠ [] ∧ ops = [.write b])
    ∨ (hop = 0x31 ∧ ReadForm 1 ops) ∨ (hop = 0x32 ∧ ReadForm 2 ops) ∨ (hop = 0x34 ∧ ReadForm 4 ops)
    ∨ (hop = 0x41 ∧ WriteForm 1 ops) ∨ (hop = 0x42 ∧ WriteForm 2 ops) ∨ (hop = 0x44 ∧ WriteForm 4 ops)
    ∨ (hop = 0x50 ∧ ops = [.write [0x80]]) ∨ (hop = 0x51 ∧ ops = [.write [0x90]])
    ∨ (hop = 0x52 ∧ ops = [.write [0xA0]]) ∨ (hop = 0x53 ∧ ops = [.write [0xB0]])
    ∨ (hop = 0x54 ∧ ops = [.write [0xC0]]) ∨ (hop = 0x55 ∧ ops = [.write [0xD0]])
    ∨ (hop = 0x60 ∧ ops = [.write [0x00, 0x00]]) ∨ (hop = 0x61 ∧ ops = [.write [0xF0]])
    ∨ (hop = 0x62 ∧ ops = [.write [0xE0]])
    ∨ (hop = 0x70 ∧ RxForm cfg ops) ∨ (hop = 0x71 ∧ TxForm ops)

/-- Every entry of H is of a form its operation may issue. -/
def HistOk (s : State) : Prop := ∀ e ∈ s.hist, IssuedForm s.cfg e.by_ e.ops

/-- WID fits the request code of a register access (R12, R34). -/
def WidthOf (hop : Byte) (wid : BitVec 3) : Prop :=
  ((hop = 0x31 ∨ hop = 0x41) ∧ wid = 1) ∨ ((hop = 0x32 ∨ hop = 0x42) ∧ wid = 2) ∨ ((hop = 0x34 ∨ hop = 0x44) ∧ wid = 4)

/-- MODE or CMD fits the request code of a strobe (R62). -/
def StrobeOf (r : Regs) : Prop :=
  (r.opr = 0x50 ∧ r.mode = .sleep) ∨ (r.opr = 0x51 ∧ r.mode = .idle) ∨ (r.opr = 0x52 ∧ r.mode = .standby)
    ∨ (r.opr = 0x53 ∧ r.mode = .pll) ∨ (r.opr = 0x54 ∧ r.mode = .rx) ∨ (r.opr = 0x55 ∧ r.mode = .tx)
    ∨ (r.opr = 0x60 ∧ r.cmd = .reset) ∨ (r.opr = 0x61 ∧ r.cmd = .rstRd) ∨ (r.opr = 0x62 ∧ r.cmd = .rstWr)

/-- The operand registers that a position of SEQ reads are those the operation in progress has written (R13, R15). -/
def InProgressOk (s : State) : Prop :=
  match s.seq with
  | .idle => True
  | .marshal => False
  | .rxStatus | .rxCheck | .rxPtr | .rxData => s.regs.opr = 0x70
  | .txPtr | .txData => s.regs.opr = 0x71
  | .regXfer => WidthOf s.regs.opr s.regs.wid ∧ LegalAddr s.regs.addr
  | .strobe => StrobeOf s.regs
  | .xact => (s.regs.opr = 0x20 ∧ s.regs.ops ≠ []) ∨ (s.regs.opr = 0x21 ∧ ∃ b, b ≠ [] ∧ s.regs.ops = [.write b])

/-- The invariant of the machine. -/
def Inv (s : State) : Prop :=
  paramsWf s.cfg = true ∧ s.busOwn = true ∧ ChipOk s.cfg.fifoDepth s.chip ∧ HistOk s ∧ InProgressOk s

/-- No operation is in progress (R14, R209). -/
def State.complete (s : State) : Bool := s.seq = .idle

/-- An operation the host still asks for. -/
def Input.isInstr : Input → Bool
  | .instr _ => true
  | .radio _ | .blockReset => false

/-- A run is over when its last operation is complete (R209): none in progress and none left to issue. It says nothing of the
radio. -/
def State.runOver (s : State) : Bool := s.seq = .idle && !s.inbox.any Input.isInstr

/-- At most `n` more steps, none after the operation has ended. -/
def runOn : Nat → Result → Result
  | n + 1, .next s => if s.seq = .idle then .next s else runOn n (step s)
  | _, r => r

/-- A whole operation (R15): its first step and the rest of its positions, three at most, as far as the far end's answers
last. -/
def runWhole (i : Instr) (s : State) : Result := runOn 3 (exec i s)

/-- A step is safe when it stops with no fault. -/
def SafeStep (s : State) : Prop := ∀ f, step s ≠ .fault f

end Sys2Proof.Machine
end

