-- ==== Sys2Proof/Certificates/Slice0/Obligations.lean ====
section
/-! DEFINITION. The statements for the provers. `Sys2Proof.Spec` holds the words they share.
The operand registers and flags of an ended operation are free values (R13, R16, log 6), so no statement says anything of
them; all other fields of the state are said. -/

namespace Sys2Proof.Spec

open Sys2Proof.Machine

/-! ### Shared words -/

/-- An operation that has ended leaves the block idle and the parameters, the bus and the inbox as they were. -/
def Ended (s t : State) : Prop := t.seq = .idle ∧ t.cfg = s.cfg ∧ t.busOwn = s.busOwn ∧ t.inbox = s.inbox

/-- An operation that returned `d` and touched nothing else: no transaction, no chip, no history, no buffer. -/
def PureResult (s t : State) (d : Data) : Prop :=
  Ended s t ∧ t.res = .ok d ∧ t.callerBuf = s.callerBuf ∧ t.chip = s.chip ∧ t.hist = s.hist ∧ t.answers = s.answers

/-- An operation that put one frame on the bus: one answer taken, one entry in H, the chip as given, the buffer kept. -/
def OneFrame (s t : State) (rest : List Answer) (hop : Byte) (ops : List Op) (o : BusOutcome) (c : Chip) : Prop :=
  Ended s t ∧ t.answers = rest ∧ t.hist = s.hist ++ [{ ops := ops, outcome := o, by_ := hop }] ∧ t.chip = c
    ∧ t.callerBuf = s.callerBuf

/-- The request code of an operation (R62). -/
def Coded (i : Instr) (hop : Byte) : Prop := ∃ ws, encode i = .request hop ws

/-- RES of an operation that returns nothing, by the outcome of its one transaction (R116, R121, R128). -/
def resUnit : BusOutcome → Res
  | .ok _ => .ok .unit
  | .err e => .transportErr e

/-- The chip when the transaction that takes the answer begins: the radio has acted (R174). -/
def chipAt (s : State) (a : Answer) : Chip := radioActs s.cfg a.radio s.chip

/-- The effect of a mode strobe in R163's words. -/
def strobed (m : Mode) (c : Chip) : Chip :=
  if (m = .rx ∨ m = .tx) ∧ ¬(c.mode = .rx ∨ c.mode = .tx) then { c with mode := m, prior := c.mode } else { c with mode := m }

/-- A mode with its SETMODE, its STROBE row, its byte and its request code (R54, R62). -/
structure ModeRow where
  mode    : Mode
  setmode : Instr
  strobe  : Instr
  byte    : Byte
  hop     : Byte

/-- The six modes. -/
def modeRows : List ModeRow :=
  [⟨.sleep, .setmodeSleep, .strobeSleep, 0x80, 0x50⟩, ⟨.idle, .setmodeIdle, .strobeIdle, 0x90, 0x51⟩,
   ⟨.standby, .setmodeStandby, .strobeStandby, 0xA0, 0x52⟩, ⟨.pll, .setmodePll, .strobePll, 0xB0, 0x53⟩,
   ⟨.rx, .setmodeRx, .strobeRx, 0xC0, 0x54⟩, ⟨.tx, .setmodeTx, .strobeTx, 0xD0, 0x55⟩]

/-- The next input is no reset of the block (R215 does not define one during an operation). -/
def NoReset (s : State) : Prop := ∀ rest, s.inbox ≠ .blockReset :: rest

/-- An operation that sends one single-phase frame and returns nothing, whatever the far end answers; and, where the far end
is the reference responder, the chip's state after the frame when it goes through (`whole`) and when it fails after the
chip has received `k` bytes of it (`broken k`). -/
def SendsOneFrame (i : Instr) (hop : Byte) (bytes : List Byte) (whole : Params → Answer → Chip → Chip)
    (broken : Nat → Params → Answer → Chip → Chip) : Prop :=
  ∀ (s : State) (a : Answer) (rest : List Answer), s.seq = .idle → s.answers = a :: rest →
    (∀ o c, chipTransact s.cfg a [.write bytes] s.chip = .ok (o, c) → ∃ t, exec i s = .next t
        ∧ OneFrame s t rest hop [.write bytes] o c ∧ t.res = resUnit o)
    ∧ (s.cfg.responder = .reference → a.fault = none → ∃ t, exec i s = .next t
        ∧ OneFrame s t rest hop [.write bytes] (.ok []) (whole s.cfg a (chipAt s a)) ∧ t.res = .ok .unit)
    ∧ (s.cfg.responder = .reference → ∀ e k, a.fault = some (e, k) → ∃ t, exec i s = .next t
        ∧ OneFrame s t rest hop [.write bytes] (.err (errorOf s.cfg e)) (broken k s.cfg a (chipAt s a))
        ∧ t.res = .transportErr (errorOf s.cfg e))

/-- The same, for a strobe whose effect on the chip is `f`: of a broken-off strobe either nothing arrived, or all. -/
def SendsStrobe (i : Instr) (hop : Byte) (byte : Byte) (f : Chip → Chip) : Prop :=
  SendsOneFrame i hop [byte] (fun _ _ c => f c) (fun k _ _ c => if k = 0 then c else f c)

/-- The same, for the Reset frame: a broken-off Reset of one byte is an incomplete catalog write (the model's reading of
R102, log 17). -/
def SendsReset (i : Instr) (hop : Byte) : Prop :=
  SendsOneFrame i hop [0x00, 0x00] (fun cfg a _ => resetChip cfg a.pick a.chip)
    (fun k cfg a c => if k = 0 then c else if k = 1 then { c with cat := a.cat } else resetChip cfg a.pick a.chip)

/-- The bytes a FIFO memory holds from an index on. -/
def fifoBytes (m : Memory) (at_ n : Nat) : List Byte := (List.range n).map fun i => m.read (at_ + i)

/-- The transmit buffer after the bytes are stored from an index on, byte by byte: theirs inside the range, the old ones
outside. -/
def StoredIn (old new : Memory) (at_ : Nat) (p : List Byte) : Prop :=
  ∀ i, new.read i = if at_ ≤ i ∧ i < at_ + p.length then p.getD (i - at_) 0 else old.read i

/-- RDREG by its width. -/
def rdreg : Nat → Descriptor → Instr
  | 1, d => .rdreg1 d
  | 2, d => .rdreg2 d
  | _, d => .rdreg4 d

/-- WRREG by its width. -/
def wrreg : Nat → Descriptor → TypedValue → Instr
  | 1, d, v => .wrreg1 d v
  | 2, d, v => .wrreg2 d v
  | _, d, v => .wrreg4 d v

/-- A descriptor that an access of width `n` may use: the facet, the width, an address in 0x00 .. 0x3F, fields inside the
register that do not overlap (R78, R84, R85, R31). -/
def Usable (facet : Bool) (n : Nat) (d : Descriptor) : Prop :=
  facet = true ∧ d.width = n ∧ d.addr.getLsbD 7 = false ∧ d.addr.getLsbD 6 = false ∧ fieldsWf n d.rfields = true
    ∧ fieldsWf n d.wfields = true

/-- The integer of a typed value: the OR of each field's value, cut to the field's width, at the field's place (R78, R80). -/
def placed (fields : List Field) (val : TypedValue) : Nat :=
  fields.foldr (fun f acc => ((fieldValue val f.name % 2 ^ f.w) <<< f.lo) ||| acc) 0

/-- The typed value of an integer: each field's bits (R78, R81). -/
def fieldsOf (fields : List Field) (u : Nat) : TypedValue := fields.map fun f => (f.name, u / 2 ^ f.lo % 2 ^ f.w)

/-- Bit `i` belongs to a field of the list. -/
def InField (fields : List Field) (i : Nat) : Prop := ∃ f ∈ fields, f.lo ≤ i ∧ i < f.lo + f.w

/-- The status read of RX (R141). -/
def statusOps (s : State) : List Op := [.write [s.cfg.statusAddr.setWidth 8 ||| 0x40], .read 1]

/-- The numbers of bytes a transaction asks for, one for each Read op, in op order (R90). -/
def asked : List Op → List Nat
  | [] => []
  | .write _ :: t => asked t
  | .read n :: t => n :: asked t

/-- An outcome that an op list may have (R90, R96): one buffer for each Read op, of the length asked for; or an error of TE. -/
def LegalOutcome (cfg : Params) (ops : List Op) : BusOutcome → Prop
  | .ok reads => reads.map List.length = asked ops
  | .err e => ∀ n, cfg.te = some n → e.code ≤ n

/-- One row pair of R151: the position issues `ops`; whatever the answer, one entry in H and one answer taken; on a failure
IDLE with that TransportError; otherwise what the row says. -/
def PositionRow (s : State) (ops : List Op) (row : List (List Byte) → State → Prop) : Prop :=
  ∀ (a : Answer) (rest : List Answer) (o : BusOutcome) (c : Chip), s.answers = a :: rest →
    chipTransact s.cfg a ops s.chip = .ok (o, c) →
    ∃ t, step s = .next t ∧ t.answers = rest ∧ t.hist = s.hist ++ [{ ops := ops, outcome := o, by_ := s.regs.opr }]
      ∧ t.chip = c ∧ t.cfg = s.cfg ∧ t.busOwn = s.busOwn ∧ t.inbox = s.inbox
      ∧ (∀ e, o = .err e → t.seq = .idle ∧ t.res = .transportErr e) ∧ (∀ reads, o = .ok reads → row reads t)

/-- A catalog write's frame, and a read's (R52, R53). -/
def writeOps (addr : BitVec 6) (p : List Byte) : List Op := [.write [addr.setWidth 8], .write p]
def readOps (addr : BitVec 6) (n : Nat) : List Op := [.write [addr.setWidth 8 ||| 0x40], .read n]

/-- A transaction under the test responder (R178). -/
def testTransact (cfg : Params) (ops : List Op) (c : Chip) : Except Refusal (BusOutcome × Chip) :=
  chipTransact cfg (testAnswer cfg ops c) ops c

/-- The chip state that the test responder's Reset sets (R178). -/
def afterTestReset : Chip :=
  { mode := .standby, prior := .standby, rdPtr := 0, wrPtr := 0, rxfifo := [], txfifo := [], fecPass := true, crcPass := true,
    cat := [] }

/-- Catalog writes put to the test responder, one after another; none if one does not go through. -/
def afterWrites (cfg : Params) : List (BitVec 6 × List Byte) → Chip → Option Chip
  | [], c => some c
  | (addr, p) :: t, c =>
    match testTransact cfg (writeOps addr p) c with
    | .ok (.ok _, c') => afterWrites cfg t c'
    | _ => none

/-- What the last of the writes to the address with that length wrote; `n` zero bytes if there is none (R178). -/
def lastWritten (ws : List (BitVec 6 × List Byte)) (addr : BitVec 6) (n : Nat) : List Byte :=
  ((ws.reverse.find? (fun w => w.1 = addr && w.2.length = n)).map Prod.snd).getD (List.replicate n 0)

/-- The operations that issue a transaction first, with the position they issue it at (R15). -/
def firstSeq : Instr → Seq
  | .enc1 _ | .enc2 _ | .enc4 _ | .dec1 _ | .dec2 _ | .dec4 _ | .fins _ _ _ _ _ | .fext _ _ _ _ => .marshal
  | .transact _ | .bwrite _ | .frameRegwrite _ _ | .frameRegread _ _ | .frameTxfifo _ | .frameRxfifo _ | .frameReset
  | .strobeSleep | .strobeIdle | .strobeStandby | .strobePll | .strobeRx | .strobeTx | .strobeRstwr | .strobeRstrd => .xact
  | .rdreg1 _ | .rdreg2 _ | .rdreg4 _ | .wrreg1 _ _ | .wrreg2 _ _ | .wrreg4 _ _ => .regXfer
  | .setmodeSleep | .setmodeIdle | .setmodeStandby | .setmodePll | .setmodeRx | .setmodeTx | .cmdReset | .cmdRstrd
  | .cmdRstwr => .strobe
  | .rx _ => .rxStatus
  | .tx _ => .txPtr

end Sys2Proof.Spec

section

open Sys2Proof Sys2Proof.Machine Sys2Proof.Spec

/-! ### Encoding -/

/-- Words written out from 30_encoding.md decode to what they stand for; unlisted ones are rejected by name. The operand
words of the requests follow the model's own layout (DESIGN CHOICE, log 9). -/
def Obligations.WordsOfTheTablesDecode : Prop :=
  decode (.request 0x01 [0xA5]) = .ok (.enc1 0xA5)
  ∧ decode (.request 0x12 [0x34, 0x12]) = .ok (.dec2 [0x34, 0x12])
  ∧ decode (.request 0x54 []) = .ok .setmodeRx
  ∧ decode (.request 0x61 []) = .ok .cmdRstrd
  ∧ decode (.request 0x70 [4]) = .ok (.rx 4)
  ∧ decode (.request 0x03 []) = .error (.requestUnknown 0x03)
  ∧ decode (.frame { out := [0xC0], rd := 0 }) = .ok .strobeRx
  ∧ decode (.frame { out := [0x00, 0x00], rd := 0 }) = .ok .frameReset
  ∧ decode (.frame { out := [0x45], rd := 2 }) = .ok (.frameRxfifo 2)
  ∧ decode (.frame { out := [0x05, 0xDE, 0xAD], rd := 0 }) = .ok (.frameTxfifo [0xDE, 0xAD])
  ∧ decode (.frame { out := [0x61], rd := 1 }) = .ok (.frameRegread 0x21 1)
  ∧ decode (.frame { out := [0x21, 0x5A], rd := 0 }) = .ok (.frameRegwrite 0x21 [0x5A])
  ∧ decode (.frame { out := [0xC1], rd := 0 }) = .error (.frameUnknown .strobeLowNibble)

/-- What a step from IDLE does. The next input is an instruction word: it runs the decoded instruction, the word taken from
the inbox, and a word that decodes to nothing is refused under its name. It is a step of the radio (R174): the chip as the
radio leaves it and nothing else. There is no input: nothing (R26). -/
def Obligations.StepRunsTheDecodedInstruction : Prop :=
  ∀ s : State, s.seq = .idle →
    (∀ w rest, s.inbox = .instr w :: rest →
      (∀ i, decode w = .ok i → step s = exec i { s with inbox := rest })
      ∧ (∀ why, decode w = .error why → step s = .refused (.undecodable why)))
    ∧ (∀ acts rest, s.inbox = .radio acts :: rest →
      step s = .next { s with inbox := rest, chip := radioActs s.cfg acts s.chip })
    ∧ (s.inbox = [] → step s = .next s)

/-- No bit of an encoding is dropped: decoding the encoding of a well-formed instruction gives it back. -/
def Obligations.DecodeOfEncodeIsTheInstruction : Prop := ∀ i : Instr, i.wf = true → decode (encode i) = .ok i

/-- A frame has one meaning (R61): what a frame decodes to is encoded as that very frame. -/
def Obligations.FrameHasOneMeaning : Prop :=
  ∀ (f : Frame) (op : FrameOp), decodeFrame f = .ok op → encodeFrame op = f

/-- R134: MODE_BYTE is injective, its image is six bytes, its formula, and its inverse with its domain. -/
def Obligations.ModeByteFormulaAndInverse : Prop :=
  (modeIndex .sleep = 0 ∧ modeIndex .idle = 1 ∧ modeIndex .standby = 2 ∧ modeIndex .pll = 3 ∧ modeIndex .rx = 4 ∧ modeIndex .tx = 5)
  ∧ (∀ m, modeByte m = BitVec.ofNat 8 ((8 + modeIndex m) <<< 4))
  ∧ (∀ m m', modeByte m = modeByte m' → m = m')
  ∧ (∀ b, (∃ m, modeByte m = b) ↔ b ∈ ([0x80, 0x90, 0xA0, 0xB0, 0xC0, 0xD0] : List Byte))
  ∧ (∀ b m, modeOf b = some m ↔ b.getLsbD 7 = true ∧ modeIndex m = ((b >>> 4) &&& 7).toNat ∧ b &&& 0x0F = 0)
  ∧ (∀ b, (modeOf b).isSome = true ↔ b.getLsbD 7 = true ∧ ((b >>> 4) &&& 7).toNat ≤ 5 ∧ b &&& 0x0F = 0)

/-! ### Marshalling -/

/-- R77: ENC_N and DEC_N, generic in N, are the byte slices and the shifted sum. -/
def Obligations.IntegerLayerIsGenericInN : Prop :=
  (∀ n u, encN n u = (List.range n).map fun i => BitVec.ofNat 8 ((u >>> (8 * i)) &&& 0xFF))
  ∧ (∀ b : List Byte, decN b = ((List.range b.length).map fun i => (b.getD i 0).toNat <<< (8 * i)).sum)

/-- R83: the round trips of the integer layer (a, b, c), their injectivity, and of the register layer (d, e). -/
def Obligations.MarshallingRoundTrips : Prop :=
  (∀ n u, legalWidth n = true → u < 2 ^ (8 * n) → decN (encN n u) = u)
  ∧ (∀ b : List Byte, legalWidth b.length = true → encN b.length (decN b) = b)
  ∧ (∀ n u, (encN n u).length = n)
  ∧ (∀ n u u', u < 2 ^ (8 * n) → u' < 2 ^ (8 * n) → encN n u = encN n u' → u = u')
  ∧ (∀ b b' : List Byte, b.length = b'.length → decN b = decN b' → b = b')
  ∧ (∀ (n : Nat) (d : Descriptor) (val : TypedValue), legalWidth n = true → fieldsWf n d.wfields = true →
      d.rfields = d.wfields → d.readable = true → d.writable = true →
      fromUint d.rfields (toUint n d.wfields val) = d.rfields.map fun f => (f.name, fieldValue val f.name % 2 ^ f.w))
  ∧ (∀ (n u : Nat) (fs : List Field), legalWidth n = true → fieldsWf n fs = true → u < 2 ^ (8 * n) →
      toUint n fs (fromUint fs u) = u &&& fieldMask fs)

/-- R82: a bit that belongs to no writable field is 0 in TOUINT; a bit that belongs to no readable field has no influence on
FROMUINT. -/
def Obligations.ReservedBitsAreZeroOutAndIgnoredIn : Prop :=
  (∀ (n : Nat) (fs : List Field) (val : TypedValue) (i : Nat), fieldsWf n fs = true → ¬ InField fs i →
      (toUint n fs val).testBit i = false)
  ∧ (∀ (fs : List Field) (u u' : Nat), (∀ i, InField fs i → u.testBit i = u'.testBit i) → fromUint fs u = fromUint fs u')

/-- R71 to R73: ENC1, ENC2, ENC4 return the bytes of the integer, least significant first. -/
def Obligations.EncReturnsLittleEndianBytes : Prop :=
  (∀ u s, s.seq = .idle → Coded (.enc1 u) 0x01
    ∧ ∃ t, exec (.enc1 u) s = .next t ∧ PureResult s t (.bytes [u]))
  ∧ (∀ u s, s.seq = .idle → Coded (.enc2 u) 0x02
    ∧ ∃ t, exec (.enc2 u) s = .next t ∧ PureResult s t (.bytes [u.extractLsb' 0 8, u.extractLsb' 8 8]))
  ∧ (∀ u s, s.seq = .idle → Coded (.enc4 u) 0x04
    ∧ ∃ t, exec (.enc4 u) s = .next t ∧ PureResult s t (.bytes
        [u.extractLsb' 0 8, u.extractLsb' 8 8, u.extractLsb' 16 8, u.extractLsb' 24 8]))

/-- R74 to R76: DEC1, DEC2, DEC4 return the unsigned integer of the bytes, first byte least significant. -/
def Obligations.DecReturnsTheUnsignedInteger : Prop :=
  (∀ (b : Byte) (s : State), s.seq = .idle → Coded (.dec1 [b]) 0x11
    ∧ ∃ t, exec (.dec1 [b]) s = .next t ∧ PureResult s t (.uint b.toNat))
  ∧ (∀ (b0 b1 : Byte) (s : State), s.seq = .idle → Coded (.dec2 [b0, b1]) 0x12
    ∧ ∃ t, exec (.dec2 [b0, b1]) s = .next t ∧ PureResult s t (.uint (b0.toNat ||| (b1.toNat <<< 8))))
  ∧ (∀ (b0 b1 b2 b3 : Byte) (s : State), s.seq = .idle → Coded (.dec4 [b0, b1, b2, b3]) 0x14
    ∧ ∃ t, exec (.dec4 [b0, b1, b2, b3]) s = .next t
      ∧ PureResult s t (.uint (b0.toNat ||| (b1.toNat <<< 8) ||| (b2.toNat <<< 16) ||| (b3.toNat <<< 24))))

/-- R80: FINS returns the container with exactly the field's bits replaced, by the low bits of `v`; FINS works on a container
of `n` bytes. -/
def Obligations.FinsReplacesExactlyTheField : Prop :=
  ∀ (n c lo w v : Nat) (s : State), legalWidth n = true → c < 2 ^ (8 * n) → 1 ≤ w → lo + w ≤ 8 * n → s.seq = .idle →
    Coded (.fins n c lo w v) 0x18
    ∧ ∃ t r, exec (.fins n c lo w v) s = .next t ∧ PureResult s t (.uint r) ∧ r < 2 ^ (8 * n)
      ∧ ∀ i, r.testBit i = if lo ≤ i ∧ i < lo + w then v.testBit (i - lo) else c.testBit i

/-- R81: FEXT returns the field's bits, below 2^w. -/
def Obligations.FextReturnsTheFieldMasked : Prop :=
  ∀ (n c lo w : Nat) (s : State), legalWidth n = true → c < 2 ^ (8 * n) → 1 ≤ w → lo + w ≤ 8 * n → s.seq = .idle →
    Coded (.fext n c lo w) 0x19
    ∧ ∃ t, exec (.fext n c lo w) s = .next t ∧ PureResult s t (.uint (c / 2 ^ lo % 2 ^ w)) ∧ c / 2 ^ lo % 2 ^ w < 2 ^ w

/-- R79: MASK(w) is 2^w - 1, the `w` low bits set. -/
def Obligations.MaskIsTheLowBits : Prop :=
  (∀ w, mask w = 2 ^ w - 1) ∧ (∀ w i, (mask w).testBit i = true ↔ i < w)
  ∧ mask 0 = 0 ∧ mask 1 = 1 ∧ mask 3 = 7 ∧ mask 8 = 0xFF ∧ mask 16 = 0xFFFF ∧ mask 32 = 0xFFFFFFFF

/-- A DEC handed a list of another length is refused: no result, no state change (R85). -/
def Obligations.DecOfAnotherLengthIsRefused : Prop :=
  ∀ (b : List Byte) (s : State),
    (b.length ≠ 1 → exec (.dec1 b) s = .refused (.operands .lengthWrong))
    ∧ (b.length ≠ 2 → exec (.dec2 b) s = .refused (.operands .lengthWrong))
    ∧ (b.length ≠ 4 → exec (.dec4 b) s = .refused (.operands .lengthWrong))

/-! ### Bus transactions and register access -/

/-- R91: TRANSACT asks the responder once, appends one entry to H, and returns the reads or raises the failure unchanged. -/
def Obligations.TransactIsOneTransaction : Prop :=
  ∀ (ops : List Op) (s : State) (a : Answer) (rest : List Answer) (o : BusOutcome) (c : Chip), ops ≠ [] → s.seq = .idle →
    s.answers = a :: rest → chipTransact s.cfg a ops s.chip = .ok (o, c) → Coded (.transact ops) 0x20
    ∧ ∃ t, exec (.transact ops) s = .next t ∧ OneFrame s t rest 0x20 ops o c
      ∧ (∀ reads, o = .ok reads → t.res = .ok (.reads reads)) ∧ (∀ e, o = .err e → t.res = .transportErr e)

/-- R95: BWRITE is a transaction of one Write op of exactly these bytes; it returns nothing. -/
def Obligations.BwriteIsOneSinglePhaseTransaction : Prop :=
  ∀ (b : List Byte) (s : State) (a : Answer) (rest : List Answer) (o : BusOutcome) (c : Chip), b ≠ [] → s.seq = .idle →
    s.answers = a :: rest → chipTransact s.cfg a [.write b] s.chip = .ok (o, c) → Coded (.bwrite b) 0x21
    ∧ ∃ t, exec (.bwrite b) s = .next t ∧ OneFrame s t rest 0x21 [.write b] o c ∧ t.res = resUnit o

/-- R94: the chip cannot see op boundaries: two op lists with one flattened frame come to the same at the far end, whether the
transaction goes through or breaks off after any number of bytes: the same next chip state, the same failure, and the same bytes
read, in the same order, however they are cut into buffers. -/
def Obligations.ChipSeesNoOpBoundaries : Prop :=
  (∀ (x : Byte) (p : List Byte), flatten [.write [x], .write p] = flatten [.write (x :: p)])
  ∧ ∀ (cfg : Params) (a : Answer) (ops ops' : List Op) (f : Frame) (c c1 : Chip) (o : BusOutcome), flatten ops = some f →
    flatten ops' = some f → chipTransact cfg a ops c = .ok (o, c1) →
    ∃ o', chipTransact cfg a ops' c = .ok (o', c1) ∧ (∀ e, o = .err e ↔ o' = .err e)
      ∧ (∀ r, o = .ok r → ∃ r', o' = .ok r' ∧ r.flatten = r'.flatten)

/-- R105 to R108: RDREG<N> sends the address with the read flag, reads N bytes in one transaction, and returns the readable
fields of their little-endian integer; a failed transaction is forwarded and no value is returned. -/
def Obligations.RdregReadsAndDecodes : Prop :=
  ∀ (n : Nat) (hop : Byte), (n = 1 ∧ hop = 0x31) ∨ (n = 2 ∧ hop = 0x32) ∨ (n = 4 ∧ hop = 0x34) →
  ∀ (d : Descriptor) (s : State) (a : Answer) (rest : List Answer) (o : BusOutcome) (c : Chip), Usable d.readable n d →
    s.seq = .idle → s.answers = a :: rest →
    chipTransact s.cfg a [.write [d.addr ||| 0x40], .read n] s.chip = .ok (o, c) → Coded (rdreg n d) hop
    ∧ ∃ t, exec (rdreg n d) s = .next t ∧ OneFrame s t rest hop [.write [d.addr ||| 0x40], .read n] o c
      ∧ ((∃ e, o = .err e ∧ t.res = .transportErr e)
        ∨ ∃ bs : List Byte, bs.length = n ∧ o = .ok [bs]
          ∧ t.res = .ok (.typed (fieldsOf d.rfields ((List.range n).map fun i => (bs.getD i 0).toNat <<< (8 * i)).sum)))

/-- R109 to R112: WRREG<N> sends the address and the N bytes of the typed value's integer, least significant first, in one
transaction; a failed transaction is forwarded. -/
def Obligations.WrregEncodesAndWrites : Prop :=
  ∀ (n : Nat) (hop : Byte), (n = 1 ∧ hop = 0x41) ∨ (n = 2 ∧ hop = 0x42) ∨ (n = 4 ∧ hop = 0x44) →
  ∀ (d : Descriptor) (val : TypedValue) (s : State) (a : Answer) (rest : List Answer) (o : BusOutcome) (c : Chip)
    (ops : List Op), Usable d.writable n d → (∀ f ∈ d.wfields, ∃ v, (f.name, v) ∈ val) → s.seq = .idle →
    s.answers = a :: rest →
    ops = [.write [d.addr], .write ((List.range n).map fun i => BitVec.ofNat 8 (placed d.wfields val >>> (8 * i)))] →
    chipTransact s.cfg a ops s.chip = .ok (o, c) → Coded (wrreg n d val) hop
    ∧ ∃ t, exec (wrreg n d val) s = .next t ∧ OneFrame s t rest hop ops o c ∧ t.res = resUnit o

/-- A register access completes whenever the far end, the reference responder, reports no failure and the length is one the
register may have: RDREG returns a typed value of N bytes that the far end draws (of a catalog register any bytes, R170),
WRREG returns nothing. (Address 0x05 is the FIFO port, where the pointer's room decides, R176.) -/
def Obligations.RegisterAccessCompletes : Prop :=
  ∀ (n : Nat), n = 1 ∨ n = 2 ∨ n = 4 → ∀ (d : Descriptor) (s : State) (a : Answer) (rest : List Answer), s.seq = .idle →
    s.cfg.responder = .reference → s.answers = a :: rest → a.fault = none → d.addr ≠ 0x05 →
    (Usable d.readable n d → lengthFits s.cfg true (d.addr.setWidth 6) n = true →
      (d.addr.setWidth 6 = s.cfg.statusAddr → n = 1) →
      ∃ t bs, exec (rdreg n d) s = .next t ∧ t.seq = .idle ∧ bs.length = n
        ∧ (d.addr.setWidth 6 ≠ s.cfg.statusAddr → a.bytes.length = n → bs = a.bytes)
        ∧ t.res = .ok (.typed (fieldsOf d.rfields ((List.range n).map fun i => (bs.getD i 0).toNat <<< (8 * i)).sum)))
    ∧ (∀ val : TypedValue, Usable d.writable n d → (∀ f ∈ d.wfields, ∃ v, (f.name, v) ∈ val) →
      lengthFits s.cfg false (d.addr.setWidth 6) n = true →
      ∃ t, exec (wrreg n d val) s = .next t ∧ t.seq = .idle ∧ t.res = .ok .unit)

/-- R114: an access to a register type that lacks the facet is refused. -/
def Obligations.AccessWithoutFacetIsRefused : Prop :=
  ∀ (d : Descriptor) (val : TypedValue) (s : State),
    (d.readable = false → ∀ n, exec (rdreg n d) s = .refused (.operands .facetMissing))
    ∧ (d.writable = false → ∀ n, exec (wrreg n d val) s = .refused (.operands .facetMissing))

/-- R115: an access whose address has bit 7 or bit 6 set, or whose descriptor's width is not the operation's, is refused; an
address from 0x00 to 0x3F is not checked any further. -/
def Obligations.AccessToIllegalAddressOrWidthIsRefused : Prop :=
  ∀ (d : Descriptor) (val : TypedValue) (s : State) (n : Nat), n = 1 ∨ n = 2 ∨ n = 4 →
    (d.addr.getLsbD 7 = true ∨ d.addr.getLsbD 6 = true ∨ d.width ≠ n →
      (∃ why, exec (rdreg n d) s = .refused (.operands why)) ∧ ∃ why, exec (wrreg n d val) s = .refused (.operands why))
    ∧ (Usable d.readable n d → ∀ why, exec (rdreg n d) s ≠ .refused (.operands why))
    ∧ (Usable d.writable n d → (∀ f ∈ d.wfields, ∃ v, (f.name, v) ∈ val) →
        ∀ why, exec (wrreg n d val) s ≠ .refused (.operands why))

/-! ### Modes and commands -/

/-- R122 to R127: SETMODE.x sends its strobe byte as one frame and returns nothing, or forwards the failure. The reference
chip's mode is then strobed (R163), and after a failed frame it is strobed exactly if the byte arrived (the model's reading
of R102, log 17). -/
def Obligations.SetmodeSendsItsStrobe : Prop :=
  ∀ r ∈ modeRows, Coded r.setmode r.hop ∧ SendsStrobe r.setmode r.hop r.byte (strobed r.mode)

/-- R129 to R131: CMD.RESET, CMD.RSTRD and CMD.RSTWR send their byte sequence as one frame and return nothing, or forward the
failure. At the reference responder RSTRD zeroes the read pointer, RSTWR the write pointer, and nothing else; RESET replaces the chip state by the
drawn member of CHIP_RESET. The block is not reset (R217). -/
def Obligations.CommandSendsItsBytes : Prop :=
  (Coded .cmdReset 0x60 ∧ SendsReset .cmdReset 0x60)
  ∧ (Coded .cmdRstrd 0x61 ∧ SendsStrobe .cmdRstrd 0x61 0xF0 (fun c => { c with rdPtr := 0 }))
  ∧ (Coded .cmdRstwr 0x62 ∧ SendsStrobe .cmdRstwr 0x62 0xE0 (fun c => { c with wrPtr := 0 }))

/-! ### Frames on their own (run as the block's own single-phase or two-phase transaction, log 11) -/

/-- The STROBE rows and FRAME.RESET: the frame goes out as one BWRITE (R54, R55, R56) and the chip does what R163 to R166
say. -/
def Obligations.StrobeRowsActOnTheChip : Prop :=
  (∀ r ∈ modeRows, SendsStrobe r.strobe 0x21 r.byte (strobed r.mode))
  ∧ SendsStrobe .strobeRstrd 0x21 0xF0 (fun c => { c with rdPtr := 0 })
  ∧ SendsStrobe .strobeRstwr 0x21 0xE0 (fun c => { c with wrPtr := 0 })
  ∧ SendsReset .frameReset 0x21

/-- R167: an RX buffer read returns the bytes from the read pointer on and moves the pointer past them; the buffer, the flags
and everything else of the chip stay. One that fails after `k` bytes of its frame has moved the pointer past the k - 1
bytes that came after byte 0, and done nothing else (the model's reading of R102, log 17). -/
def Obligations.RxFifoFrameReadsFromThePointer : Prop :=
  ∀ (n : Nat) (s : State) (a : Answer) (rest : List Answer) (c : Chip), s.seq = .idle → s.cfg.responder = .reference →
    s.answers = a :: rest → c = chipAt s a → c.rdPtr + n ≤ s.cfg.fifoDepth →
    (a.fault = none → ∃ t, exec (.frameRxfifo n) s = .next t
      ∧ OneFrame s t rest 0x20 [.write [0x45], .read n] (.ok [fifoBytes c.rxfifo c.rdPtr n]) { c with rdPtr := c.rdPtr + n }
      ∧ t.res = .ok (.reads [fifoBytes c.rxfifo c.rdPtr n]))
    ∧ (∀ e k, a.fault = some (e, k) → ∃ t, exec (.frameRxfifo n) s = .next t
      ∧ OneFrame s t rest 0x20 [.write [0x45], .read n] (.err (errorOf s.cfg e)) { c with rdPtr := c.rdPtr + min (k - 1) n }
      ∧ t.res = .transportErr (errorOf s.cfg e))

/-- R168: a TX buffer write stores the payload from the write pointer on and moves the pointer past it; every other byte of
the buffer and everything else of the chip stay. One that fails after `k` bytes of its frame has stored the k - 1 bytes that
came after byte 0, and done nothing else (the model's reading of R102, log 17). (The buffer is in its canonical form, an
invariant of the machine.) -/
def Obligations.TxFifoFrameStoresAtThePointer : Prop :=
  ∀ (p : List Byte) (s : State) (a : Answer) (rest : List Answer) (c : Chip), s.seq = .idle → s.cfg.responder = .reference →
    s.answers = a :: rest → c = chipAt s a → c.wrPtr + p.length ≤ s.cfg.fifoDepth → Memory.wf c.txfifo →
    (a.fault = none → ∃ t m, exec (.frameTxfifo p) s = .next t
      ∧ OneFrame s t rest 0x20 [.write [0x05], .write p] (.ok []) { c with txfifo := m, wrPtr := c.wrPtr + p.length }
      ∧ StoredIn c.txfifo m c.wrPtr p ∧ t.res = .ok (.reads []))
    ∧ (∀ e k, a.fault = some (e, k) → ∃ t m, exec (.frameTxfifo p) s = .next t
      ∧ OneFrame s t rest 0x20 [.write [0x05], .write p] (.err (errorOf s.cfg e))
          { c with txfifo := m, wrPtr := c.wrPtr + min (k - 1) p.length }
      ∧ StoredIn c.txfifo m c.wrPtr (p.take (k - 1)) ∧ t.res = .transportErr (errorOf s.cfg e))

/-- R170, R171: a catalog register's frame moves bytes the far end draws, any bytes of the length asked for, and may change
the catalog in any way; mode, pointers, buffers and flags stay. (`lengthFits`: the payload length is one the register may
have, R177, log 16.) At STATUS_ADDR the one byte read reports the flags and nothing changes (R169). A frame that fails after
`k` bytes may have changed the catalog, once its byte 0 arrived, and nothing else (the model's reading of R102, log 17), but
for a write whose two bytes that arrived are the Reset frame (R61). -/
def Obligations.RegisterFramesTouchOnlyTheCatalog : Prop :=
  ∀ (addr : BitVec 6) (s : State) (a : Answer) (rest : List Answer) (c : Chip), s.seq = .idle →
    s.cfg.responder = .reference → s.answers = a :: rest → c = chipAt s a → addr ≠ 0x05 →
    (∀ p : List Byte, ¬(addr = 0x00 ∧ p = [0x00]) → lengthFits s.cfg false addr p.length = true →
      (a.fault = none → ∃ t, exec (.frameRegwrite addr p) s = .next t
        ∧ OneFrame s t rest 0x20 (writeOps addr p) (.ok []) { c with cat := a.cat } ∧ t.res = .ok (.reads []))
      ∧ (∀ e k, a.fault = some (e, k) → ∃ t, exec (.frameRegwrite addr p) s = .next t
        ∧ OneFrame s t rest 0x20 (writeOps addr p) (.err (errorOf s.cfg e))
            (if k = 0 then c
             else if addr = 0x00 ∧ k = 2 ∧ p.head? = some 0x00 then resetChip s.cfg a.pick a.chip
             else { c with cat := a.cat })
        ∧ t.res = .transportErr (errorOf s.cfg e)))
    ∧ (∀ n : Nat, addr ≠ s.cfg.statusAddr → lengthFits s.cfg true addr n = true →
      (a.fault = none → ∃ t bs, exec (.frameRegread addr n) s = .next t ∧ bs.length = n ∧ (a.bytes.length = n → bs = a.bytes)
        ∧ OneFrame s t rest 0x20 (readOps addr n) (.ok [bs]) { c with cat := a.cat } ∧ t.res = .ok (.reads [bs]))
      ∧ (∀ e k, a.fault = some (e, k) → ∃ t, exec (.frameRegread addr n) s = .next t
        ∧ OneFrame s t rest 0x20 (readOps addr n) (.err (errorOf s.cfg e)) (if k = 0 then c else { c with cat := a.cat })
        ∧ t.res = .transportErr (errorOf s.cfg e)))
    ∧ (addr = s.cfg.statusAddr → paramsWf s.cfg = true →
      (a.fault = none → ∃ t b, exec (.frameRegread addr 1) s = .next t ∧ statusDecode s.cfg [b] = (c.fecPass, c.crcPass)
        ∧ OneFrame s t rest 0x20 (readOps addr 1) (.ok [[b]]) c ∧ t.res = .ok (.reads [[b]]))
      ∧ (∀ e k, a.fault = some (e, k) → ∃ t, exec (.frameRegread addr 1) s = .next t
        ∧ OneFrame s t rest 0x20 (readOps addr 1) (.err (errorOf s.cfg e)) c ∧ t.res = .transportErr (errorOf s.cfg e)))

/-- R61: a register frame at address 0x05 is the FIFO frame, and a register write of 0x00 to address 0x00 is the Reset frame
and replaces the chip's state. -/
def Obligations.CoincidingFramesActAlike : Prop :=
  (∀ (n : Nat) (s : State), exec (.frameRegread 0x05 n) s = exec (.frameRxfifo n) s)
  ∧ (∀ (p : List Byte) (s : State), exec (.frameRegwrite 0x05 p) s = exec (.frameTxfifo p) s)
  ∧ (∀ (s : State) (a : Answer) (rest : List Answer), s.seq = .idle → s.cfg.responder = .reference →
    s.answers = a :: rest → a.fault = none →
    ∃ t, exec (.frameRegwrite 0x00 [0x00]) s = .next t
      ∧ OneFrame s t rest 0x20 [.write [0x00], .write [0x00]] (.ok []) (resetChip s.cfg a.pick a.chip)
      ∧ t.res = .ok (.reads []))

/-! ### The chip -/

/-- R169: the status read is the frame at STATUS_ADDR with one byte read; it returns any payload that decodes to the chip's
two flags, and only such a payload, and changes nothing. -/
def Obligations.StatusReadReportsTheFlags : Prop :=
  ∀ (cfg : Params) (c : Chip), paramsWf cfg = true →
    frameOf [.write [cfg.statusAddr.setWidth 8 ||| 0x40], .read 1] = .ok (.regRead cfg.statusAddr 1)
    ∧ (∀ a, ∃ b, respond cfg a (.regRead cfg.statusAddr 1) c = .ok ([b], c))
    ∧ (∀ b, (∃ a, respond cfg a (.regRead cfg.statusAddr 1) c = .ok ([b], c)) ↔ statusDecode cfg [b] = (c.fecPass, c.crcPass))

/-- R173: only the frames of R164 to R168 change a pointer; two RX buffer reads with no reset between return consecutive
bytes, as one read of both lengths would. R172: an RX buffer read returns the same bytes whatever the validity flags and
the mode are. -/
def Obligations.PointersAreNotRewound : Prop :=
  (∀ (cfg : Params) (a : Answer) (f : FrameOp) (c c' : Chip) (bs : List Byte), respond cfg a f c = .ok (bs, c') →
    (f ≠ .rstRd → f ≠ .reset → (∀ n, f ≠ .rxFifo n) → c'.rdPtr = c.rdPtr)
    ∧ (f ≠ .rstWr → f ≠ .reset → (∀ p, f ≠ .txFifo p) → c'.wrPtr = c.wrPtr))
  ∧ (∀ (cfg : Params) (a1 a2 a3 : Answer) (n m : Nat) (c c1 c2 : Chip) (b1 b2 : List Byte),
    respond cfg a1 (.rxFifo n) c = .ok (b1, c1) → respond cfg a2 (.rxFifo m) c1 = .ok (b2, c2) →
    b1.length = n ∧ b2.length = m ∧ respond cfg a3 (.rxFifo (n + m)) c = .ok (b1 ++ b2, c2))
  ∧ (∀ (cfg : Params) (a : Answer) (n : Nat) (c c' : Chip) (bs : List Byte) (f k : Bool) (m : Mode),
    respond cfg a (.rxFifo n) c = .ok (bs, c') →
    respond cfg a (.rxFifo n) { c with fecPass := f, crcPass := k, mode := m }
      = .ok (bs, { c' with fecPass := f, crcPass := k, mode := m }))

/-- R104: the far end may be any relation Responder. Where it is given, every outcome an op list may have, with every legal
chip state (R161), is what some answer says, and no answer says another; and whatever the reference responder can answer is
among them. -/
def Obligations.AnyResponderCanBeGiven : Prop :=
  ∀ (cfg : Params) (ops : List Op) (c : Chip), cfg.responder = .given →
    (∀ a, ∃ o c', chipTransact cfg a ops c = .ok (o, c') ∧ LegalOutcome cfg ops o ∧ ChipOk cfg.fifoDepth c')
    ∧ (∀ o c', LegalOutcome cfg ops o → ChipOk cfg.fifoDepth c' → ∃ a, chipTransact cfg a ops c = .ok (o, c'))
    ∧ (∀ (a : Answer) (o : BusOutcome) (c' : Chip), ChipOk cfg.fifoDepth c →
        chipTransact { cfg with responder := .reference } a ops c = .ok (o, c') →
        ∃ a', chipTransact cfg a' ops c = .ok (o, c'))

/-- R174: the radio never changes the pointers or the transmit buffer (nor the prior mode or the catalog); it leaves a mode
other than Rx and Tx alone and otherwise may only fall back to the prior mode; and it may bring about any flags and any
receive buffer, with or without the fallback. -/
def Obligations.RadioChangesWhatItMay : Prop :=
  (∀ (cfg : Params) (acts : List RadioAct) (c : Chip),
    (radioActs cfg acts c).rdPtr = c.rdPtr ∧ (radioActs cfg acts c).wrPtr = c.wrPtr
    ∧ (radioActs cfg acts c).txfifo = c.txfifo ∧ (radioActs cfg acts c).prior = c.prior
    ∧ (radioActs cfg acts c).cat = c.cat
    ∧ ((radioActs cfg acts c).mode = c.mode ∨ ((c.mode = .rx ∨ c.mode = .tx) ∧ (radioActs cfg acts c).mode = c.prior)))
  ∧ (∀ (cfg : Params) (c : Chip) (f k : Bool) (m : Memory), ChipOk cfg.fifoDepth c → Memory.wf m →
    Memory.within cfg.fifoDepth m →
    (∃ acts, radioActs cfg acts c = { c with fecPass := f, crcPass := k, rxfifo := m })
    ∧ ((c.mode = .rx ∨ c.mode = .tx) →
        ∃ acts, radioActs cfg acts c = { c with fecPass := f, crcPass := k, rxfifo := m, mode := c.prior }))

/-- R166: the Reset frame replaces the whole chip state by a draw of CHIP_RESET: with CHIP_RESET at its default it may leave
every legal chip state; otherwise a member of one of the families that stand in CHIP_RESET (log 20), and any of these. -/
def Obligations.ResetMayLeaveAnyMemberOfChipReset : Prop :=
  (∀ (cfg : Params) (a : Answer) (c : Chip), receiveWhole cfg a [.write [0x00, 0x00]] c = .ok ([], resetChip cfg a.pick a.chip))
  ∧ (∀ (cfg : Params) (k : Nat) (c : Chip), cfg.chipReset = [] → ChipOk cfg.fifoDepth c → ∃ draw, resetChip cfg k draw = c)
  ∧ (∀ (cfg : Params), cfg.chipReset ≠ [] →
    (∀ k draw, ∃ p ∈ cfg.chipReset, resetChip cfg k draw = chipOfPicture cfg.fifoDepth (p.fill draw))
    ∧ (∀ p ∈ cfg.chipReset, ∃ k, ∀ draw, resetChip cfg k draw = chipOfPicture cfg.fifoDepth (p.fill draw)))

/-- R175, R176, R177: a strobe byte with a non-zero low nibble or with payload (or a read phase), put on the bus by BWRITE or
by any TRANSACT, a FIFO frame that would carry a pointer past FIFO_DEPTH, and a register frame of a length no register has, or
none of the catalog's registers at that address has (log 16), or that is not STATUS_WIDTH at STATUS_ADDR, are refused when
they reach the reference responder whole. -/
def Obligations.FramesWithoutARuleAreRefused : Prop :=
  ∀ (s : State) (a : Answer) (rest : List Answer), s.seq = .idle → s.cfg.responder = .reference → s.answers = a :: rest →
    a.fault = none →
    (∀ (b : Byte) (p : List Byte), b.getLsbD 7 = true → (b &&& 0x0F ≠ 0 ∨ p ≠ []) →
      ∃ why, exec (.bwrite (b :: p)) s = .refused (.frameNoRule why))
    ∧ (∀ (ops : List Op) (b : Byte) (p : List Byte) (n : Nat), flatten ops = some { out := b :: p, rd := n } →
      b.getLsbD 7 = true → (b &&& 0x0F ≠ 0 ∨ p ≠ [] ∨ n ≠ 0) →
      ∃ why, exec (.transact ops) s = .refused (.frameNoRule why))
    ∧ (∀ n, s.cfg.fifoDepth < s.chip.rdPtr + n → exec (.frameRxfifo n) s = .refused .fifoPastEnd)
    ∧ (∀ p : List Byte, s.cfg.fifoDepth < s.chip.wrPtr + p.length → exec (.frameTxfifo p) s = .refused .fifoPastEnd)
    ∧ (∀ (addr : BitVec 6) (n : Nat), addr ≠ 0x05 → n ≠ 1 → n ≠ 2 → n ≠ 4 →
      exec (.frameRegread addr n) s = .refused .registerLength)
    ∧ (∀ n : Nat, s.cfg.statusAddr ≠ 0x05 → n ≠ 1 → exec (.frameRegread s.cfg.statusAddr n) s = .refused .registerLength)
    ∧ (∀ (addr : BitVec 6) (p : List Byte), addr ≠ 0x05 → p.length ≠ 1 → p.length ≠ 2 → p.length ≠ 4 →
      exec (.frameRegwrite addr p) s = .refused .registerLength)
    ∧ (∀ (d : Descriptor) (addr : BitVec 6) (n : Nat), addr ≠ 0x05 → addr ≠ s.cfg.statusAddr → d ∈ s.cfg.catalog →
      d.addr = addr.setWidth 8 → d.readable = true →
      (∀ d' ∈ s.cfg.catalog, d'.addr = addr.setWidth 8 → d'.readable = true → d'.width ≠ n) →
      exec (.frameRegread addr n) s = .refused .registerLength)
    ∧ (∀ (d : Descriptor) (addr : BitVec 6) (p : List Byte), addr ≠ 0x05 → ¬(addr = 0x00 ∧ p = [0x00]) → d ∈ s.cfg.catalog →
      d.addr = addr.setWidth 8 → d.writable = true →
      (∀ d' ∈ s.cfg.catalog, d'.addr = addr.setWidth 8 → d'.writable = true → d'.width ≠ p.length) →
      exec (.frameRegwrite addr p) s = .refused .registerLength)

/-- The FIFO memories are plain data: two memories in canonical form that read the same everywhere are equal (log 8). -/
def Obligations.CanonicalMemoriesAreTheirReads : Prop :=
  ∀ m m' : Memory, Memory.wf m → Memory.wf m' → (∀ i, m.read i = m'.read i) → m = m'

/-- R178: the test responder is an instance of the reference responder. After any catalog writes a catalog read returns what
was last written to the same address with the same length, or zero bytes if nothing was; the status read reports the flags
with every other bit 0; Reset sets the state R178 gives and forgets all catalog writes, whenever CHIP_RESET has that state (an
instance of the reference responder can set no other, R166). -/
def Obligations.TestResponderReturnsWhatWasWritten : Prop :=
  ∀ cfg : Params, cfg.responder = .reference →
    (∀ (ws : List (BitVec 6 × List Byte)) (c : Chip) (addr : BitVec 6) (n : Nat), c.cat = [] →
      (∀ w ∈ ws, w.1 ≠ 0x05 ∧ ¬(w.1 = 0x00 ∧ w.2 = [0x00]) ∧ lengthFits cfg false w.1 w.2.length = true) →
      addr ≠ 0x05 → addr ≠ cfg.statusAddr → lengthFits cfg true addr n = true →
      ∃ c', afterWrites cfg ws c = some c'
        ∧ testTransact cfg (readOps addr n) c' = .ok (.ok [lastWritten ws addr n], c'))
    ∧ (∀ c : Chip, paramsWf cfg = true →
      ∃ b, testTransact cfg (readOps cfg.statusAddr 1) c = .ok (.ok [[b]], c)
        ∧ statusDecode cfg [b] = (c.fecPass, c.crcPass)
        ∧ ∀ i, i ≠ cfg.fecBit.toNat → i ≠ cfg.crcBit.toNat → b.getLsbD i = false)
    ∧ (∀ c : Chip,
      (cfg.chipReset = [] ∨ ∃ p ∈ cfg.chipReset, ∃ draw, chipOfPicture cfg.fifoDepth (p.fill draw) = afterTestReset) →
      testTransact cfg [.write [0x00, 0x00]] c = .ok (.ok [], afterTestReset))

/-! ### Packet transfer -/

/-- RX with both flags good and three transactions that go through. Its first step ends at RX_CHECK with the flags of one
status read; run to its end it has issued status read, pointer reset, buffer read of L bytes, and the result and the
caller's buffer are the bytes the receive buffer holds when it is read, from index 0 (R140, R144, R145). -/
def Obligations.RxReturnsTheReceiveBuffer : Prop :=
  ∀ (len : Nat) (s : State) (a1 a2 a3 : Answer) (rest : List Answer) (c1 c2 c3 : Chip), s.seq = .idle → NoReset s →
    s.cfg.responder = .reference → paramsWf s.cfg = true → s.answers = a1 :: a2 :: a3 :: rest → a1.fault = none →
    a2.fault = none → a3.fault = none → c1 = radioActs s.cfg a1.radio s.chip → c1.fecPass = true → c1.crcPass = true →
    c2 = { radioActs s.cfg a2.radio c1 with rdPtr := 0 } → c3 = radioActs s.cfg a3.radio c2 → len ≤ s.cfg.fifoDepth →
    Coded (.rx len) 0x70
    ∧ ∃ b, statusDecode s.cfg [b] = (true, true)
      ∧ (∃ t1, exec (.rx len) s = .next t1 ∧ t1.seq = .rxCheck ∧ t1.regs.opr = 0x70 ∧ t1.regs.len = len
        ∧ t1.regs.fecp = true ∧ t1.regs.crcp = true ∧ t1.answers = a2 :: a3 :: rest ∧ t1.chip = c1
        ∧ t1.hist = s.hist ++ [{ ops := statusOps s, outcome := .ok [[b]], by_ := 0x70 }]
        ∧ t1.res = s.res ∧ t1.callerBuf = s.callerBuf ∧ t1.cfg = s.cfg ∧ t1.busOwn = s.busOwn ∧ t1.inbox = s.inbox)
      ∧ ∃ t, runWhole (.rx len) s = .next t ∧ Ended s t ∧ t.answers = rest
        ∧ t.hist = s.hist ++
          [{ ops := statusOps s, outcome := .ok [[b]], by_ := 0x70 }, { ops := [.write [0xF0]], outcome := .ok [], by_ := 0x70 },
           { ops := [.write [0x45], .read len], outcome := .ok [fifoBytes c3.rxfifo 0 len], by_ := 0x70 }]
        ∧ t.res = .ok (.bytes (fifoBytes c3.rxfifo 0 len)) ∧ t.callerBuf = fifoBytes c3.rxfifo 0 len
        ∧ t.chip = { c3 with rdPtr := len }

/-- R142: RX with a flag false returns PacketError with the two complements after one transaction, the status read; the
buffers, the pointers and the caller's buffer are untouched. -/
def Obligations.RxRejectsABadPacket : Prop :=
  ∀ (len : Nat) (s : State) (a : Answer) (rest : List Answer) (c : Chip), s.seq = .idle → NoReset s →
    s.cfg.responder = .reference → paramsWf s.cfg = true → s.answers = a :: rest → a.fault = none → c = chipAt s a →
    (c.fecPass = false ∨ c.crcPass = false) →
    ∃ t b, runWhole (.rx len) s = .next t ∧ OneFrame s t rest 0x70 (statusOps s) (.ok [[b]]) c
      ∧ statusDecode s.cfg [b] = (c.fecPass, c.crcPass) ∧ t.res = .packetErr (!c.fecPass) (!c.crcPass)

/-- R145 (44_packet.md section 1): the outcomes of RX, complete: whatever the far end answers, an RX that ends appends one of five lists of entries to
H and has that list's result and caller's buffer (after a TransportError L bytes of which nothing is said, R156: the caller's
buffer is that long, R12, log 14). -/
def Obligations.RxOutcomesAreTheFiveOfTheTable : Prop :=
  ∀ (len : Nat) (s t : State), s.seq = .idle → runWhole (.rx len) s = .next t → t.seq = .idle →
    let S := fun o => Entry.mk (statusOps s) o 0x70
    let P := fun o => Entry.mk [.write [0xF0]] o 0x70
    let D := fun o => Entry.mk [.write [0x45], .read len] o 0x70
    Ended s t
    ∧ ((∃ e, t.hist = s.hist ++ [S (.err e)] ∧ t.res = .transportErr e ∧ t.callerBuf.length = len)
      ∨ (∃ b f k, t.hist = s.hist ++ [S (.ok [b])] ∧ statusDecode s.cfg b = (f, k) ∧ (f && k) = false
          ∧ t.res = .packetErr (!f) (!k) ∧ t.callerBuf = s.callerBuf)
      ∨ (∃ b e, t.hist = s.hist ++ [S (.ok [b]), P (.err e)] ∧ statusDecode s.cfg b = (true, true)
          ∧ t.res = .transportErr e ∧ t.callerBuf.length = len)
      ∨ (∃ b e, t.hist = s.hist ++ [S (.ok [b]), P (.ok []), D (.err e)] ∧ statusDecode s.cfg b = (true, true)
          ∧ t.res = .transportErr e ∧ t.callerBuf.length = len)
      ∨ (∃ b bs, t.hist = s.hist ++ [S (.ok [b]), P (.ok []), D (.ok [bs])] ∧ statusDecode s.cfg b = (true, true)
          ∧ bs.length = len ∧ t.res = .ok (.bytes bs) ∧ t.callerBuf = bs))

/-- R224, R47: the check-to-use window: an RX whose status read saw both flags good may return any bytes at all. The radio
does nothing before the status read, which leaves the chip as it was; what it does comes after it and before the buffer read:
it replaces the bytes of the buffer, and it changes the flags to any values. -/
def Obligations.RxMayReturnBytesItsFlagsDidNotVouchFor : Prop :=
  ∀ (bs : List Byte) (f k : Bool) (s : State), s.seq = .idle → NoReset s → s.cfg.responder = .reference → Inv s →
    bs.length ≤ s.cfg.fifoDepth → s.chip.fecPass = true → s.chip.crcPass = true →
    ∃ a as, a.radio = []
      ∧ (∃ t1, exec (.rx bs.length) { s with answers := a :: as } = .next t1 ∧ t1.seq = .rxCheck ∧ t1.chip = s.chip
        ∧ t1.answers = as ∧ t1.regs.fecp = true ∧ t1.regs.crcp = true)
      ∧ ∃ t, runWhole (.rx bs.length) { s with answers := a :: as } = .next t ∧ t.seq = .idle ∧ t.res = .ok (.bytes bs)
        ∧ t.chip.fecPass = f ∧ t.chip.crcPass = k

/-- TX whose two transactions go through. Its first step is the pointer reset and ends at TX_DATA; run to its end it has
written the buffer unchanged from index 0 of the transmit buffer; every other byte of it stays (R147 to R149, R168). -/
def Obligations.TxStoresTheBuffer : Prop :=
  ∀ (buf : List Byte) (s : State) (a1 a2 : Answer) (rest : List Answer) (c1 c2 : Chip), s.seq = .idle → NoReset s →
    s.cfg.responder = .reference → s.answers = a1 :: a2 :: rest → a1.fault = none → a2.fault = none →
    c1 = { radioActs s.cfg a1.radio s.chip with wrPtr := 0 } → c2 = radioActs s.cfg a2.radio c1 →
    buf.length ≤ s.cfg.fifoDepth → Memory.wf s.chip.txfifo → Coded (.tx buf) 0x71
    ∧ (∃ t1, exec (.tx buf) s = .next t1 ∧ t1.seq = .txData ∧ t1.regs.opr = 0x71 ∧ t1.regs.len = buf.length
      ∧ t1.regs.buf = buf ∧ t1.callerBuf = buf ∧ t1.answers = a2 :: rest ∧ t1.chip = c1
      ∧ t1.hist = s.hist ++ [{ ops := [.write [0xE0]], outcome := .ok [], by_ := 0x71 }]
      ∧ t1.res = s.res ∧ t1.cfg = s.cfg ∧ t1.busOwn = s.busOwn ∧ t1.inbox = s.inbox)
    ∧ ∃ t m, runWhole (.tx buf) s = .next t ∧ Ended s t ∧ t.answers = rest
      ∧ t.hist = s.hist ++
          [{ ops := [.write [0xE0]], outcome := .ok [], by_ := 0x71 },
           { ops := [.write [0x05], .write buf], outcome := .ok [], by_ := 0x71 }]
      ∧ t.res = .ok .unit ∧ t.callerBuf = buf
      ∧ t.chip = { c2 with txfifo := m, wrPtr := buf.length } ∧ StoredIn s.chip.txfifo m 0 buf

/-- R147 (44_packet.md section 2): the outcomes of TX, complete: whatever the far end answers, a TX that ends appends one of three lists of entries to
H; it never ends in PacketError. (The caller's buffer, the memory that BUF was loaded from, keeps the operand, log 14.) -/
def Obligations.TxOutcomesAreThree : Prop :=
  ∀ (buf : List Byte) (s t : State), s.seq = .idle → runWhole (.tx buf) s = .next t → t.seq = .idle →
    let P := fun o => Entry.mk [.write [0xE0]] o 0x71
    let D := fun o => Entry.mk [.write [0x05], .write buf] o 0x71
    Ended s t ∧ t.callerBuf = buf
    ∧ ((∃ e, t.hist = s.hist ++ [P (.err e)] ∧ t.res = .transportErr e)
      ∨ (∃ e, t.hist = s.hist ++ [P (.ok []), D (.err e)] ∧ t.res = .transportErr e)
      ∨ (t.hist = s.hist ++ [P (.ok []), D (.ok [])] ∧ t.res = .ok .unit))

/-- What a packet transfer whose buffer access breaks off after `k` bytes of its frame leaves (R102, R197; the model's reading
of a broken-off FIFO frame, log 17). TX has stored the first k - 1 bytes of the buffer, no others, and moved the write pointer
past them. RX has reset the read pointer and moved it past k - 1 bytes; nothing else of the chip has changed but by the
radio, and no bytes are returned. -/
def Obligations.BrokenPacketTransferLeavesAPrefix : Prop :=
  (∀ (buf : List Byte) (s : State) (a1 a2 : Answer) (rest : List Answer) (e : TE) (k : Nat) (c1 c2 : Chip), s.seq = .idle →
    NoReset s → s.cfg.responder = .reference → s.answers = a1 :: a2 :: rest → a1.fault = none → a2.fault = some (e, k) →
    c1 = { radioActs s.cfg a1.radio s.chip with wrPtr := 0 } → c2 = radioActs s.cfg a2.radio c1 →
    buf.length ≤ s.cfg.fifoDepth → Memory.wf s.chip.txfifo →
    ∃ t m, runWhole (.tx buf) s = .next t ∧ Ended s t ∧ t.answers = rest ∧ t.res = .transportErr (errorOf s.cfg e)
      ∧ t.hist = s.hist ++
          [{ ops := [.write [0xE0]], outcome := .ok [], by_ := 0x71 },
           { ops := [.write [0x05], .write buf], outcome := .err (errorOf s.cfg e), by_ := 0x71 }]
      ∧ t.chip = { c2 with txfifo := m, wrPtr := min (k - 1) buf.length }
      ∧ StoredIn s.chip.txfifo m 0 (buf.take (k - 1)))
  ∧ (∀ (len : Nat) (s : State) (a1 a2 a3 : Answer) (rest : List Answer) (e : TE) (k : Nat) (c1 c2 c3 : Chip), s.seq = .idle →
    NoReset s → s.cfg.responder = .reference → paramsWf s.cfg = true → s.answers = a1 :: a2 :: a3 :: rest →
    a1.fault = none → a2.fault = none → a3.fault = some (e, k) → c1 = radioActs s.cfg a1.radio s.chip → c1.fecPass = true →
    c1.crcPass = true → c2 = { radioActs s.cfg a2.radio c1 with rdPtr := 0 } → c3 = radioActs s.cfg a3.radio c2 →
    len ≤ s.cfg.fifoDepth →
    ∃ t b, runWhole (.rx len) s = .next t ∧ Ended s t ∧ t.answers = rest ∧ t.res = .transportErr (errorOf s.cfg e)
      ∧ t.hist = s.hist ++
          [{ ops := statusOps s, outcome := .ok [[b]], by_ := 0x70 }, { ops := [.write [0xF0]], outcome := .ok [], by_ := 0x70 },
           { ops := [.write [0x45], .read len], outcome := .err (errorOf s.cfg e), by_ := 0x70 }]
      ∧ t.chip = { c3 with rdPtr := min (k - 1) len })

/-! ### Errors -/

/-- R191, R197: an operation that ends has RES = TransportErr(e) exactly when the last transaction it issued failed with e;
all its earlier transactions went through. ENC, DEC, FINS and FEXT issue none, so they never raise it. -/
def Obligations.TransportErrExactlyOnAFailedTransaction : Prop :=
  ∀ (i : Instr) (s t : State), runWhole i s = .next t → t.seq = .idle →
    ∃ es, t.hist = s.hist ++ es
      ∧ (∀ e, t.res = .transportErr e ↔ ∃ x, es.getLast? = some x ∧ x.outcome = .err e)
      ∧ (∀ x ∈ es.dropLast, ∃ reads, x.outcome = .ok reads)
      ∧ (firstSeq i = .marshal → es = [] ∧ ∀ e, t.res ≠ .transportErr e)

/-- R192: PacketError is raised by RX only, after exactly one transaction, a status read that went through; at least one of its
two booleans is true, and they are the complements of the flags read. -/
def Obligations.PacketErrOnlyFromRxAfterAStatusRead : Prop :=
  ∀ (i : Instr) (s t : State) (f k : Bool), runWhole i s = .next t → t.seq = .idle → t.res = .packetErr f k →
    (f || k) = true ∧ (∃ len, i = .rx len)
    ∧ ∃ b, statusDecode s.cfg b = (!f, !k)
      ∧ t.hist = s.hist ++ [{ ops := statusOps s, outcome := .ok [b], by_ := 0x70 }]

/-- R193: the codes of RES: 0 for Ok, 1 for TransportErr, 2 for PacketErr with fec_failed in bit 1 and crc_failed in bit 0; the
sub-code 0b00 never occurs. And the codes of SEQ (R14): 0 to 10 in the order the rule lists the positions, one each, and 11 to
15 never. -/
def Obligations.CodesOfResAndSeq : Prop :=
  (∀ d, kindCode (.ok d) = 0 ∧ subCode (.ok d) = none) ∧ (∀ e, kindCode (.transportErr e) = 1 ∧ subCode (.transportErr e) = none)
  ∧ (∀ f k, kindCode (.packetErr f k) = 2 ∧ ∃ c, subCode (.packetErr f k) = some c ∧ c.getLsbD 1 = f ∧ c.getLsbD 0 = k)
  ∧ (∀ (i : Instr) (s t : State), runWhole i s = .next t → t.seq = .idle → subCode t.res ≠ some 0)
  ∧ [Seq.idle, .rxStatus, .rxCheck, .rxPtr, .rxData, .txPtr, .txData, .regXfer, .strobe, .xact, .marshal].map seqCode
      = [0, 1, 2, 3, 4, 5, 6, 7, 8, 9, 10]
  ∧ (∀ q q', seqCode q = seqCode q' → q = q') ∧ (∀ q, (seqCode q).toNat ≤ 10)

/-- R100: an operation whose transaction is not answered stays where it is, at the position R15 gives it, with nothing in H and
no result; it is no success, and it stays there until the far end answers. The marshalling operations do not wait. -/
def Obligations.UnansweredOperationWaits : Prop :=
  ∀ (i : Instr) (s : State), s.seq = .idle → s.answers = [] → i.flaw = none →
    ∃ t, exec i s = .next t ∧ t.hist = s.hist ∧ t.chip = s.chip
      ∧ (firstSeq i = .marshal → t.seq = .idle)
      ∧ (firstSeq i ≠ .marshal → t.seq = firstSeq i ∧ t.res = s.res ∧ (s.inbox = [] → step t = .next t))

/-- R12, R15: accepting a request loads the operand registers its rule names and puts SEQ at its first position; an operation
whose first transaction is not answered yet shows them. -/
def Obligations.OperandsAreLoadedWhenARequestIsAccepted : Prop :=
  ∀ s : State, s.seq = .idle → s.answers = [] →
    (∀ (n : Nat) (hop : Byte), (n = 1 ∧ hop = 0x31) ∨ (n = 2 ∧ hop = 0x32) ∨ (n = 4 ∧ hop = 0x34) →
      ∀ d, Usable d.readable n d → ∃ t, exec (rdreg n d) s = .next t ∧ t.seq = .regXfer ∧ t.regs.opr = hop
        ∧ t.regs.addr = d.addr ∧ t.regs.wid.toNat = n)
    ∧ (∀ (n : Nat) (hop : Byte), (n = 1 ∧ hop = 0x41) ∨ (n = 2 ∧ hop = 0x42) ∨ (n = 4 ∧ hop = 0x44) →
      ∀ d val, Usable d.writable n d → (∀ f ∈ d.wfields, ∃ v, (f.name, v) ∈ val) →
      ∃ t, exec (wrreg n d val) s = .next t ∧ t.seq = .regXfer ∧ t.regs.opr = hop ∧ t.regs.addr = d.addr
        ∧ t.regs.wid.toNat = n ∧ t.regs.val.toNat = placed d.wfields val
        ∧ takeStaging t.regs.stg n = (List.range n).map fun i => BitVec.ofNat 8 (placed d.wfields val >>> (8 * i)))
    ∧ (∀ r ∈ modeRows, ∃ t, exec r.setmode s = .next t ∧ t.seq = .strobe ∧ t.regs.opr = r.hop ∧ t.regs.mode = r.mode)
    ∧ (∃ t, exec .cmdReset s = .next t ∧ t.seq = .strobe ∧ t.regs.opr = 0x60 ∧ t.regs.cmd = .reset)
    ∧ (∃ t, exec .cmdRstrd s = .next t ∧ t.seq = .strobe ∧ t.regs.opr = 0x61 ∧ t.regs.cmd = .rstRd)
    ∧ (∃ t, exec .cmdRstwr s = .next t ∧ t.seq = .strobe ∧ t.regs.opr = 0x62 ∧ t.regs.cmd = .rstWr)
    ∧ (∀ len, ∃ t, exec (.rx len) s = .next t ∧ t.seq = .rxStatus ∧ t.regs.opr = 0x70 ∧ t.regs.len = len)
    ∧ (∀ buf, ∃ t, exec (.tx buf) s = .next t ∧ t.seq = .txPtr ∧ t.regs.opr = 0x71 ∧ t.regs.len = buf.length
        ∧ t.regs.buf = buf ∧ t.callerBuf = buf)
    ∧ (∀ ops, ops ≠ [] → ∃ t, exec (.transact ops) s = .next t ∧ t.seq = .xact ∧ t.regs.opr = 0x20
        ∧ t.regs.len = ops.length ∧ t.regs.ops = ops)
    ∧ (∀ b, b ≠ [] → ∃ t, exec (.bwrite b) s = .next t ∧ t.seq = .xact ∧ t.regs.opr = 0x21 ∧ t.regs.ops = [.write b])

/-- R151 row by row, as steps of the machine: each position of RX and TX issues its transaction, or none, and names its
successor. (An instruction's first step is its acceptance with the step of its first position, log 12.) -/
def Obligations.PacketSequencerPositions : Prop :=
  ∀ s : State, NoReset s →
    (s.seq = .idle → ∀ len,
      exec (.rx len) s = step { s with seq := .rxStatus, regs := { s.regs with opr := 0x70, len := len } })
    ∧ (s.seq = .idle → ∀ buf : List Byte,
      exec (.tx buf) s
        = step { s with seq := .txPtr, regs := { s.regs with opr := 0x71, len := buf.length, buf := buf }, callerBuf := buf })
    ∧ (s.seq = .rxStatus → s.regs.opr = 0x70 → PositionRow s (statusOps s) fun reads t =>
      t.seq = .rxCheck ∧ (∃ b, reads = [b] ∧ (t.regs.fecp, t.regs.crcp) = statusDecode s.cfg b)
        ∧ t.regs.opr = 0x70 ∧ t.regs.len = s.regs.len ∧ t.res = s.res ∧ t.callerBuf = s.callerBuf)
    ∧ (s.seq = .rxCheck → s.regs.opr = 0x70 →
      (s.regs.fecp = true ∧ s.regs.crcp = true → step s = .next { s with seq := .rxPtr })
      ∧ (s.regs.fecp = false ∨ s.regs.crcp = false → ∃ t, step s = .next t ∧ Ended s t
        ∧ t.res = .packetErr (!s.regs.fecp) (!s.regs.crcp) ∧ t.hist = s.hist ∧ t.chip = s.chip ∧ t.answers = s.answers
        ∧ t.callerBuf = s.callerBuf))
    ∧ (s.seq = .rxPtr → s.regs.opr = 0x70 → PositionRow s [.write [0xF0]] fun _ t =>
      t.seq = .rxData ∧ t.regs = s.regs ∧ t.res = s.res ∧ t.callerBuf = s.callerBuf)
    ∧ (s.seq = .rxData → s.regs.opr = 0x70 → PositionRow s [.write [0x45], .read s.regs.len] fun reads t =>
      t.seq = .idle ∧ ∃ b, reads = [b] ∧ b.length = s.regs.len ∧ t.res = .ok (.bytes b) ∧ t.callerBuf = b)
    ∧ (s.seq = .txPtr → s.regs.opr = 0x71 → PositionRow s [.write [0xE0]] fun _ t =>
      t.seq = .txData ∧ t.regs = s.regs ∧ t.res = s.res ∧ t.callerBuf = s.callerBuf)
    ∧ (s.seq = .txData → s.regs.opr = 0x71 → PositionRow s [.write [0x05], .write s.regs.buf] fun _ t =>
      t.seq = .idle ∧ t.res = .ok .unit ∧ t.callerBuf = s.callerBuf)

/-- R97. One step per transaction, suspended or not: no step appends more than one entry to H or takes more than one answer. An
operation whose transaction is not answered yet stays as it is (the waiting positions are the model's, logs 3 and 12), and
when the answers come it takes exactly the step it takes when they are there at once; no other operation can start at that
point. -/
def Obligations.SuspendingMakesNoDifference : Prop :=
  (∀ (s t : State), NoReset s → step s = .next t →
    (t.hist = s.hist ∧ t.answers = s.answers) ∨ ∃ x a, t.hist = s.hist ++ [x] ∧ s.answers = a :: t.answers)
  ∧ (∀ s : State, NoReset s → Inv s → s.seq ≠ .idle → s.seq ≠ .rxCheck → s.answers = [] → step s = .next s)
  ∧ (∀ (i : Instr) (s t : State) (later : List Answer), NoReset s → s.answers = [] → exec i s = .next t → t.seq ≠ .idle →
    step { t with answers := later } = exec i { s with answers := later } ∧ ∀ j, ∃ why, exec j t = .refused why)

/-- R11: while an operation is in progress no other one can be issued. -/
def Obligations.NoSecondOperationInProgress : Prop :=
  ∀ (i : Instr) (s : State), s.seq ≠ .idle →
    ∃ r, exec i s = .refused r ∧ (i.flaw = none → r = .operationInProgress)

/-! ### The whole machine -/

/-- R24: H is only ever appended to: every step that is no reset of the block extends it. -/
def Obligations.HistoryIsOnlyAppendedTo : Prop :=
  ∀ s t : State, step s = .next t → NoReset s → s.hist <+: t.hist

/-- The invariant (Safety.lean: legal parameters, the bus owned, a legal chip state with its memories in canonical form, every
entry of H of a form its operation may issue, operand registers that fit SEQ) is kept by every step. -/
def Obligations.EveryStepKeepsTheInvariant : Prop := ∀ s t : State, Inv s → step s = .next t → Inv t

/-- The invariant holds at reset (the values that the model chooses, logs 1, 5 and 7, among them). -/
def Obligations.ResetMeetsTheInvariant : Prop := Inv State.reset

/-- From a state that meets the invariant no step faults: the block has no fault of its own (R190), and no operand register
is read that the operation in progress has not written (R13). -/
def Obligations.NoStepFaults : Prop := ∀ s : State, Inv s → SafeStep s

/-- No step changes a parameter (R5) or gives up the bus (R11). -/
def Obligations.ParametersAndBusAreConstant : Prop :=
  ∀ s t : State, step s = .next t → t.cfg = s.cfg ∧ (s.busOwn = true → t.busOwn = true)

/-- R10: an operation that ends comes to the same whatever the operand registers, BUF among them, the flags and RES held when
it was issued: the block keeps nothing from one operation to the next. (The caller's buffer, `callerBuf`, is the caller's
memory and no register of the block, R30 c, log 14.) -/
def Obligations.NothingIsKeptBetweenOperations : Prop :=
  ∀ (i : Instr) (s t : State) (r : Regs) (x : Res), runWhole i s = .next t → t.seq = .idle →
    runWhole i { s with regs := r, res := x } = .next t

/-- R25, R26: after reset the block is idle, owns the bus, has issued nothing and waits for the host. -/
def Obligations.ResetIsIdleAndSilent : Prop :=
  State.reset.seq = .idle ∧ State.reset.busOwn = true ∧ State.reset.hist = [] ∧ step State.reset = .next State.reset

/-- R215: a reset of the block between operations leaves it idle, owning the bus, with an empty H; it issues no transaction and
the chip is not told. During an operation, where R215 does not define it, it is refused: the model's choice (log 24). -/
def Obligations.BlockResetIsSilent : Prop :=
  ∀ (s : State) (rest : List Input), s.inbox = .blockReset :: rest →
    (s.seq = .idle → ∃ t, step s = .next t ∧ t.seq = .idle ∧ t.busOwn = true ∧ t.hist = [] ∧ t.chip = s.chip
      ∧ t.cfg = s.cfg ∧ t.answers = s.answers ∧ t.inbox = rest)
    ∧ (s.seq ≠ .idle → step s = .refused .resetDuringOperation)

end
end

