-- ==== Sys2Proof/Laws/Marshal.lean ====
section
/-! SUPPORT. Small lemmas of the marshalling functions. -/

namespace Sys2Proof.Machine

@[simp] theorem encN_zero (u : Nat) : encN 0 u = [] := rfl
@[simp] theorem encN_succ (n u : Nat) : encN (n + 1) u = BitVec.ofNat 8 u :: encN n (u >>> 8) := rfl
@[simp] theorem decN_nil : decN [] = 0 := rfl
@[simp] theorem decN_cons (b : Byte) (t : List Byte) : decN (b :: t) = b.toNat ||| (decN t <<< 8) := rfl

@[simp] theorem encN_length (n u : Nat) : (encN n u).length = n := by
  induction n generalizing u with
  | zero => rfl
  | succ n ih => simp [ih]

/-- The terms of DEC_N occupy disjoint bits: OR is sum (R87). -/
theorem decN_cons_add (b : Byte) (t : List Byte) : decN (b :: t) = b.toNat + 256 * decN t := by
  rw [decN_cons, Nat.or_comm, Nat.shiftLeft_eq, Nat.mul_comm (decN t), ← Nat.two_pow_add_eq_or_of_lt b.isLt]
  omega

theorem decN_lt (b : List Byte) : decN b < 2 ^ (8 * b.length) := by
  induction b with
  | nil => decide
  | cons x t ih =>
    have hx : x.toNat < 256 := x.isLt
    have h8 : (2 : Nat) ^ (8 * (t.length + 1)) = 256 * 2 ^ (8 * t.length) := by
      rw [Nat.mul_add, Nat.pow_add]; omega
    rw [decN_cons_add, List.length_cons, h8]
    omega

theorem mask_eq (w : Nat) : mask w = 2 ^ w - 1 := rfl

theorem testBit_mask (w i : Nat) : (mask w).testBit i = decide (i < w) := by
  simp [mask, Nat.testBit_two_pow_sub_one]

@[simp] theorem padTo_length (n : Nat) (bs : List Byte) : (padTo n bs).length = n := by
  simp [padTo]

theorem padTo_of_length {n : Nat} {bs : List Byte} (h : bs.length = n) : padTo n bs = bs := by
  simp [padTo, ← h]

/-- What is staged is what is taken back, for the three widths. -/
theorem takeStaging_loadStaging (g : Staging) (b : List Byte) (h : legalWidth b.length = true) :
    takeStaging (loadStaging g b) b.length = b := by
  rcases b with _ | ⟨a, _ | ⟨b, _ | ⟨c, _ | ⟨d, _ | ⟨e, t⟩⟩⟩⟩⟩ <;>
    simp_all [legalWidth, takeStaging, loadStaging]

@[simp] theorem readSize_nil : readSize [] = 0 := rfl
@[simp] theorem readSize_write (w : List Byte) (t : List Op) : readSize (.write w :: t) = readSize t := rfl
@[simp] theorem readSize_read (n : Nat) (t : List Op) : readSize (.read n :: t) = n + readSize t := rfl

/-- One buffer for each Read op, of the length it asked for (R90), when there are bytes enough. -/
theorem splitReads_lengths (ops : List Op) (bs : List Byte) (h : readSize ops ≤ bs.length) :
    (splitReads ops bs).map List.length = ops.filterMap (fun op => match op with | .read n => some n | .write _ => none) := by
  induction ops generalizing bs with
  | nil => rfl
  | cons op t ih =>
    cases op with
    | write w => simpa [splitReads] using ih bs h
    | read n =>
      rw [readSize_read] at h
      have := ih (bs.drop n) (by rw [List.length_drop]; omega)
      simp only [splitReads, List.map_cons, this, List.filterMap_cons, List.length_take]
      rw [Nat.min_eq_left (by omega)]

theorem splitReads_write_read (w : List Byte) (n : Nat) (bs : List Byte) :
    splitReads [.write w, .read n] bs = [bs.take n] := rfl

end Sys2Proof.Machine
end

