-- ==== Sys2Proof/Laws/Memory.lean ====
section
/-! SUPPORT. The laws of the FIFO memories: a read after a write, the canonical form kept by every operation, and equal
reads of canonical memories mean equal memories. -/

namespace Sys2Proof.Machine.Memory

theorem read_write_same (m : Memory) (a : Nat) (b : Byte) : m.wf → (m.write a b).read a = b := by
  induction m with
  | nil => intro _; by_cases hb : b = unlisted <;> simp [write, read, hb]
  | cons c t ih =>
    obtain ⟨k, v⟩ := c
    intro h
    have ht : wf t := ⟨(List.pairwise_cons.mp h.1).2, fun c hc => h.2 c (List.mem_cons_of_mem _ hc)⟩
    have hlt : ∀ c ∈ t, k < c.1 := fun c hc => (List.pairwise_cons.mp h.1).1 c hc
    have absent : ∀ (l : Memory) (i : Nat), (∀ c ∈ l, i < c.1) → read l i = unlisted := by
      intro l i hl
      induction l with
      | nil => rfl
      | cons d l ih2 =>
        have : d.1 ≠ i := by have := hl d (List.mem_cons_self ..); omega
        simp only [read, this, if_false]
        exact ih2 fun c hc => hl c (List.mem_cons_of_mem _ hc)
    unfold write
    split_ifs with h1 hb h2 hb
    · rw [hb]
      refine absent _ _ fun c hc => ?_
      rcases List.mem_cons.mp hc with rfl | hc
      · exact h1
      · exact lt_trans h1 (hlt c hc)
    · simp [read]
    · rw [hb, h2]; exact absent _ _ hlt
    · simp [read, h2]
    · simp only [read]
      rw [if_neg (fun hk => h2 hk.symm)]
      exact ih ht

theorem read_write_other (m : Memory) (a i : Nat) (b : Byte) (hi : i ≠ a) : (m.write a b).read i = m.read i := by
  induction m with
  | nil => by_cases hb : b = unlisted <;> simp [write, read, hb, Ne.symm hi]
  | cons c t ih =>
    obtain ⟨k, v⟩ := c
    unfold write
    split_ifs with h1 hb h2 hb
    · rfl
    · simp [read, Ne.symm hi]
    · have : k ≠ i := by omega
      simp [read, this]
    · have : k ≠ i := by omega
      simp [read, this]
    · simp only [read]; rw [ih]

theorem mem_write {m : Memory} {a : Nat} {b : Byte} {c : Host.Cell} (h : c ∈ m.write a b) :
    c ∈ m ∨ (c = (a, b) ∧ b ≠ unlisted) := by
  induction m with
  | nil => by_cases hb : b = unlisted <;> simp_all [write]
  | cons d t ih =>
    obtain ⟨k, v⟩ := d
    unfold write at h
    split_ifs at h with h1 hb h2 hb
    · exact .inl h
    · rcases List.mem_cons.mp h with h | h
      · exact .inr ⟨h, hb⟩
      · exact .inl h
    · exact .inl (List.mem_cons_of_mem _ h)
    · rcases List.mem_cons.mp h with h | h
      · exact .inr ⟨by rw [h, h2], hb⟩
      · exact .inl (List.mem_cons_of_mem _ h)
    · rcases List.mem_cons.mp h with h | h
      · exact .inl (h ▸ List.mem_cons_self ..)
      · exact (ih h).imp (List.mem_cons_of_mem _) id

theorem write_wf {m : Memory} (a : Nat) (b : Byte) (h : m.wf) : (m.write a b).wf := by
  refine ⟨?_, fun c hc => ?_⟩
  · induction m with
    | nil => by_cases hb : b = unlisted <;> simp [write, hb]
    | cons d t ih =>
      obtain ⟨k, v⟩ := d
      have hp := List.pairwise_cons.mp h.1
      have ht : wf t := ⟨hp.2, fun c hc => h.2 c (List.mem_cons_of_mem _ hc)⟩
      unfold write
      split_ifs with h1 hb h2 hb
      · exact h.1
      · refine List.pairwise_cons.mpr ⟨fun c hc => ?_, h.1⟩
        rcases List.mem_cons.mp hc with rfl | hc
        · exact h1
        · exact lt_trans h1 (hp.1 c hc)
      · exact hp.2
      · exact List.pairwise_cons.mpr ⟨hp.1, hp.2⟩
      · refine List.pairwise_cons.mpr ⟨fun c hc => ?_, ih ht⟩
        rcases mem_write hc with hc | ⟨rfl, -⟩
        · exact hp.1 c hc
        · show k < a; omega
  · rcases mem_write hc with hc | ⟨rfl, hb⟩
    · exact h.2 c hc
    · exact hb

theorem write_within {depth : Nat} {m : Memory} {a : Nat} {b : Byte} (ha : a < depth) (h : m.within depth) :
    (m.write a b).within depth := fun c hc => by
  rcases mem_write hc with hc | ⟨rfl, -⟩
  · exact h c hc
  · exact ha

theorem writeBytes_wf {m : Memory} (a : Nat) (p : List Byte) (h : m.wf) : (m.writeBytes a p).wf := by
  induction p generalizing m a with
  | nil => exact h
  | cons b t ih => exact ih (a + 1) (write_wf a b h)

theorem writeBytes_within {depth : Nat} {m : Memory} {a : Nat} {p : List Byte} (ha : a + p.length ≤ depth)
    (h : m.within depth) : (m.writeBytes a p).within depth := by
  induction p generalizing m a with
  | nil => exact h
  | cons b t ih =>
    rw [List.length_cons] at ha
    exact ih (by omega) (write_within (by omega) h)

theorem writeCells_wf {m : Memory} (depth : Nat) (cells : List Host.Cell) (h : m.wf) :
    (m.writeCells depth cells).wf := by
  induction cells generalizing m with
  | nil => exact h
  | cons c t ih =>
    refine ih ?_
    split_ifs
    · exact write_wf _ _ h
    · exact h

theorem writeCells_within {m : Memory} {depth : Nat} (cells : List Host.Cell) (h : m.within depth) :
    (m.writeCells depth cells).within depth := by
  induction cells generalizing m with
  | nil => exact h
  | cons c t ih =>
    refine ih ?_
    split_ifs with hc
    · exact write_within hc h
    · exact h

@[simp] theorem readBytes_length (m : Memory) (a n : Nat) : (m.readBytes a n).length = n := by
  induction n generalizing a with
  | zero => rfl
  | succ n ih => simp [readBytes, ih]

theorem wf_nil : wf [] := by simp [wf]

theorem within_nil (depth : Nat) : within depth [] := by simp [within]

/-- A listed cell of a canonical memory is what its index reads as. -/
theorem read_of_mem {m : Memory} (h : m.wf) {c : Host.Cell} (hc : c ∈ m) : m.read c.1 = c.2 := by
  induction m with
  | nil => cases hc
  | cons d t ih =>
    have hp := List.pairwise_cons.mp h.1
    rcases List.mem_cons.mp hc with rfl | hc
    · simp [read]
    · have : d.1 ≠ c.1 := by have := hp.1 c hc; omega
      simp only [read, this, if_false]
      exact ih ⟨hp.2, fun c hc => h.2 c (List.mem_cons_of_mem _ hc)⟩ hc

/-- A byte stored behind all listed cells is listed last. -/
theorem write_last {m : Memory} {a : Nat} {b : Byte} (hb : b ≠ unlisted) (h : ∀ c ∈ m, c.1 < a) : m.write a b = m ++ [(a, b)] := by
  induction m with
  | nil => simp [write, hb]
  | cons c t ih =>
    obtain ⟨k, v⟩ := c
    have hk : k < a := h _ (List.mem_cons_self ..)
    rw [write, if_neg (by omega), if_neg (by omega), ih fun c hc => h c (List.mem_cons_of_mem _ hc), List.cons_append]

/-- The cells of a canonical memory, stored behind all listed cells, are appended as they stand. -/
theorem writeCells_append {depth : Nat} {l : List Host.Cell} {m : Memory} (hl : wf l) (hd : within depth l)
    (h : ∀ x ∈ m, ∀ y ∈ l, x.1 < y.1) : m.writeCells depth l = m ++ l := by
  induction l generalizing m with
  | nil => simp [writeCells]
  | cons c t ih =>
    have hp := List.pairwise_cons.mp hl.1
    rw [writeCells, if_pos (hd c (List.mem_cons_self ..)),
      write_last (hl.2 c (List.mem_cons_self ..)) fun x hx => h x hx c (List.mem_cons_self ..),
      ih ⟨hp.2, fun d hd' => hl.2 d (List.mem_cons_of_mem _ hd')⟩ (fun d hd' => hd d (List.mem_cons_of_mem _ hd'))]
    · simp
    · intro x hx y hy
      rcases List.mem_append.mp hx with hx | hx
      · exact h x hx y (List.mem_cons_of_mem _ hy)
      · rw [List.mem_singleton.mp hx]; exact hp.1 y hy

/-- A canonical memory inside the depth is what its own cells stored in an empty one give. -/
theorem writeCells_self {depth : Nat} {m : Memory} (h : wf m) (hd : within depth m) : writeCells depth [] m = m := by
  simpa using writeCells_append (m := []) h hd (by simp)

end Sys2Proof.Machine.Memory
end

