-- ==== Sys2Proof/Laws/State.lean ====
section
/-! SUPPORT. What each update of the state leaves in each field, by rfl, so that no proof unfolds a record update. -/

namespace Sys2Proof.Machine

/-! ### The end of an operation -/

@[simp] theorem finish_cfg (r : Res) (s : State) : (finish r s).cfg = s.cfg := rfl
@[simp] theorem finish_busOwn (r : Res) (s : State) : (finish r s).busOwn = s.busOwn := rfl
@[simp] theorem finish_seq (r : Res) (s : State) : (finish r s).seq = .idle := rfl
@[simp] theorem finish_regs (r : Res) (s : State) : (finish r s).regs = Config.freeRegs s.tick := rfl
@[simp] theorem finish_callerBuf (r : Res) (s : State) : (finish r s).callerBuf = s.callerBuf := rfl
@[simp] theorem finish_res (r : Res) (s : State) : (finish r s).res = r := rfl
@[simp] theorem finish_chip (r : Res) (s : State) : (finish r s).chip = s.chip := rfl
@[simp] theorem finish_hist (r : Res) (s : State) : (finish r s).hist = s.hist := rfl
@[simp] theorem finish_tick (r : Res) (s : State) : (finish r s).tick = s.tick + 1 := rfl
@[simp] theorem finish_inbox (r : Res) (s : State) : (finish r s).inbox = s.inbox := rfl
@[simp] theorem finish_answers (r : Res) (s : State) : (finish r s).answers = s.answers := rfl

@[simp] theorem returnOk_eq_finish (v : Data) (s : State) : returnOk v s = finish (.ok v) s := rfl
@[simp] theorem raiseTransport_eq_finish (e : TE) (s : State) : raiseTransport e s = finish (.transportErr e) s := rfl
@[simp] theorem raisePacket_eq_finish (f c : Bool) (s : State) : raisePacket f c s = finish (.packetErr f c) s := rfl

/-- Ending an operation discards whatever the operand registers held (R13). -/
theorem finish_forgets_regs (r : Res) (s : State) (x : Regs) : finish r { s with regs := x } = finish r s := rfl

/-! ### A reset of the block -/

@[simp] theorem resetBlock_cfg (s : State) : (resetBlock s).cfg = s.cfg := rfl
@[simp] theorem resetBlock_busOwn (s : State) : (resetBlock s).busOwn = true := rfl
@[simp] theorem resetBlock_seq (s : State) : (resetBlock s).seq = .idle := rfl
@[simp] theorem resetBlock_regs (s : State) : (resetBlock s).regs = Config.freeRegs s.tick := rfl
@[simp] theorem resetBlock_callerBuf (s : State) : (resetBlock s).callerBuf = s.callerBuf := rfl
@[simp] theorem resetBlock_res (s : State) : (resetBlock s).res = Config.freeRes s.tick := rfl
@[simp] theorem resetBlock_tick (s : State) : (resetBlock s).tick = s.tick + 1 := rfl
@[simp] theorem resetBlock_chip (s : State) : (resetBlock s).chip = s.chip := rfl
@[simp] theorem resetBlock_hist (s : State) : (resetBlock s).hist = [] := rfl
@[simp] theorem resetBlock_inbox (s : State) : (resetBlock s).inbox = s.inbox := rfl
@[simp] theorem resetBlock_answers (s : State) : (resetBlock s).answers = s.answers := rfl

/-! ### Chip updates -/

@[simp] theorem strobeMode_mode (m : Mode) (c : Chip) : (strobeMode m c).mode = m := rfl
@[simp] theorem strobeMode_rdPtr (m : Mode) (c : Chip) : (strobeMode m c).rdPtr = c.rdPtr := rfl
@[simp] theorem strobeMode_wrPtr (m : Mode) (c : Chip) : (strobeMode m c).wrPtr = c.wrPtr := rfl
@[simp] theorem strobeMode_rxfifo (m : Mode) (c : Chip) : (strobeMode m c).rxfifo = c.rxfifo := rfl
@[simp] theorem strobeMode_txfifo (m : Mode) (c : Chip) : (strobeMode m c).txfifo = c.txfifo := rfl
@[simp] theorem strobeMode_fecPass (m : Mode) (c : Chip) : (strobeMode m c).fecPass = c.fecPass := rfl
@[simp] theorem strobeMode_crcPass (m : Mode) (c : Chip) : (strobeMode m c).crcPass = c.crcPass := rfl
@[simp] theorem strobeMode_cat (m : Mode) (c : Chip) : (strobeMode m c).cat = c.cat := rfl

@[simp] theorem resetRdPtr_mode (c : Chip) : (resetRdPtr c).mode = c.mode := rfl
@[simp] theorem resetRdPtr_prior (c : Chip) : (resetRdPtr c).prior = c.prior := rfl
@[simp] theorem resetRdPtr_rdPtr (c : Chip) : (resetRdPtr c).rdPtr = 0 := rfl
@[simp] theorem resetRdPtr_wrPtr (c : Chip) : (resetRdPtr c).wrPtr = c.wrPtr := rfl
@[simp] theorem resetRdPtr_rxfifo (c : Chip) : (resetRdPtr c).rxfifo = c.rxfifo := rfl
@[simp] theorem resetRdPtr_txfifo (c : Chip) : (resetRdPtr c).txfifo = c.txfifo := rfl
@[simp] theorem resetRdPtr_fecPass (c : Chip) : (resetRdPtr c).fecPass = c.fecPass := rfl
@[simp] theorem resetRdPtr_crcPass (c : Chip) : (resetRdPtr c).crcPass = c.crcPass := rfl
@[simp] theorem resetRdPtr_cat (c : Chip) : (resetRdPtr c).cat = c.cat := rfl

@[simp] theorem resetWrPtr_mode (c : Chip) : (resetWrPtr c).mode = c.mode := rfl
@[simp] theorem resetWrPtr_prior (c : Chip) : (resetWrPtr c).prior = c.prior := rfl
@[simp] theorem resetWrPtr_rdPtr (c : Chip) : (resetWrPtr c).rdPtr = c.rdPtr := rfl
@[simp] theorem resetWrPtr_wrPtr (c : Chip) : (resetWrPtr c).wrPtr = 0 := rfl
@[simp] theorem resetWrPtr_rxfifo (c : Chip) : (resetWrPtr c).rxfifo = c.rxfifo := rfl
@[simp] theorem resetWrPtr_txfifo (c : Chip) : (resetWrPtr c).txfifo = c.txfifo := rfl
@[simp] theorem resetWrPtr_fecPass (c : Chip) : (resetWrPtr c).fecPass = c.fecPass := rfl
@[simp] theorem resetWrPtr_crcPass (c : Chip) : (resetWrPtr c).crcPass = c.crcPass := rfl
@[simp] theorem resetWrPtr_cat (c : Chip) : (resetWrPtr c).cat = c.cat := rfl

end Sys2Proof.Machine
end

