-- ==== Sys2Proof/Laws/Responder.lean ====
section
/-! SUPPORT. What the radio and each rule of the responder can do to the chip, said once. -/

namespace Sys2Proof.Machine

/-! ### The radio (R174) -/

@[simp] theorem radioActs_nil (cfg : Params) (c : Chip) : radioActs cfg [] c = c := rfl

/-- What the radio leaves alone. -/
theorem radioActs_keep (cfg : Params) (acts : List RadioAct) (c : Chip) :
    (radioActs cfg acts c).rdPtr = c.rdPtr ∧ (radioActs cfg acts c).wrPtr = c.wrPtr
      ∧ (radioActs cfg acts c).txfifo = c.txfifo ∧ (radioActs cfg acts c).prior = c.prior
      ∧ (radioActs cfg acts c).cat = c.cat := by
  induction acts generalizing c with
  | nil => exact ⟨rfl, rfl, rfl, rfl, rfl⟩
  | cons a t ih =>
    obtain ⟨h1, h2, h3, h4, h5⟩ := ih (radioAct cfg a c)
    rw [radioActs, h1, h2, h3, h4, h5]
    cases a <;> simp only [radioAct] <;> try split_ifs <;> simp
    all_goals simp

theorem radioActs_ok {cfg : Params} (acts : List RadioAct) {c : Chip} (h : ChipOk cfg.fifoDepth c) :
    ChipOk cfg.fifoDepth (radioActs cfg acts c) := by
  induction acts generalizing c with
  | nil => exact h
  | cons a t ih =>
    refine ih ?_
    obtain ⟨h1, h2, h3, h4, h5, h6⟩ := h
    cases a with
    | flags f k => exact ⟨h1, h2, h3, h4, h5, h6⟩
    | receive cells =>
      exact ⟨h1, h2, Memory.writeCells_wf _ _ h3, h4, Memory.writeCells_within _ h5, h6⟩
    | fallback =>
      simp only [radioAct]
      split_ifs
      · exact ⟨h1, h2, h3, h4, h5, h6⟩
      · exact ⟨h1, h2, h3, h4, h5, h6⟩

/-! ### Frames -/

theorem chipOfPicture_ok (depth : Nat) (p : ChipPicture) : ChipOk depth (chipOfPicture depth p) :=
  ⟨Nat.min_le_right .., Nat.min_le_right .., Memory.writeCells_wf _ _ Memory.wf_nil,
    Memory.writeCells_wf _ _ Memory.wf_nil, Memory.writeCells_within _ (Memory.within_nil _),
    Memory.writeCells_within _ (Memory.within_nil _)⟩

/-- Every legal chip state is one a picture stands for. -/
theorem chipOfPicture_of_ok {depth : Nat} {c : Chip} (h : ChipOk depth c) :
    chipOfPicture depth { mode := c.mode, prior := c.prior, rdPtr := c.rdPtr, wrPtr := c.wrPtr, rx := c.rxfifo, tx := c.txfifo,
                          fecPass := c.fecPass, crcPass := c.crcPass, cat := c.cat } = c := by
  obtain ⟨h1, h2, h3, h4, h5, h6⟩ := h
  simp only [chipOfPicture, Nat.min_eq_left h1, Nat.min_eq_left h2, Memory.writeCells_self h3 h5, Memory.writeCells_self h4 h6]

/-- Everything a rule of the responder can answer (R163 to R171). -/
theorem respond_cases {cfg : Params} {a : Answer} {f : FrameOp} {c c' : Chip} {bs : List Byte}
    (h : respond cfg a f c = .ok (bs, c')) :
    (f = .empty ∧ bs = [] ∧ c' = c)
    ∨ (∃ m, f = .strobe m ∧ bs = [] ∧ c' = strobeMode m c)
    ∨ (f = .rstRd ∧ bs = [] ∧ c' = resetRdPtr c)
    ∨ (f = .rstWr ∧ bs = [] ∧ c' = resetWrPtr c)
    ∨ (∃ n, f = .rxFifo n ∧ c.rdPtr + n ≤ cfg.fifoDepth ∧ bs = c.rxfifo.readBytes c.rdPtr n
        ∧ c' = { c with rdPtr := c.rdPtr + n })
    ∨ (∃ p, f = .txFifo p ∧ c.wrPtr + p.length ≤ cfg.fifoDepth ∧ bs = []
        ∧ c' = { c with txfifo := c.txfifo.writeBytes c.wrPtr p, wrPtr := c.wrPtr + p.length })
    ∨ (f = .reset ∧ bs = [] ∧ c' = resetChip cfg a.pick a.chip)
    ∨ (f = .regRead cfg.statusAddr 1 ∧ bs = [statusPayload cfg c.fecPass c.crcPass (a.bytes.headD 0)] ∧ c' = c)
    ∨ (∃ addr n, f = .regRead addr n ∧ addr ≠ cfg.statusAddr ∧ lengthFits cfg true addr n = true ∧ bs = padTo n a.bytes
        ∧ c' = { c with cat := a.cat })
    ∨ (∃ addr p, f = .regWrite addr p ∧ lengthFits cfg false addr p.length = true ∧ bs = []
        ∧ c' = { c with cat := a.cat }) := by
  cases f with
  | empty => simp only [respond, Except.ok.injEq, Prod.mk.injEq] at h; exact .inl ⟨rfl, h.1.symm, h.2.symm⟩
  | strobe m => simp only [respond, Except.ok.injEq, Prod.mk.injEq] at h; exact .inr (.inl ⟨m, rfl, h.1.symm, h.2.symm⟩)
  | rstRd => simp only [respond, Except.ok.injEq, Prod.mk.injEq] at h; simp [← h.1, ← h.2]
  | rstWr => simp only [respond, Except.ok.injEq, Prod.mk.injEq] at h; simp [← h.1, ← h.2]
  | rxFifo n =>
    simp only [respond, readFifo] at h
    split_ifs at h with hn
    simp only [Except.ok.injEq, Prod.mk.injEq] at h
    simp [← h.1, ← h.2, hn]
  | txFifo p =>
    simp only [respond, writeFifo] at h
    split_ifs at h with hn
    simp only [Except.ok.injEq, Prod.mk.injEq] at h
    simp [← h.1, ← h.2, hn]
  | reset => simp only [respond, Except.ok.injEq, Prod.mk.injEq] at h; simp [← h.1, ← h.2]
  | regRead addr n =>
    simp only [respond, readRegister] at h
    split_ifs at h with ha hn hl
    · simp only [Except.ok.injEq, Prod.mk.injEq] at h
      simp only [statusWidth] at hn
      simp [← h.1, ← h.2, ha, hn]
    · simp only [Except.ok.injEq, Prod.mk.injEq] at h
      simp [← h.1, ← h.2, ha, hl]
  | regWrite addr p =>
    simp only [respond, writeRegister] at h
    split_ifs at h with hl
    simp only [Except.ok.injEq, Prod.mk.injEq] at h
    simp [← h.1, ← h.2, hl]

theorem respond_ok {cfg : Params} {a : Answer} {f : FrameOp} {c c' : Chip} {bs : List Byte}
    (h : respond cfg a f c = .ok (bs, c')) (hc : ChipOk cfg.fifoDepth c) : ChipOk cfg.fifoDepth c' := by
  obtain ⟨h1, h2, h3, h4, h5, h6⟩ := hc
  rcases respond_cases h with ⟨-, -, rfl⟩ | ⟨m, -, -, rfl⟩ | ⟨-, -, rfl⟩ | ⟨-, -, rfl⟩ | ⟨n, -, hn, -, rfl⟩ |
    ⟨p, -, hp, -, rfl⟩ | ⟨-, -, rfl⟩ | ⟨-, -, rfl⟩ | ⟨_, n, -, -, -, -, rfl⟩ | ⟨_, p, -, -, -, rfl⟩
  · exact ⟨h1, h2, h3, h4, h5, h6⟩
  · exact ⟨h1, h2, h3, h4, h5, h6⟩
  · exact ⟨Nat.zero_le _, h2, h3, h4, h5, h6⟩
  · exact ⟨h1, Nat.zero_le _, h3, h4, h5, h6⟩
  · exact ⟨hn, h2, h3, h4, h5, h6⟩
  · exact ⟨h1, hp, h3, Memory.writeBytes_wf _ _ h4, h5, Memory.writeBytes_within hp h6⟩
  · exact chipOfPicture_ok _ _
  · exact ⟨h1, h2, h3, h4, h5, h6⟩
  · exact ⟨h1, h2, h3, h4, h5, h6⟩
  · exact ⟨h1, h2, h3, h4, h5, h6⟩

/-- A broken-off frame leaves what a whole frame's rule leaves, or only the catalog changed (R102). -/
theorem respondBroken_cases {cfg : Params} {a : Answer} {f : FrameOp} {c c' : Chip}
    (h : respondBroken cfg a f c = .ok c') :
    c' = c ∨ c' = { c with cat := a.cat } ∨ ∃ bs, respond cfg a f c = .ok (bs, c') := by
  cases f with
  | regRead addr n =>
    simp only [respondBroken, Except.ok.injEq] at h
    split_ifs at h
    · exact .inl h.symm
    · exact .inr (.inl h.symm)
  | regWrite addr p => simp only [respondBroken, Except.ok.injEq] at h; exact .inr (.inl h.symm)
  | empty | strobe m | rstRd | rstWr | rxFifo n | txFifo p | reset =>
    simp only [respondBroken] at h
    split at h
    · rename_i bs c2 he
      cases h
      exact .inr (.inr ⟨bs, he⟩)
    · cases h

theorem receiveWhole_cases {cfg : Params} {a : Answer} {ops : List Op} {c c' : Chip} {bs : List Byte}
    (h : receiveWhole cfg a ops c = .ok (bs, c')) :
    ∃ f, frameOf ops = .ok f ∧ respond cfg a f c = .ok (bs, c') := by
  unfold receiveWhole at h
  split at h
  · rename_i f hf
    exact ⟨f, hf, h⟩
  · cases h

theorem receiveBroken_ok {cfg : Params} {a : Answer} {ops : List Op} {k : Nat} {c c' : Chip}
    (h : receiveBroken cfg a ops k c = .ok c') (hc : ChipOk cfg.fifoDepth c) : ChipOk cfg.fifoDepth c' := by
  unfold receiveBroken at h
  split_ifs at h
  · split at h
    · rename_i bs c2 hw
      cases h
      obtain ⟨f, -, hf⟩ := receiveWhole_cases hw
      exact respond_ok hf hc
    · cases h
  · split at h
    · rename_i f hf
      rcases respondBroken_cases h with rfl | rfl | ⟨bs, hr⟩
      · exact hc
      · exact hc
      · exact respond_ok hr hc
    · cases h

@[simp] theorem errorOf_none {cfg : Params} (h : cfg.te = none) (e : TE) : errorOf cfg e = e := by
  unfold errorOf; rw [h]

@[simp] theorem chipTransact_reference {cfg : Params} (h : cfg.responder = .reference) (a : Answer) (ops : List Op) (c : Chip) :
    chipTransact cfg a ops c = referenceTransact cfg a ops c := by
  unfold chipTransact; rw [h]

@[simp] theorem chipTransact_given {cfg : Params} (h : cfg.responder = .given) (a : Answer) (ops : List Op) (c : Chip) :
    chipTransact cfg a ops c = .ok (givenTransact cfg a ops) := by
  unfold chipTransact; rw [h]

/-- A rule returns as many bytes as the frame reads. -/
theorem respond_length {cfg : Params} {a : Answer} {op : FrameOp} {c c' : Chip} {bs : List Byte} {f : Frame}
    (hd : decodeFrame f = .ok op) (h : respond cfg a op c = .ok (bs, c')) : bs.length = f.rd := by
  obtain ⟨out, rd⟩ := f
  cases out with
  | nil =>
    simp only [decodeFrame] at hd
    split_ifs at hd with h0
    cases hd
    simp only [respond, Except.ok.injEq, Prod.mk.injEq] at h
    simp [← h.1, h0]
  | cons b p =>
    simp only [decodeFrame] at hd
    by_cases h7 : b.getLsbD 7 = true
    · rw [if_pos h7] at hd
      by_cases hx : p ≠ [] ∨ rd ≠ 0
      · rw [if_pos hx] at hd; cases hd
      · rw [if_neg hx] at hd
        have hr : rd = 0 := by by_contra h; exact hx (.inr h)
        cases hm : modeOf b with
        | some m =>
          rw [hm] at hd; cases hd
          simp only [respond, Except.ok.injEq, Prod.mk.injEq] at h
          simp [← h.1, hr]
        | none =>
          rw [hm] at hd
          simp only at hd
          split_ifs at hd <;> cases hd <;> simp only [respond, Except.ok.injEq, Prod.mk.injEq] at h <;> simp [← h.1, hr]
    · rw [if_neg h7] at hd
      split_ifs at hd <;> cases hd
      · simp only [respond, readFifo] at h; split_ifs at h; cases h; simp
      · rename_i h0; simp only [respond, writeFifo] at h; split_ifs at h; cases h; simp [h0]
      · rename_i h0; simp only [respond, Except.ok.injEq, Prod.mk.injEq] at h; simp [← h.1, h0.2.2]
      · simp only [respond, readRegister] at h; split_ifs at h with q1 q2 <;> cases h <;> simp_all [statusWidth]
      · rename_i h0; simp only [respond, writeRegister] at h; split_ifs at h; cases h; simp [h0]

theorem flattenFrom_rd {f g : Frame} {ops : List Op} (h : flattenFrom f ops = some g) : g.rd = f.rd + readSize ops := by
  induction ops generalizing f with
  | nil => cases h; rfl
  | cons o t ih =>
    cases o with
    | write w => simp only [flattenFrom] at h; split_ifs at h; simpa using ih h
    | read n => have := ih h; simp only [readSize_read] at *; omega

/-- A frame received whole returns as many bytes as the transaction reads. -/
theorem receiveWhole_length {cfg : Params} {a : Answer} {ops : List Op} {c c' : Chip} {bs : List Byte}
    (h : receiveWhole cfg a ops c = .ok (bs, c')) : bs.length = readSize ops := by
  obtain ⟨f, hf, hr⟩ := receiveWhole_cases h
  unfold frameOf at hf
  split at hf
  · cases hf
  · rename_i g hg
    split at hf
    · rename_i op hd
      cases hf
      rw [respond_length hd hr, flattenFrom_rd hg]
      simp
    · cases hf

/-- What a transaction can come to under the reference responder (R162). -/
theorem referenceTransact_cases {cfg : Params} {a : Answer} {ops : List Op} {c c' : Chip} {o : BusOutcome}
    (h : referenceTransact cfg a ops c = .ok (o, c')) :
    (∃ bs, a.fault = none ∧ receiveWhole cfg a ops (radioActs cfg a.radio c) = .ok (bs, c') ∧ o = .ok (splitReads ops bs))
    ∨ (∃ e k, a.fault = some (e, k) ∧ receiveBroken cfg a ops k (radioActs cfg a.radio c) = .ok c'
        ∧ o = .err (errorOf cfg e)) := by
  unfold referenceTransact at h
  simp only at h
  split at h
  · rename_i hf
    split at h
    · rename_i bs c2 hw
      cases h
      exact .inl ⟨bs, hf, hw, rfl⟩
    · cases h
  · rename_i e k hf
    split at h
    · rename_i c2 hb
      cases h
      exact .inr ⟨e, k, hf, hb, rfl⟩
    · cases h

/-- What a transaction can come to under a given responder (R104). -/
theorem givenTransact_cases {cfg : Params} {a : Answer} {ops : List Op} {c' : Chip} {o : BusOutcome}
    (h : givenTransact cfg a ops = (o, c')) :
    c' = chipOfPicture cfg.fifoDepth a.chip
      ∧ ((a.fault = none ∧ o = .ok (splitReads ops (padTo (readSize ops) a.bytes)))
        ∨ ∃ e k, a.fault = some (e, k) ∧ o = .err (errorOf cfg e)) := by
  unfold givenTransact at h
  simp only at h
  split at h
  · rename_i hf
    cases h
    exact ⟨rfl, .inl ⟨hf, rfl⟩⟩
  · rename_i e k hf
    cases h
    exact ⟨rfl, .inr ⟨e, k, hf, rfl⟩⟩

/-- What a transaction at the far end can come to (R104), whichever the responder. -/
theorem chipTransact_cases {cfg : Params} {a : Answer} {ops : List Op} {c c' : Chip} {o : BusOutcome}
    (h : chipTransact cfg a ops c = .ok (o, c')) :
    (cfg.responder = .reference ∧ referenceTransact cfg a ops c = .ok (o, c'))
    ∨ (cfg.responder = .given ∧ givenTransact cfg a ops = (o, c')) := by
  unfold chipTransact at h
  split at h
  · exact .inl ⟨‹_›, h⟩
  · exact .inr ⟨‹_›, Except.ok.inj h⟩

/-- A transaction that goes through returns its bytes, as many as it reads, cut into its buffers, whichever the responder. -/
theorem chipTransact_reads {cfg : Params} {a : Answer} {ops : List Op} {c c' : Chip} {r : List (List Byte)}
    (h : chipTransact cfg a ops c = .ok (.ok r, c')) : ∃ bs : List Byte, bs.length = readSize ops ∧ r = splitReads ops bs := by
  rcases chipTransact_cases h with ⟨-, h⟩ | ⟨-, h⟩
  · rcases referenceTransact_cases h with ⟨bs, -, hw, ho⟩ | ⟨e, k, -, -, ho⟩
    · cases ho; exact ⟨bs, receiveWhole_length hw, rfl⟩
    · cases ho
  · obtain ⟨-, ⟨-, ho⟩ | ⟨e, k, -, ho⟩⟩ := givenTransact_cases h
    · cases ho; exact ⟨_, padTo_length _ _, rfl⟩
    · cases ho

theorem referenceTransact_ok {cfg : Params} {a : Answer} {ops : List Op} {c c' : Chip} {o : BusOutcome}
    (h : referenceTransact cfg a ops c = .ok (o, c')) (hc : ChipOk cfg.fifoDepth c) : ChipOk cfg.fifoDepth c' := by
  rcases referenceTransact_cases h with ⟨bs, -, hw, -⟩ | ⟨e, k, -, hb, -⟩
  · obtain ⟨f, -, hf⟩ := receiveWhole_cases hw
    exact respond_ok hf (radioActs_ok _ hc)
  · exact receiveBroken_ok hb (radioActs_ok _ hc)

/-- The far end leaves a legal chip state, whichever the responder. -/
theorem chipTransact_ok {cfg : Params} {a : Answer} {ops : List Op} {c c' : Chip} {o : BusOutcome}
    (h : chipTransact cfg a ops c = .ok (o, c')) (hc : ChipOk cfg.fifoDepth c) : ChipOk cfg.fifoDepth c' := by
  rcases chipTransact_cases h with ⟨-, h⟩ | ⟨-, h⟩
  · exact referenceTransact_ok h hc
  · obtain ⟨rfl, -⟩ := givenTransact_cases h
    exact chipOfPicture_ok _ _

/-! ### The test responder's Reset (R178) -/

/-- A family has the test responder's reset state as a member exactly where some draw gives it. -/
theorem hasTestReset_iff (cfg : Params) (p : ChipPattern) : hasTestReset cfg p = true ↔
    ∃ draw, chipOfPicture cfg.fifoDepth (p.fill draw) = chipOfPicture cfg.fifoDepth testResetPicture := by
  refine ⟨fun h => ⟨testResetPicture, of_decide_eq_true h⟩, fun ⟨draw, h⟩ => decide_eq_true ?_⟩
  obtain ⟨m, q, r, w, rx, tx, f, c, k⟩ := p
  simp only [chipOfPicture, ChipPattern.fill, Chip.mk.injEq] at h ⊢
  obtain ⟨h1, h2, h3, h4, h5, h6, h7, h8, h9⟩ := h
  refine ⟨?_, ?_, ?_, ?_, ?_, ?_, ?_, ?_, ?_⟩
  · cases m <;> simp_all
  · cases q <;> simp_all
  · cases r <;> simp_all
  · cases w <;> simp_all
  · cases rx <;> simp_all
  · cases tx <;> simp_all
  · cases f <;> simp_all
  · cases c <;> simp_all
  · cases k <;> simp_all

/-- Where that state is in CHIP_RESET, the test responder's Reset sets it (R178). -/
theorem resetChip_testPick (cfg : Params) (h : cfg.chipReset = [] ∨ ∃ p ∈ cfg.chipReset, hasTestReset cfg p = true) :
    resetChip cfg (testPick cfg) testResetPicture = chipOfPicture cfg.fifoDepth testResetPicture := by
  simp only [resetChip, resetPicture, testPick]
  split
  · rfl
  · rename_i p t hc
    rw [hc] at h
    have hex : ∃ x ∈ p :: t, hasTestReset cfg x = true := h.resolve_left (by simp)
    have hlt := List.findIdx_lt_length_of_exists hex
    have := List.findIdx_getElem (w := hlt)
    rw [hc, List.getD_eq_getElem _ _ hlt]
    exact of_decide_eq_true this

end Sys2Proof.Machine
end

