-- ==== Sys2Proof/Laws/Bus.lean ====
section
/-! SUPPORT. What the transaction primitive, the start of an operation and each position of the sequencer can answer. -/

namespace Sys2Proof.Machine

/-- An answered transaction (R91, R101). -/
theorem busTransact_answered {s s' : State} {ops : List Op} {reads : List (List Byte)}
    (h : busTransact s ops = .answered reads s') :
    ∃ a rest c, s.answers = a :: rest ∧ chipTransact s.cfg a ops s.chip = .ok (.ok reads, c)
      ∧ s' = { s with chip := c, answers := rest, hist := s.hist ++ [{ ops := ops, outcome := .ok reads, by_ := s.regs.opr }] } := by
  unfold busTransact at h
  split at h
  · cases h
  · rename_i a rest ha
    split at h
    · cases h
    · rename_i r c hc
      cases h
      exact ⟨a, rest, c, ha, hc, rfl⟩
    · cases h

/-- A failed transaction (R91, R96, R101). -/
theorem busTransact_failed {s s' : State} {ops : List Op} {e : TE} {a : Answer}
    (h : busTransact s ops = .failed e a s') :
    ∃ rest c, s.answers = a :: rest ∧ chipTransact s.cfg a ops s.chip = .ok (.err e, c)
      ∧ s' = { s with chip := c, answers := rest, hist := s.hist ++ [{ ops := ops, outcome := .err e, by_ := s.regs.opr }] } := by
  unfold busTransact at h
  split at h
  · cases h
  · rename_i a' rest ha
    split at h
    · cases h
    · cases h
    · rename_i e' c hc
      cases h
      exact ⟨rest, c, ha, hc, rfl⟩

/-- The next answer taken (R91, R101): the transaction goes through, or fails. -/
theorem busTransact_of_ok {s : State} {a : Answer} {rest : List Answer} {ops : List Op} {reads : List (List Byte)} {c : Chip}
    (ha : s.answers = a :: rest) (hc : chipTransact s.cfg a ops s.chip = .ok (.ok reads, c)) :
    busTransact s ops = .answered reads
      { s with chip := c, answers := rest, hist := s.hist ++ [{ ops := ops, outcome := .ok reads, by_ := s.regs.opr }] } := by
  unfold busTransact; rw [ha]; simp only [hc]

theorem busTransact_of_err {s : State} {a : Answer} {rest : List Answer} {ops : List Op} {e : TE} {c : Chip}
    (ha : s.answers = a :: rest) (hc : chipTransact s.cfg a ops s.chip = .ok (.err e, c)) :
    busTransact s ops = .failed e a
      { s with chip := c, answers := rest, hist := s.hist ++ [{ ops := ops, outcome := .err e, by_ := s.regs.opr }] } := by
  unfold busTransact; rw [ha]; simp only [hc]

/-- A transaction that is not answered (R100). -/
theorem busTransact_waits {s : State} {ops : List Op} : busTransact s ops = .waits ↔ s.answers = [] := by
  unfold busTransact
  constructor
  · intro h
    split at h
    · assumption
    · split at h <;> cases h
  · intro h
    rw [h]

/-- What follows a transaction (R151). -/
theorem afterBus_next {s t : State} {r : BusResult} {fail : TE → Answer → State → Result}
    {ok : List (List Byte) → State → Result} (h : afterBus s r fail ok = .next t) :
    (r = .waits ∧ t = s) ∨ (∃ e a s', r = .failed e a s' ∧ fail e a s' = .next t)
      ∨ (∃ reads s', r = .answered reads s' ∧ ok reads s' = .next t) := by
  cases r with
  | waits => cases h; exact .inl ⟨rfl, rfl⟩
  | refused why => cases h
  | failed e a s' => exact .inr (.inl ⟨e, a, s', rfl, h⟩)
  | answered reads s' => exact .inr (.inr ⟨reads, s', rfl, h⟩)

/-- A position whose transaction is followed only by next states never faults. -/
theorem afterBus_fault {s : State} {r : BusResult} {fail : TE → Answer → State → Result}
    {ok : List (List Byte) → State → Result} {x : Fault} (h : afterBus s r fail ok = .fault x) :
    (∃ e a s', r = .failed e a s' ∧ fail e a s' = .fault x) ∨ (∃ reads s', r = .answered reads s' ∧ ok reads s' = .fault x) := by
  cases r with
  | waits => cases h
  | refused why => cases h
  | failed e a s' => exact .inl ⟨e, a, s', rfl, h⟩
  | answered reads s' => exact .inr ⟨reads, s', rfl, h⟩

/-- An operation starts only from IDLE (R11). -/
theorem accept_next {s t : State} {q : Seq} {r : Regs} {k : State → Result} (h : accept s q r k = .next t) :
    s.seq = .idle ∧ k { s with seq := q, regs := r } = .next t := by
  unfold accept at h
  split_ifs at h with hs
  exact ⟨hs, h⟩

@[simp] theorem accept_of_idle {s : State} (hs : s.seq = .idle) (q : Seq) (r : Regs) (k : State → Result) :
    accept s q r k = k { s with seq := q, regs := r } := by
  unfold accept; rw [if_pos hs]

theorem accept_of_busy {s : State} (hs : s.seq ≠ .idle) (q : Seq) (r : Regs) (k : State → Result) :
    accept s q r k = .refused .operationInProgress := by
  unfold accept; rw [if_neg hs]

theorem require_next {flaw : Option OperandFlaw} {k : Result} {t : State} (h : require flaw k = .next t) :
    flaw = none ∧ k = .next t := by
  cases flaw with
  | none => exact ⟨rfl, h⟩
  | some w => cases h

@[simp] theorem require_none (k : Result) : require none k = k := rfl

@[simp] theorem failPlain_eq (e : TE) (a : Answer) (s : State) : failPlain e a s = .next (raiseTransport e s) := rfl

@[simp] theorem failRx_eq (e : TE) (a : Answer) (s : State) :
    failRx e a s = .next (raiseTransport e { s with callerBuf := padTo s.regs.len a.bytes }) := rfl

/-! ### Whole operations -/

/-- An ended operation takes no more steps. -/
@[simp] theorem runOn_idle {s : State} (hs : s.seq = .idle) (n : Nat) : runOn n (.next s) = .next s := by
  cases n with
  | zero => rfl
  | succ n => unfold runOn; rw [if_pos hs]

theorem runOn_busy {s : State} (hs : s.seq ≠ .idle) (n : Nat) : runOn (n + 1) (.next s) = runOn n (step s) := by
  rw [runOn, if_neg hs]

@[simp] theorem runOn_zero (r : Result) : runOn 0 r = r := by cases r <;> rfl
@[simp] theorem runOn_refused (n : Nat) (why : Refusal) : runOn n (.refused why) = .refused why := by cases n <;> rfl
@[simp] theorem runOn_fault (n : Nat) (x : Fault) : runOn n (.fault x) = .fault x := by cases n <;> rfl

/-- A step during an operation is the operation's next position (R15), unless a reset of the block waits (R215). -/
theorem step_of_busy {s : State} (hs : s.seq ≠ .idle) (hr : resetWaits s = false) : step s = resume s := by
  unfold step nextStep goOn
  rw [if_neg hs, hr]
  rfl

end Sys2Proof.Machine
end

