-- ==== Sys2Proof/Laws/Decode.lean ====
section
/-! SUPPORT. What each reader of operand words reads from the words its writer writes. -/

namespace Sys2Proof

@[simp] theorem takeByte_toNat (b : Byte) (r : List Nat) : takeByte (b.toNat :: r) = some (b, r) := by
  have h : b.toNat < 256 := b.isLt
  simp [takeByte, h]

/-- Reading many things written one after another, if one thing is read back from what is written. -/
theorem takeMany_flatMap {α : Type} (p : Parse α) (w : α → List Nat) (xs : List α) (r : List Nat)
    (h : ∀ x ∈ xs, ∀ r, p (w x ++ r) = some (x, r)) : takeMany p xs.length (xs.flatMap w ++ r) = some (xs, r) := by
  induction xs with
  | nil => rfl
  | cons x t ih =>
    have ht := ih fun y hy => h y (List.mem_cons_of_mem _ hy)
    rw [List.flatMap_cons, List.append_assoc, List.length_cons, takeMany, h x (List.mem_cons_self ..)]
    simp only [ht]

theorem takeMany_bytes (b : List Byte) (r : List Nat) : takeMany takeByte b.length (byteWords b ++ r) = some (b, r) := by
  have h := takeMany_flatMap takeByte (fun x => [x.toNat]) b r (fun x _ r => by simp)
  rwa [show b.flatMap (fun x => [x.toNat]) = byteWords b from (List.map_eq_flatMap ..).symm] at h

theorem takeList_name (n : FieldName) (r : List Nat) : takeList takeByte (nameWords n ++ r) = some (n, r) :=
  takeMany_bytes n r

end Sys2Proof
end

