-- ==== Sys2Proof/Laws/PerInstr.lean ====
section
/-! SUPPORT. One lemma per instruction: the first byte of its encoding is the one spec/opcode_table.json gives its row. -/

namespace Sys2Proof.Laws.OpcodeMatch

/-- A row's match and mask, as spec/opcode_table.json has them (of FRAME.RESET's two bytes, the first). -/
def row : Instr → Byte × Byte
  | .enc1 _ => (0x01, 0xFF)
  | .enc2 _ => (0x02, 0xFF)
  | .enc4 _ => (0x04, 0xFF)
  | .dec1 _ => (0x11, 0xFF)
  | .dec2 _ => (0x12, 0xFF)
  | .dec4 _ => (0x14, 0xFF)
  | .fins _ _ _ _ _ => (0x18, 0xFF)
  | .fext _ _ _ _ => (0x19, 0xFF)
  | .transact _ => (0x20, 0xFF)
  | .bwrite _ => (0x21, 0xFF)
  | .rdreg1 _ => (0x31, 0xFF)
  | .rdreg2 _ => (0x32, 0xFF)
  | .rdreg4 _ => (0x34, 0xFF)
  | .wrreg1 _ _ => (0x41, 0xFF)
  | .wrreg2 _ _ => (0x42, 0xFF)
  | .wrreg4 _ _ => (0x44, 0xFF)
  | .setmodeSleep => (0x50, 0xFF)
  | .setmodeIdle => (0x51, 0xFF)
  | .setmodeStandby => (0x52, 0xFF)
  | .setmodePll => (0x53, 0xFF)
  | .setmodeRx => (0x54, 0xFF)
  | .setmodeTx => (0x55, 0xFF)
  | .cmdReset => (0x60, 0xFF)
  | .cmdRstrd => (0x61, 0xFF)
  | .cmdRstwr => (0x62, 0xFF)
  | .rx _ => (0x70, 0xFF)
  | .tx _ => (0x71, 0xFF)
  | .frameRegwrite _ _ => (0x00, 0xC0)
  | .frameRegread _ _ => (0x40, 0xC0)
  | .frameTxfifo _ => (0x05, 0xFF)
  | .frameRxfifo _ => (0x45, 0xFF)
  | .frameReset => (0x00, 0xFF)
  | .strobeSleep => (0x80, 0xFF)
  | .strobeIdle => (0x90, 0xFF)
  | .strobeStandby => (0xA0, 0xFF)
  | .strobePll => (0xB0, 0xFF)
  | .strobeRx => (0xC0, 0xFF)
  | .strobeTx => (0xD0, 0xFF)
  | .strobeRstwr => (0xE0, 0xFF)
  | .strobeRstrd => (0xF0, 0xFF)

/-- The first byte of an instruction word. -/
def firstByte : InstrWord → Option Byte
  | .request code _ => some code
  | .frame f => f.out.head?

/-- The first byte of the instruction's encoding has the row's match under the row's mask. -/
def Statement (i : Instr) : Prop := ∃ b, firstByte (encode i) = some b ∧ b &&& (row i).2 = (row i).1

theorem enc1 (u : BitVec 8) : Statement (.enc1 u) := ⟨_, rfl, by show 0x01#8 &&& 0xFF#8 = 0x01#8; decide⟩
theorem enc2 (u : BitVec 16) : Statement (.enc2 u) := ⟨_, rfl, by show 0x02#8 &&& 0xFF#8 = 0x02#8; decide⟩
theorem enc4 (u : BitVec 32) : Statement (.enc4 u) := ⟨_, rfl, by show 0x04#8 &&& 0xFF#8 = 0x04#8; decide⟩
theorem dec1 (b : List Byte) : Statement (.dec1 b) := ⟨_, rfl, by show 0x11#8 &&& 0xFF#8 = 0x11#8; decide⟩
theorem dec2 (b : List Byte) : Statement (.dec2 b) := ⟨_, rfl, by show 0x12#8 &&& 0xFF#8 = 0x12#8; decide⟩
theorem dec4 (b : List Byte) : Statement (.dec4 b) := ⟨_, rfl, by show 0x14#8 &&& 0xFF#8 = 0x14#8; decide⟩
theorem fins (n : Nat) (c : Nat) (lo : Nat) (w : Nat) (v : Nat) : Statement (.fins n c lo w v) := ⟨_, rfl, by show 0x18#8 &&& 0xFF#8 = 0x18#8; decide⟩
theorem fext (n : Nat) (c : Nat) (lo : Nat) (w : Nat) : Statement (.fext n c lo w) := ⟨_, rfl, by show 0x19#8 &&& 0xFF#8 = 0x19#8; decide⟩
theorem transact (ops : List Op) : Statement (.transact ops) := ⟨_, rfl, by show 0x20#8 &&& 0xFF#8 = 0x20#8; decide⟩
theorem bwrite (b : List Byte) : Statement (.bwrite b) := ⟨_, rfl, by show 0x21#8 &&& 0xFF#8 = 0x21#8; decide⟩
theorem rdreg1 (d : Descriptor) : Statement (.rdreg1 d) := ⟨_, rfl, by show 0x31#8 &&& 0xFF#8 = 0x31#8; decide⟩
theorem rdreg2 (d : Descriptor) : Statement (.rdreg2 d) := ⟨_, rfl, by show 0x32#8 &&& 0xFF#8 = 0x32#8; decide⟩
theorem rdreg4 (d : Descriptor) : Statement (.rdreg4 d) := ⟨_, rfl, by show 0x34#8 &&& 0xFF#8 = 0x34#8; decide⟩
theorem wrreg1 (d : Descriptor) (v : TypedValue) : Statement (.wrreg1 d v) := ⟨_, rfl, by show 0x41#8 &&& 0xFF#8 = 0x41#8; decide⟩
theorem wrreg2 (d : Descriptor) (v : TypedValue) : Statement (.wrreg2 d v) := ⟨_, rfl, by show 0x42#8 &&& 0xFF#8 = 0x42#8; decide⟩
theorem wrreg4 (d : Descriptor) (v : TypedValue) : Statement (.wrreg4 d v) := ⟨_, rfl, by show 0x44#8 &&& 0xFF#8 = 0x44#8; decide⟩
theorem setmodeSleep : Statement .setmodeSleep := ⟨_, rfl, by show 0x50#8 &&& 0xFF#8 = 0x50#8; decide⟩
theorem setmodeIdle : Statement .setmodeIdle := ⟨_, rfl, by show 0x51#8 &&& 0xFF#8 = 0x51#8; decide⟩
theorem setmodeStandby : Statement .setmodeStandby := ⟨_, rfl, by show 0x52#8 &&& 0xFF#8 = 0x52#8; decide⟩
theorem setmodePll : Statement .setmodePll := ⟨_, rfl, by show 0x53#8 &&& 0xFF#8 = 0x53#8; decide⟩
theorem setmodeRx : Statement .setmodeRx := ⟨_, rfl, by show 0x54#8 &&& 0xFF#8 = 0x54#8; decide⟩
theorem setmodeTx : Statement .setmodeTx := ⟨_, rfl, by show 0x55#8 &&& 0xFF#8 = 0x55#8; decide⟩
theorem cmdReset : Statement .cmdReset := ⟨_, rfl, by show 0x60#8 &&& 0xFF#8 = 0x60#8; decide⟩
theorem cmdRstrd : Statement .cmdRstrd := ⟨_, rfl, by show 0x61#8 &&& 0xFF#8 = 0x61#8; decide⟩
theorem cmdRstwr : Statement .cmdRstwr := ⟨_, rfl, by show 0x62#8 &&& 0xFF#8 = 0x62#8; decide⟩
theorem rx (len : Nat) : Statement (.rx len) := ⟨_, rfl, by show 0x70#8 &&& 0xFF#8 = 0x70#8; decide⟩
theorem tx (buf : List Byte) : Statement (.tx buf) := ⟨_, rfl, by show 0x71#8 &&& 0xFF#8 = 0x71#8; decide⟩
theorem frameRegwrite (a : BitVec 6) (p : List Byte) : Statement (.frameRegwrite a p) := ⟨a.setWidth 8, rfl, by show a.setWidth 8 &&& 0xC0#8 = 0x00#8; revert a; decide⟩
theorem frameRegread (a : BitVec 6) (n : Nat) : Statement (.frameRegread a n) := ⟨a.setWidth 8 ||| 0x40, rfl, by show (a.setWidth 8 ||| 0x40#8) &&& 0xC0#8 = 0x40#8; revert a; decide⟩
theorem frameTxfifo (p : List Byte) : Statement (.frameTxfifo p) := ⟨_, rfl, by show 0x05#8 &&& 0xFF#8 = 0x05#8; decide⟩
theorem frameRxfifo (n : Nat) : Statement (.frameRxfifo n) := ⟨_, rfl, by show 0x45#8 &&& 0xFF#8 = 0x45#8; decide⟩
theorem frameReset : Statement .frameReset := ⟨_, rfl, by show 0x00#8 &&& 0xFF#8 = 0x00#8; decide⟩
theorem strobeSleep : Statement .strobeSleep := ⟨_, rfl, by show 0x80#8 &&& 0xFF#8 = 0x80#8; decide⟩
theorem strobeIdle : Statement .strobeIdle := ⟨_, rfl, by show 0x90#8 &&& 0xFF#8 = 0x90#8; decide⟩
theorem strobeStandby : Statement .strobeStandby := ⟨_, rfl, by show 0xA0#8 &&& 0xFF#8 = 0xA0#8; decide⟩
theorem strobePll : Statement .strobePll := ⟨_, rfl, by show 0xB0#8 &&& 0xFF#8 = 0xB0#8; decide⟩
theorem strobeRx : Statement .strobeRx := ⟨_, rfl, by show 0xC0#8 &&& 0xFF#8 = 0xC0#8; decide⟩
theorem strobeTx : Statement .strobeTx := ⟨_, rfl, by show 0xD0#8 &&& 0xFF#8 = 0xD0#8; decide⟩
theorem strobeRstwr : Statement .strobeRstwr := ⟨_, rfl, by show 0xE0#8 &&& 0xFF#8 = 0xE0#8; decide⟩
theorem strobeRstrd : Statement .strobeRstrd := ⟨_, rfl, by show 0xF0#8 &&& 0xFF#8 = 0xF0#8; decide⟩

end Sys2Proof.Laws.OpcodeMatch
end

