-- ==== Sys2Proof/Tests/Slice0.lean ====
section
/-! SUPPORT. The author's own tests. Expected results come from spec/95_test_vectors.md (named by its tables) and from the
encoding tables of 30_encoding.md; the far end is R178's test responder unless a test scripts it. The witnesses at the end
show, for each statement with hypotheses, a state and operands that meet all of them. -/

namespace Sys2Proof.Tests

open Sys2Proof.Machine Sys2Proof.Spec

/-! ### Helpers -/

/-- The state after an instruction that gives a next state. -/
def after (r : Result) : Option State :=
  match r with
  | .next s => some s
  | _ => none

/-- RES after an instruction. -/
def resOf (r : Result) : Option Res := (after r).map (fun t => t.res)

/-- H after an instruction, without the operation codes. -/
def histOf (r : Result) : Option (List (List Op × BusOutcome)) :=
  (after r).map (fun t => t.hist.map (fun e => (e.ops, e.outcome)))

/-- The chip after an instruction. -/
def chipOf (r : Result) : Option Chip := (after r).map (fun t => t.chip)

/-- Why an instruction was refused. -/
def refusalOf (r : Result) : Option Refusal :=
  match r with
  | .refused why => some why
  | _ => none

/-- The idle machine with answers to come and a chip. -/
def start (answers : List Answer) (chip : Chip) : State := { State.reset with answers := answers, chip := chip }

/-- An answer that draws bytes. -/
def drawing (bytes : List Byte) : Answer := { plainAnswer with bytes := bytes }

/-- The transport failure the tests use. -/
def te : TE := { code := 7 }

/-- A failure after the chip has received `k` bytes. -/
def failing (k : Nat) : Answer := { plainAnswer with fault := some (te, k) }

/-- A chip whose receive buffer begins 11 22 33 44. -/
def rxChip : Chip := { Chip.atReset with rxfifo := [(0, 0x11), (1, 0x22), (2, 0x33), (3, 0x44)] }

/-- Field names of the example descriptors (95_test_vectors.md). -/
def hi : FieldName := [0x68, 0x69]
def lf : FieldName := [0x6C, 0x66]
def gain : FieldName := [0x67]
def sel : FieldName := [0x73]
def idn : FieldName := [0x69]

/-- EX_A of 95_test_vectors.md. -/
def exA : Descriptor :=
  { addr := 0x21, width := 1, readable := true, writable := true, rfields := [⟨hi, 4, 3⟩, ⟨lf, 0, 2⟩],
    wfields := [⟨hi, 4, 3⟩, ⟨lf, 0, 2⟩] }

/-- EX_B of 95_test_vectors.md. -/
def exB : Descriptor :=
  { addr := 0x22, width := 2, readable := true, writable := true, rfields := [⟨gain, 0, 10⟩, ⟨sel, 12, 4⟩],
    wfields := [⟨gain, 0, 10⟩, ⟨sel, 12, 4⟩] }

/-- EX_C of 95_test_vectors.md. -/
def exC : Descriptor :=
  { addr := 0x06, width := 4, readable := true, writable := true, rfields := [⟨idn, 0, 32⟩], wfields := [⟨idn, 0, 32⟩] }

/-- EX_RO of 95_test_vectors.md. -/
def exRO : Descriptor :=
  { addr := 0x23, width := 1, readable := true, writable := false, rfields := [⟨sel, 0, 8⟩], wfields := [] }

/-! ### Decoding: one word for every row, from 30_encoding.md sections 2, 6 and 7 -/

theorem test_decode_marshal :
    decode (.request 0x01 [0xA5]) = .ok (.enc1 0xA5)
    ∧ decode (.request 0x02 [0x1234]) = .ok (.enc2 0x1234)
    ∧ decode (.request 0x04 [0x12345678]) = .ok (.enc4 0x12345678)
    ∧ decode (.request 0x11 [0xA5]) = .ok (.dec1 [0xA5])
    ∧ decode (.request 0x12 [0x34, 0x12]) = .ok (.dec2 [0x34, 0x12])
    ∧ decode (.request 0x14 [0x78, 0x56, 0x34, 0x12]) = .ok (.dec4 [0x78, 0x56, 0x34, 0x12])
    ∧ decode (.request 0x18 [0, 3, 4, 2, 5]) = .ok (.fins 1 3 4 3 5)
    ∧ decode (.request 0x19 [1, 0xFFFF, 0, 9]) = .ok (.fext 2 0xFFFF 0 10) := by decide

theorem test_decode_bus_and_register :
    decode (.request 0x20 [1, 0, 1, 0x45, 1, 2]) = .ok (.transact [.write [0x45], .read 2])
    ∧ decode (.request 0x21 [0x00, 0x00]) = .ok (.bwrite [0x00, 0x00])
    ∧ decode (.request 0x31 [0x20, 0, 0, 2, 2, 0x68, 0x69, 4, 2, 2, 0x6C, 0x66, 0, 1,
        2, 2, 0x68, 0x69, 4, 2, 2, 0x6C, 0x66, 0, 1]) = .ok (.rdreg1 exA)
    ∧ decode (.request 0x32 [0x21, 0, 1, 0, 0])
        = .ok (.rdreg2 { addr := 0x22, width := 2, readable := true, writable := false, rfields := [], wfields := [] })
    ∧ decode (.request 0x34 [0xFF, 0, 0, 0, 0])
        = .ok (.rdreg4 { addr := 0x00, width := 4, readable := true, writable := true, rfields := [], wfields := [] })
    ∧ decode (.request 0x41 [0x3E, 0, 2, 0, 0, 0])
        = .ok (.wrreg1 { addr := 0x3F, width := 1, readable := false, writable := true, rfields := [], wfields := [] } [])
    ∧ decode (.request 0x42 [0x21, 0, 2, 0, 1, 1, 0x67, 0, 9, 1, 1, 0x67, 0x2A5])
        = .ok (.wrreg2 { exB with readable := false, rfields := [], wfields := [⟨gain, 0, 10⟩] } [(gain, 0x2A5)])
    ∧ decode (.request 0x44 [0x05, 0, 0, 1, 1, 0x69, 0, 31, 1, 1, 0x69, 0, 31, 1, 1, 0x69, 0x5475C52A])
        = .ok (.wrreg4 exC [(idn, 0x5475C52A)]) := by decide

theorem test_decode_modes_commands_packets :
    decode (.request 0x50 []) = .ok .setmodeSleep
    ∧ decode (.request 0x51 []) = .ok .setmodeIdle
    ∧ decode (.request 0x52 []) = .ok .setmodeStandby
    ∧ decode (.request 0x53 []) = .ok .setmodePll
    ∧ decode (.request 0x54 []) = .ok .setmodeRx
    ∧ decode (.request 0x55 []) = .ok .setmodeTx
    ∧ decode (.request 0x60 []) = .ok .cmdReset
    ∧ decode (.request 0x61 []) = .ok .cmdRstrd
    ∧ decode (.request 0x62 []) = .ok .cmdRstwr
    ∧ decode (.request 0x70 [4]) = .ok (.rx 4)
    ∧ decode (.request 0x71 [2, 0xDE, 0xAD]) = .ok (.tx [0xDE, 0xAD]) := by decide

theorem test_decode_frames :
    decode (.frame { out := [0x21, 0x5A], rd := 0 }) = .ok (.frameRegwrite 0x21 [0x5A])
    ∧ decode (.frame { out := [0x00, 0x01], rd := 0 }) = .ok (.frameRegwrite 0x00 [0x01])
    ∧ decode (.frame { out := [0x7F], rd := 4 }) = .ok (.frameRegread 0x3F 4)
    ∧ decode (.frame { out := [0x05, 0xDE, 0xAD], rd := 0 }) = .ok (.frameTxfifo [0xDE, 0xAD])
    ∧ decode (.frame { out := [0x45], rd := 2 }) = .ok (.frameRxfifo 2)
    ∧ decode (.frame { out := [0x00, 0x00], rd := 0 }) = .ok .frameReset
    ∧ decode (.frame { out := [0x80], rd := 0 }) = .ok .strobeSleep
    ∧ decode (.frame { out := [0x90], rd := 0 }) = .ok .strobeIdle
    ∧ decode (.frame { out := [0xA0], rd := 0 }) = .ok .strobeStandby
    ∧ decode (.frame { out := [0xB0], rd := 0 }) = .ok .strobePll
    ∧ decode (.frame { out := [0xC0], rd := 0 }) = .ok .strobeRx
    ∧ decode (.frame { out := [0xD0], rd := 0 }) = .ok .strobeTx
    ∧ decode (.frame { out := [0xE0], rd := 0 }) = .ok .strobeRstwr
    ∧ decode (.frame { out := [0xF0], rd := 0 }) = .ok .strobeRstrd := by decide

/-- R60, R62, R175: what no row has is rejected by name. -/
theorem test_decode_rejects :
    decode (.request 0x03 [1]) = .error (.requestUnknown 0x03)
    ∧ decode (.request 0x56 []) = .error (.requestUnknown 0x56)
    ∧ decode (.request 0x01 [256]) = .error (.operandsUnreadable 0x01)
    ∧ decode (.request 0x71 [3, 1, 2]) = .error (.operandsUnreadable 0x71)
    ∧ decode (.frame { out := [0x81], rd := 0 }) = .error (.frameUnknown .strobeLowNibble)
    ∧ decode (.frame { out := [0xC0, 0x00], rd := 0 }) = .error (.frameUnknown .strobePayload)
    ∧ decode (.frame { out := [0x21], rd := 1 }) = .error (.frameUnknown .wrongDirection)
    ∧ decode (.frame { out := [0x61, 0x00], rd := 0 }) = .error (.frameUnknown .wrongDirection)
    ∧ decode (.frame { out := [], rd := 1 }) = .error (.frameUnknown .noByte0)
    ∧ decode (.frame { out := [], rd := 0 }) = .error .frameEmpty := by decide

/-- The words of spec/opcode_table.json, their other bits zero. -/
theorem test_table_words :
    decodeTableWord 8 0x70 = some (.rx 0) ∧ decodeTableWord 8 0xC0 = some .strobeRx
    ∧ decodeTableWord 16 0x0000 = some .frameReset ∧ decodeTableWord 8 0x60 = some .cmdReset
    ∧ decodeTableWord 8 0xF1 = none := by decide

/-! ### WellFormed: one ill-formed term for each check, beside its nearest well-formed one -/

theorem smoke_dec_length : Instr.wf (.dec2 [0x34]) = false ∧ Instr.wf (.dec2 [0x34, 0x12]) = true := by decide
theorem smoke_container_width : Instr.wf (.fins 3 0 0 1 0) = false ∧ Instr.wf (.fins 4 0 0 1 0) = true := by decide
theorem smoke_container_value : Instr.wf (.fext 1 256 0 8) = false ∧ Instr.wf (.fext 1 255 0 8) = true := by decide
theorem smoke_field_place : Instr.wf (.fext 1 0 4 5) = false ∧ Instr.wf (.fext 1 0 4 4) = true
    ∧ Instr.wf (.fext 1 0 4 0) = false := by decide
theorem smoke_empty_transaction : Instr.wf (.transact []) = false ∧ Instr.wf (.bwrite []) = false
    ∧ Instr.wf (.transact [.write []]) = true := by decide
theorem smoke_facet : Instr.wf (.wrreg1 exRO [(sel, 1)]) = false ∧ Instr.wf (.rdreg1 exRO) = true := by decide
theorem smoke_width : Instr.wf (.rdreg2 exA) = false ∧ Instr.wf (.rdreg1 exA) = true := by decide
theorem smoke_address : Instr.wf (.rdreg1 { exA with addr := 0x45 }) = false
    ∧ Instr.wf (.rdreg1 { exA with addr := 0x80 }) = false ∧ Instr.wf (.rdreg1 { exA with addr := 0x05 }) = true := by decide
theorem smoke_fields : Instr.wf (.rdreg1 { exA with rfields := [⟨hi, 4, 5⟩] }) = false
    ∧ Instr.wf (.rdreg1 { exA with rfields := [⟨hi, 4, 0⟩] }) = false
    ∧ Instr.wf (.rdreg1 { exA with rfields := [⟨hi, 2, 3⟩, ⟨lf, 4, 1⟩] }) = false
    ∧ Instr.wf (.rdreg1 { exA with rfields := [⟨hi, 2, 3⟩, ⟨hi, 5, 1⟩] }) = false
    ∧ Instr.wf (.rdreg1 { exA with rfields := [⟨hi, 2, 3⟩, ⟨lf, 5, 1⟩] }) = true := by decide
theorem smoke_value : Instr.wf (.wrreg1 exA [(hi, 5)]) = false ∧ Instr.wf (.wrreg1 exA [(hi, 5), (lf, 2)]) = true := by decide
theorem smoke_own_frame : Instr.wf (.frameRegwrite 0x05 [1]) = false ∧ Instr.wf (.frameRegread 0x05 1) = false
    ∧ Instr.wf (.frameRegwrite 0x00 [0]) = false ∧ Instr.wf (.frameRegwrite 0x21 [1, 2, 3]) = false
    ∧ Instr.wf (.frameRegread 0x21 0) = false ∧ Instr.wf (.frameRegwrite 0x00 [1]) = true
    ∧ Instr.wf (.frameRegread 0x21 2) = true := by decide

/-! ### Marshalling (95_test_vectors.md B1) -/

theorem test_enc : resOf (exec (.enc1 0xA5) State.reset) = some (.ok (.bytes [0xA5]))
    ∧ resOf (exec (.enc2 0x0100) State.reset) = some (.ok (.bytes [0x00, 0x01]))
    ∧ resOf (exec (.enc4 0xDEADBEEF) State.reset) = some (.ok (.bytes [0xEF, 0xBE, 0xAD, 0xDE])) := by decide
theorem test_dec : resOf (exec (.dec1 [0xFF]) State.reset) = some (.ok (.uint 255))
    ∧ resOf (exec (.dec2 [0x34, 0x12]) State.reset) = some (.ok (.uint 4660))
    ∧ resOf (exec (.dec4 [0x01, 0x00, 0x00, 0x80]) State.reset) = some (.ok (.uint 2147483649)) := by decide
theorem test_fins : resOf (exec (.fins 1 0x00 4 3 0x0F) State.reset) = some (.ok (.uint 0x70))
    ∧ resOf (exec (.fins 1 0xFF 4 3 0) State.reset) = some (.ok (.uint 0x8F))
    ∧ resOf (exec (.fins 2 0 12 4 9) State.reset) = some (.ok (.uint 0x9000)) := by decide
theorem test_fext : resOf (exec (.fext 1 0x52 4 3) State.reset) = some (.ok (.uint 5))
    ∧ resOf (exec (.fext 2 0xFFFF 0 10) State.reset) = some (.ok (.uint 0x3FF)) := by decide
theorem test_touint : toUint 1 exA.wfields [(hi, 0x0F), (lf, 7)] = 0x73 ∧ toUint 2 exB.wfields [(gain, 0x2A5), (sel, 9)] = 0x92A5
    ∧ fromUint exA.rfields 0xFF = [(hi, 7), (lf, 3)] ∧ fromUint exB.rfields 0xFFFF = [(gain, 0x3FF), (sel, 0xF)] := by decide

/-! ### Bus and registers (B2, B3) -/

theorem test_transact : histOf (exec (.transact [.write [0x45], .read 2]) (start [plainAnswer] rxChip))
    = some [([.write [0x45], .read 2], .ok [[0x11, 0x22]])] := by decide
theorem test_transact_fails : resOf (exec (.transact [.write [0x45], .read 2]) (start [failing 1] rxChip))
    = some (.transportErr te) := by decide
theorem test_bwrite : histOf (exec (.bwrite [0x00, 0x00]) (start [plainAnswer] rxChip)) = some [([.write [0x00, 0x00]], .ok [])] := by
  decide
theorem test_rdreg1 : resOf (exec (.rdreg1 exA) (start [drawing [0x5A]] rxChip)) = some (.ok (.typed [(hi, 5), (lf, 2)]))
    ∧ histOf (exec (.rdreg1 exA) (start [drawing [0x5A]] rxChip)) = some [([.write [0x61], .read 1], .ok [[0x5A]])] := by decide
theorem test_rdreg2 : resOf (exec (.rdreg2 exB) (start [drawing [0xCD, 0xAB]] rxChip))
    = some (.ok (.typed [(gain, 0x3CD), (sel, 0xA)])) := by decide
theorem test_rdreg4 : resOf (exec (.rdreg4 exC) (start [drawing [0x2A, 0xC5, 0x75, 0x54]] rxChip))
    = some (.ok (.typed [(idn, 0x5475C52A)])) := by decide
theorem test_wrreg1 : histOf (exec (.wrreg1 exA [(hi, 5), (lf, 2)]) (start [plainAnswer] rxChip))
    = some [([.write [0x21], .write [0x52]], .ok [])] := by decide
theorem test_wrreg2 : histOf (exec (.wrreg2 exB [(gain, 0x2A5), (sel, 9)]) (start [plainAnswer] rxChip))
    = some [([.write [0x22], .write [0xA5, 0x92]], .ok [])] := by decide
theorem test_wrreg4 : histOf (exec (.wrreg4 exC [(idn, 0x80000000)]) (start [plainAnswer] rxChip))
    = some [([.write [0x06], .write [0x00, 0x00, 0x00, 0x80]], .ok [])] := by decide
theorem test_access_refused : refusalOf (exec (.wrreg1 exRO [(sel, 1)]) State.reset) = some (.operands .facetMissing)
    ∧ refusalOf (exec (.rdreg1 { exA with addr := 0x45 }) State.reset) = some (.operands .addressIllegal)
    ∧ refusalOf (exec (.rdreg2 exA) State.reset) = some (.operands .widthMismatch) := by decide

/-! ### Modes and commands (B4, B6) -/

theorem test_setmode_bytes :
    [Instr.setmodeSleep, .setmodeIdle, .setmodeStandby, .setmodePll, .setmodeRx, .setmodeTx].map
      (fun i => histOf (exec i (start [plainAnswer] rxChip)))
    = [0x80#8, 0x90#8, 0xA0#8, 0xB0#8, 0xC0#8, 0xD0#8].map (fun b => some [([.write [b]], .ok [])]) := by decide
theorem test_prior_mode : chipOf (exec .setmodeRx (start [plainAnswer] rxChip)) = some { rxChip with mode := .rx, prior := .standby }
    ∧ chipOf (exec .setmodeTx (start [plainAnswer] { rxChip with mode := .rx, prior := .idle }))
        = some { rxChip with mode := .tx, prior := .idle } := by decide
theorem test_commands :
    [Instr.cmdReset, .cmdRstrd, .cmdRstwr].map (fun i => histOf (exec i (start [plainAnswer] rxChip)))
    = [[0x00#8, 0x00#8], [0xF0#8], [0xE0#8]].map (fun b => some [([.write b], .ok [])]) := by decide
theorem test_pointer_resets :
    chipOf (exec .cmdRstrd (start [plainAnswer] { rxChip with rdPtr := 7, wrPtr := 7 })) = some { rxChip with rdPtr := 0, wrPtr := 7 }
    ∧ chipOf (exec .cmdRstwr (start [plainAnswer] { rxChip with rdPtr := 7, wrPtr := 7 }))
        = some { rxChip with rdPtr := 7, wrPtr := 0 } := by decide

/-! ### Frames (B6) -/

theorem test_frame_rxfifo : resOf (exec (.frameRxfifo 2) (start [plainAnswer] { rxChip with rdPtr := 2 }))
    = some (.ok (.reads [[0x33, 0x44]]))
    ∧ refusalOf (exec (.frameRxfifo 2) (start [plainAnswer] { rxChip with rdPtr := 63 })) = some .fifoPastEnd := by decide
theorem test_frame_txfifo : chipOf (exec (.frameTxfifo [0xBE]) (start [plainAnswer] { rxChip with wrPtr := 2 }))
    = some { rxChip with wrPtr := 3, txfifo := [(2, 0xBE)] } := by decide
theorem test_frame_registers : chipOf (exec (.frameRegwrite 0x21 [0x5A]) (start [{ plainAnswer with cat := [(0x21, [0x5A])] }] rxChip))
    = some { rxChip with cat := [(0x21, [0x5A])] }
    ∧ resOf (exec (.frameRegread 0x21 1) (start [drawing [0x5A]] rxChip)) = some (.ok (.reads [[0x5A]])) := by decide
theorem test_frame_reset : chipOf (exec .frameReset (start [plainAnswer] { rxChip with mode := .tx, rdPtr := 3 })) = some Chip.atReset := by
  decide
theorem test_frame_strobes :
    [Instr.strobeSleep, .strobeIdle, .strobeStandby, .strobePll, .strobeRx, .strobeTx].map
      (fun i => (chipOf (exec i (start [plainAnswer] rxChip))).map (fun c => c.mode))
    = [some .sleep, some .idle, some .standby, some .pll, some .rx, some .tx] := by decide
theorem test_frame_pointer_strobes :
    chipOf (exec .strobeRstrd (start [plainAnswer] { rxChip with rdPtr := 7, wrPtr := 7 })) = some { rxChip with wrPtr := 7 }
    ∧ chipOf (exec .strobeRstwr (start [plainAnswer] { rxChip with rdPtr := 7, wrPtr := 7 })) = some { rxChip with rdPtr := 7 } := by
  decide

/-! ### Packets (B5) -/

/-- With the suggested status register: 0x9F is (pass, pass), its bits other than 6 and 5 ignored. -/
theorem test_rx : histOf (runWhole (.rx 2) (start [drawing [0x9F], plainAnswer, plainAnswer] rxChip))
    = some [([.write [0x40], .read 1], .ok [[0x9F]]), ([.write [0xF0]], .ok []), ([.write [0x45], .read 2], .ok [[0x11, 0x22]])]
    ∧ resOf (runWhole (.rx 2) (start [drawing [0x9F], plainAnswer, plainAnswer] rxChip)) = some (.ok (.bytes [0x11, 0x22])) := by decide
theorem test_rx_rejects : resOf (runWhole (.rx 2) (start [plainAnswer] { rxChip with crcPass := false })) = some (.packetErr false true)
    ∧ histOf (runWhole (.rx 2) (start [plainAnswer] { rxChip with fecPass := false })) = some [([.write [0x40], .read 1], .ok [[0x40]])] := by
  decide
theorem test_tx : histOf (runWhole (.tx [0xDE, 0xAD]) (start [plainAnswer, plainAnswer] rxChip))
    = some [([.write [0xE0]], .ok []), ([.write [0x05], .write [0xDE, 0xAD]], .ok [])]
    ∧ chipOf (runWhole (.tx [0xDE, 0xAD]) (start [plainAnswer, plainAnswer] { rxChip with wrPtr := 9 }))
        = some { rxChip with wrPtr := 2, txfifo := [(0, 0xDE), (1, 0xAD)] } := by decide
/-- R15, R151: the first step of RX ends at RX_CHECK with the flags read, the first step of TX at TX_DATA. -/
theorem test_packet_positions :
    (after (exec (.rx 2) (start [drawing [0x9F], plainAnswer, plainAnswer] rxChip))).map (fun t => (t.seq, t.regs.fecp, t.regs.crcp))
      = some (.rxCheck, true, true)
    ∧ (after (exec (.tx [0xDE]) (start [plainAnswer, plainAnswer] rxChip))).map (fun t => (t.seq, t.regs.buf)) = some (.txData, [0xDE])
    ∧ (after (step { start [plainAnswer] rxChip with seq := .rxCheck, regs := { Regs.atReset with opr := 0x70 } })).map
      (fun t => (t.seq, t.res, t.hist)) = some (.idle, .packetErr true true, []) := by decide
/-- R197: the read pointer was reset, and moved past the one byte that arrived. -/
theorem test_rx_breaks_off : chipOf (runWhole (.rx 2) (start [plainAnswer, plainAnswer, failing 2] { rxChip with rdPtr := 7 }))
    = some { rxChip with rdPtr := 1 } := by decide
/-- Two of the three bytes of the frame `05 01 02 03` after byte 0 arrive. -/
theorem test_tx_breaks_off : chipOf (runWhole (.tx [0x01, 0x02, 0x03]) (start [plainAnswer, failing 3] rxChip))
    = some { rxChip with wrPtr := 2, txfifo := [(0, 0x01), (1, 0x02)] } := by decide
theorem test_tx_past_the_end : refusalOf (runWhole (.tx [1, 2]) { start [plainAnswer, plainAnswer] rxChip with
    cfg := { Params.suggested with fifoDepth := 1 } }) = some .fifoPastEnd := by decide

/-! ### The far end -/

/-- R178: a status read after a catalog write at the status register has no other bit set; a failed frame cut after its
second byte is the Reset frame (R61, log 17). -/
theorem test_test_responder_status :
    (testTransact Params.suggested (readOps 0x00 1) { rxChip with cat := [(0x00, [0xFF])] })
      = .ok (.ok [[0x00]], { rxChip with cat := [(0x00, [0xFF])] }) := by decide
/-- R178: Reset draws its Standby state wherever CHIP_RESET has it, though another family stands first; where no family has
it, the first one's values (log 20). -/
def sleeping : ChipPattern :=
  { mode := some .sleep, prior := none, rdPtr := none, wrPtr := none, rx := none, tx := none, fecPass := none, crcPass := none,
    cat := none }
theorem test_test_responder_reset :
    testTransact { Params.suggested with chipReset := [sleeping, { sleeping with mode := none }] } [.write [0x00, 0x00]]
      { rxChip with rdPtr := 7 } = .ok (.ok [], Chip.atReset)
    ∧ testTransact { Params.suggested with chipReset := [sleeping] } [.write [0x00], .write [0x00]] rxChip
      = .ok (.ok [], { Chip.atReset with mode := .sleep }) := by decide
theorem test_cut_write_is_reset : chipOf (exec (.frameRegwrite 0x00 [0x00, 0x01]) (start [failing 2] { rxChip with rdPtr := 7 }))
    = some Chip.atReset := by decide
/-- R104: a responder that answers a strobe by refusing to change the mode. -/
def given : Params := { Params.suggested with responder := .given, te := some 2 }
theorem test_given_responder :
    chipOf (exec .setmodeRx { start [plainAnswer] rxChip with cfg := given }) = some Chip.atReset
    ∧ resOf (exec (.transact [.read 2, .write [0x81], .read 1]) { start [drawing [1, 2, 3]] rxChip with cfg := given })
      = some (.ok (.reads [[1, 2], [3]]))
    ∧ resOf (exec .cmdRstrd { start [failing 0] rxChip with cfg := given }) = some (.transportErr { code := 1 }) := by decide

/-! ### The step -/

theorem test_step_takes_the_word : histOf (step { start [plainAnswer] rxChip with inbox := [.instr (.request 0x54 [])] })
    = some [([.write [0xC0]], .ok [])] := by decide
/-- R209: a run is over when no operation is left; the radio does not count. -/
theorem test_run_over : ({ State.reset with inbox := [.radio [.fallback], .blockReset] } : State).runOver = true
    ∧ ({ State.reset with inbox := [.radio [.fallback], .instr (.request 0x70 [4])] } : State).runOver = false
    ∧ ({ State.reset with seq := .rxData } : State).runOver = false := by decide
theorem test_step_radio_falls_back :
    (chipOf (step { start [] { rxChip with mode := .rx } with inbox := [.radio [.fallback, .flags false true]] }))
    = some { rxChip with fecPass := false } := by decide

/-! ### Witnesses: the hypotheses of each statement can be met together -/

/-- Two idle states with an answer that goes through, and one that fails, used below. -/
def okState : State := start [plainAnswer] rxChip
def failState : State := start [failing 1] rxChip

theorem witness_StepRunsTheDecodedInstruction :
    let s := { State.reset with inbox := [.instr (.request 0x60 []), .radio []] }
    s.seq = .idle ∧ s.inbox = .instr (.request 0x60 []) :: [.radio []] ∧ decode (.request 0x60 []) = .ok .cmdReset := by decide
theorem witness_StepRunsTheDecodedInstruction_others :
    ({ State.reset with inbox := [.radio [.fallback], .blockReset] } : State).inbox = .radio [.fallback] :: [.blockReset]
    ∧ State.reset.inbox = [] ∧ State.reset.seq = .idle := by decide
theorem witness_StepRunsTheDecodedInstruction_rejects :
    let s := { State.reset with inbox := [.instr (.request 0x63 [])] }
    s.seq = .idle ∧ s.inbox = [.instr (.request 0x63 [])] ∧ decode (.request 0x63 []) = .error (.requestUnknown 0x63) := by decide
theorem witness_DecodeOfEncodeIsTheInstruction : Instr.wf (.enc4 0xFFFFFFFF) = true ∧ Instr.wf (.fins 4 0 0 32 1) = true
    ∧ Instr.wf (.transact [.read 0]) = true ∧ Instr.wf (.wrreg2 exB [(gain, 1023), (sel, 15)]) = true ∧ Instr.wf (.rx 0) = true
    ∧ Instr.wf (.frameRegread 0x3F 4) = true := by decide
theorem witness_FrameHasOneMeaning : decodeFrame { out := [0xF0], rd := 0 } = .ok .rstRd
    ∧ decodeFrame { out := [0x05], rd := 0 } = .ok (.txFifo []) := by decide
theorem witness_MarshallingRoundTrips : legalWidth 4 = true ∧ 2 ^ 32 - 1 < 2 ^ (8 * 4)
    ∧ legalWidth ([0xFF, 0x00] : List Byte).length = true ∧ encN 4 (2 ^ 32 - 1) = encN 4 (2 ^ 32 - 1)
    ∧ decN [0xFF, 0x00] = decN [0xFF, 0x00] ∧ legalWidth 1 = true ∧ fieldsWf 1 exA.wfields = true
    ∧ exA.rfields = exA.wfields ∧ exA.readable = true ∧ exA.writable = true ∧ 255 < 2 ^ (8 * 1) := by decide
theorem witness_ReservedBitsAreZeroOutAndIgnoredIn : fieldsWf 1 exA.wfields = true ∧ ¬ InField exA.wfields 7
    ∧ ∀ i, InField exA.rfields i → (0x52 : Nat).testBit i = (0xDE : Nat).testBit i := by
  refine ⟨by decide, ?_, ?_⟩
  · rintro ⟨f, hf, h⟩
    simp only [exA, List.mem_cons, List.not_mem_nil, or_false] at hf
    rcases hf with rfl | rfl <;> simp at h
  · rintro i ⟨f, hf, h1, h2⟩
    simp only [exA, List.mem_cons, List.not_mem_nil, or_false] at hf
    rcases hf with rfl | rfl <;> simp only at h1 h2 <;> interval_cases i <;> decide
/-- The one hypothesis of ENC and DEC, and of NoSecondOperationInProgress its contrary. -/
theorem witness_idle_and_busy : State.reset.seq = .idle ∧ ({ State.reset with seq := .rxData } : State).seq ≠ .idle
    ∧ Instr.flaw (.rx 3) = none := by decide
theorem witness_Fins_and_Fext : legalWidth 2 = true ∧ 0xFFFF < 2 ^ (8 * 2) ∧ 1 ≤ 4 ∧ 12 + 4 ≤ 8 * 2 ∧ State.reset.seq = .idle := by
  decide
theorem witness_DecOfAnotherLengthIsRefused : ([] : List Byte).length ≠ 1 ∧ ([1, 2, 3] : List Byte).length ≠ 2
    ∧ ([1, 2, 3, 4, 5] : List Byte).length ≠ 4 := by decide

/-! Transactions -/

theorem witness_TransactIsOneTransaction : okState.seq = .idle ∧ okState.answers = [plainAnswer]
    ∧ ([.write [0x45], .read 2] : List Op) ≠ []
    ∧ ∃ c, chipTransact okState.cfg plainAnswer [.write [0x45], .read 2] okState.chip = .ok (.ok [[0x11, 0x22]], c) :=
  ⟨rfl, rfl, by decide, _, rfl⟩
theorem witness_TransactIsOneTransaction_fails : failState.seq = .idle ∧ failState.answers = [failing 1]
    ∧ ∃ c, chipTransact failState.cfg (failing 1) [.write [0x45], .read 2] failState.chip = .ok (.err te, c) :=
  ⟨rfl, rfl, _, rfl⟩
theorem witness_BwriteIsOneSinglePhaseTransaction : okState.seq = .idle ∧ ([0xC0] : List Byte) ≠ []
    ∧ ∃ c, chipTransact okState.cfg plainAnswer [.write [0xC0]] okState.chip = .ok (.ok [], c) := ⟨rfl, by decide, _, rfl⟩
theorem usable_examples : Usable exA.readable 1 exA ∧ Usable exB.readable 2 exB ∧ Usable exC.readable 4 exC
    ∧ Usable exA.writable 1 exA ∧ Usable exB.writable 2 exB ∧ Usable exC.writable 4 exC := by
  refine ⟨?_, ?_, ?_, ?_, ?_, ?_⟩ <;> exact ⟨by decide, by decide, by decide, by decide, by decide, by decide⟩
theorem values_complete : (∀ f ∈ exA.wfields, ∃ v, (f.name, v) ∈ [(hi, 5), (lf, 2)])
    ∧ (∀ f ∈ exB.wfields, ∃ v, (f.name, v) ∈ [(gain, 5), (sel, 2)]) ∧ (∀ f ∈ exC.wfields, ∃ v, (f.name, v) ∈ [(idn, 5)]) := by
  refine ⟨?_, ?_, ?_⟩ <;> intro f hf <;> simp only [exA, exB, exC, List.mem_cons, List.not_mem_nil, or_false] at hf
  · rcases hf with rfl | rfl
    · exact ⟨5, by simp⟩
    · exact ⟨2, by simp⟩
  · rcases hf with rfl | rfl
    · exact ⟨5, by simp⟩
    · exact ⟨2, by simp⟩
  · exact ⟨5, by simp [hf]⟩
/-- Each width, with its far end; the failing one too. -/
theorem witness_RdregReadsAndDecodes : okState.seq = .idle
    ∧ (∃ c, chipTransact okState.cfg plainAnswer [.write [exA.addr ||| 0x40], .read 1] okState.chip = .ok (.ok [[0]], c))
    ∧ (∃ c, chipTransact okState.cfg plainAnswer [.write [exB.addr ||| 0x40], .read 2] okState.chip = .ok (.ok [[0, 0]], c))
    ∧ (∃ c, chipTransact okState.cfg plainAnswer [.write [exC.addr ||| 0x40], .read 4] okState.chip = .ok (.ok [[0, 0, 0, 0]], c))
    ∧ (∃ c, chipTransact failState.cfg (failing 1) [.write [exC.addr ||| 0x40], .read 4] failState.chip = .ok (.err te, c)) :=
  ⟨rfl, ⟨_, rfl⟩, ⟨_, rfl⟩, ⟨_, rfl⟩, ⟨_, rfl⟩⟩
theorem witness_WrregEncodesAndWrites : okState.seq = .idle
    ∧ (∃ c, chipTransact okState.cfg plainAnswer [.write [exA.addr], .write [0x52]] okState.chip = .ok (.ok [], c))
    ∧ (∃ c, chipTransact okState.cfg plainAnswer [.write [exB.addr], .write [5, 0x20]] okState.chip = .ok (.ok [], c))
    ∧ (∃ c, chipTransact okState.cfg plainAnswer [.write [exC.addr], .write [5, 0, 0, 0]] okState.chip = .ok (.ok [], c)) :=
  ⟨rfl, ⟨_, rfl⟩, ⟨_, rfl⟩, ⟨_, rfl⟩⟩
theorem witness_RegisterAccessCompletes : okState.seq = .idle ∧ okState.cfg.responder = .reference ∧ okState.answers = [plainAnswer] ∧ plainAnswer.fault = none
    ∧ exB.addr ≠ 0x05 ∧ lengthFits okState.cfg true (exB.addr.setWidth 6) 2 = true
    ∧ lengthFits okState.cfg false (exB.addr.setWidth 6) 2 = true ∧ exB.addr.setWidth 6 ≠ okState.cfg.statusAddr := by decide
theorem witness_AccessRefused : exRO.writable = false ∧ ({ exA with readable := false } : Descriptor).readable = false
    ∧ ({ exA with addr := 0x80 } : Descriptor).addr.getLsbD 7 = true ∧ ({ exA with addr := 0x45 } : Descriptor).addr.getLsbD 6 = true
    ∧ exA.width ≠ 2 := by decide

/-! Frames and the chip. A SETMODE, a CMD, a STROBE row: an idle state with an answer that goes through, and with one that
fails after no byte, one byte, two bytes. -/

theorem witness_SendsOneFrame : okState.cfg.responder = .reference
    ∧ (∃ o c, chipTransact okState.cfg plainAnswer [.write [0xC0]] okState.chip = .ok (o, c)) ∧ okState.seq = .idle ∧ okState.answers = [plainAnswer] ∧ plainAnswer.fault = none
    ∧ (failing 0).fault = some (te, 0) ∧ (failing 1).fault = some (te, 1) ∧ (failing 2).fault = some (te, 2)
    ∧ failState.seq = .idle ∧ failState.answers = [failing 1] :=
  ⟨rfl, ⟨_, _, rfl⟩, by decide⟩
/-- The last byte of the buffers, and one past it. -/
theorem witness_FifoFrames :
    let s := start [plainAnswer] { rxChip with rdPtr := 63, wrPtr := 63 }
    s.seq = .idle ∧ s.answers = [plainAnswer] ∧ (chipAt s plainAnswer).rdPtr + 1 ≤ s.cfg.fifoDepth
      ∧ (chipAt s plainAnswer).wrPtr + [0xAA#8].length ≤ s.cfg.fifoDepth ∧ Memory.wf (chipAt s plainAnswer).txfifo
      ∧ s.cfg.responder = .reference ∧ plainAnswer.fault = none ∧ (failing 1).fault = some (te, 1)
      ∧ s.cfg.fifoDepth < s.chip.rdPtr + 2 ∧ s.cfg.fifoDepth < s.chip.wrPtr + [0xAA#8, 0xBB].length := by decide
theorem witness_RegisterFramesTouchOnlyTheCatalog : (0x21 : BitVec 6) ≠ 0x05 ∧ ¬((0x21 : BitVec 6) = 0x00 ∧ [0x5A#8] = [0x00])
    ∧ lengthFits okState.cfg false 0x21 [0x5A#8].length = true ∧ (0x21 : BitVec 6) ≠ okState.cfg.statusAddr
    ∧ lengthFits okState.cfg true 0x21 1 = true ∧ okState.cfg.responder = .reference ∧ paramsWf okState.cfg = true ∧ (0x00 : BitVec 6) = okState.cfg.statusAddr := by decide
theorem witness_PointersAreNotRewound :
    (∃ c, respond Params.suggested plainAnswer (.rxFifo 2) rxChip = .ok ([0x11, 0x22], c)
      ∧ ∃ c', respond Params.suggested plainAnswer (.rxFifo 2) c = .ok ([0x33, 0x44], c'))
    ∧ ∃ c, respond Params.suggested plainAnswer .rstWr rxChip = .ok ([], c) := ⟨⟨_, rfl, _, rfl⟩, _, rfl⟩
/-- Two buffers asked for, an error of three, a legal chip state; and a transaction of the reference responder. -/
theorem witness_AnyResponderCanBeGiven : given.responder = .given
    ∧ LegalOutcome given [.read 2, .write [0x81], .read 1] (.ok [[1, 2], [3]]) ∧ LegalOutcome given [.read 2] (.err { code := 2 })
    ∧ ChipOk given.fifoDepth rxChip
    ∧ ∃ o c, chipTransact { given with responder := .reference } plainAnswer [.write [0x45], .read 2] rxChip = .ok (o, c) :=
  ⟨rfl, rfl, fun n h => by cases h; decide, by unfold ChipOk; decide, _, _, rfl⟩
theorem rxChip_ok : ChipOk Params.suggested.fifoDepth rxChip := by unfold ChipOk; decide
theorem witness_RadioChangesWhatItMay : ChipOk Params.suggested.fifoDepth { rxChip with mode := .rx } ∧ Memory.wf [(63, 0x99)]
    ∧ Memory.within Params.suggested.fifoDepth [(63, 0x99)] := by unfold ChipOk; decide
/-- `sleeping` is a family of CHIP_RESET: mode Sleep, everything else open. -/
theorem witness_ResetMayLeaveAnyMemberOfChipReset : Params.suggested.chipReset = []
    ∧ ({ Params.suggested with chipReset := [sleeping] } : Params).chipReset ≠ []
    ∧ sleeping ∈ ({ Params.suggested with chipReset := [sleeping] } : Params).chipReset
    ∧ (sleeping.fill testResetPicture).mode = .sleep ∧ (sleeping.fill testResetPicture).prior = .standby := by decide
/-- A strobe byte with a low nibble, one with payload, one with a read phase, by BWRITE and by a TRANSACT cut otherwise. -/
theorem witness_FramesWithoutARuleAreRefused : okState.cfg.responder = .reference ∧ (0xC1 : Byte).getLsbD 7 = true
    ∧ (0xC1 : Byte) &&& 0x0F ≠ 0 ∧ (0xF0 : Byte).getLsbD 7 = true ∧ ([0x00] : List Byte) ≠ []
    ∧ flatten [.write [], .write [0xC0], .read 0, .read 1] = some { out := [0xC0], rd := 1 } ∧ (1 : Nat) ≠ 0 := by decide
/-- The lengths no register has, the status register's, and a register of the catalog with another width. -/
theorem witness_FramesWithoutARule_registers :
    let cfg := { Params.suggested with catalog := [exA, exB] }
    (0x21 : BitVec 6) ≠ 0x05 ∧ [1#8, 2, 3].length ≠ 1 ∧ [1#8, 2, 3].length ≠ 2 ∧ [1#8, 2, 3].length ≠ 4 ∧ (0 : Nat) ≠ 1
      ∧ cfg.statusAddr ≠ 0x05 ∧ (2 : Nat) ≠ 1 ∧ (4 : Nat) ≠ 1 ∧ (0x21 : BitVec 6) ≠ cfg.statusAddr ∧ exA ∈ cfg.catalog
      ∧ exA.addr = (0x21 : BitVec 6).setWidth 8 ∧ exA.readable = true ∧ exA.writable = true
      ∧ (∀ d' ∈ cfg.catalog, d'.addr = (0x21 : BitVec 6).setWidth 8 → d'.readable = true → d'.width ≠ 2)
      ∧ (∀ d' ∈ cfg.catalog, d'.addr = (0x21 : BitVec 6).setWidth 8 → d'.writable = true → d'.width ≠ [1#8, 2].length)
      ∧ ¬((0x21 : BitVec 6) = 0x00 ∧ [1#8, 2] = [0x00]) := by decide
theorem witness_CanonicalMemoriesAreTheirReads : Memory.wf rxChip.rxfifo ∧ ∀ i, rxChip.rxfifo.read i = rxChip.rxfifo.read i :=
  ⟨by decide, fun _ => rfl⟩
/-- Writes to two addresses and of two lengths, the first address read, and a length nothing was written with. -/
theorem witness_TestResponderReturnsWhatWasWritten :
    let ws : List (BitVec 6 × List Byte) := [(0x21, [0x5A]), (0x21, [1, 2]), (0x22, [0x77]), (0x21, [0x5B]), (0x21, [3, 4])]
    Params.suggested.responder = .reference ∧ Chip.atReset.cat = []
    ∧ (∀ w ∈ ws, w.1 ≠ 0x05 ∧ ¬(w.1 = 0x00 ∧ w.2 = [0x00]) ∧ lengthFits Params.suggested false w.1 w.2.length = true)
    ∧ (0x21 : BitVec 6) ≠ 0x05 ∧ (0x21 : BitVec 6) ≠ Params.suggested.statusAddr ∧ lengthFits Params.suggested true 0x21 1 = true
    ∧ lengthFits Params.suggested true 0x21 4 = true ∧ lastWritten ws 0x21 1 = [0x5B] ∧ lastWritten ws 0x21 4 = [0, 0, 0, 0]
    ∧ paramsWf Params.suggested = true ∧ Params.suggested.chipReset = [] := by decide
/-- The Reset clause with CHIP_RESET not at its default: the Standby state in the second family only. -/
theorem witness_TestResponder_reset :
    let cfg := { Params.suggested with chipReset := [sleeping, { sleeping with mode := some .standby }] }
    cfg.responder = .reference
      ∧ ∃ p ∈ cfg.chipReset, ∃ draw, chipOfPicture cfg.fifoDepth (p.fill draw) = afterTestReset :=
  ⟨rfl, { sleeping with mode := some .standby }, by simp, testResetPicture, rfl⟩

/-! Packets -/

/-- Three plain answers, a buffer of the whole depth. -/
theorem witness_RxReturnsTheReceiveBuffer :
    let s := start [plainAnswer, plainAnswer, plainAnswer] rxChip
    s.cfg.responder = .reference ∧ s.inbox = [] ∧ s.seq = .idle ∧ paramsWf s.cfg = true ∧ s.answers = [plainAnswer, plainAnswer, plainAnswer] ∧ plainAnswer.fault = none
      ∧ (radioActs s.cfg plainAnswer.radio s.chip).fecPass = true ∧ (radioActs s.cfg plainAnswer.radio s.chip).crcPass = true
      ∧ 64 ≤ s.cfg.fifoDepth := by decide
/-- With nothing in the inbox no reset of the block waits; nor with an operation of the host in it. -/
theorem witness_NoReset : NoReset State.reset ∧ NoReset { State.reset with inbox := [.instr (.request 0x70 [4]), .blockReset] } :=
  ⟨(fun _ h => by cases h), (fun _ h => by cases h)⟩
theorem witness_RxRejectsABadPacket :
    let s := start [plainAnswer] { rxChip with crcPass := false }
    s.cfg.responder = .reference ∧ s.inbox = [] ∧ s.seq = .idle ∧ paramsWf s.cfg = true ∧ s.answers = [plainAnswer] ∧ (chipAt s plainAnswer).crcPass = false := by decide
/-- An RX that ends in each of the five ways, a TX that ends in each of the three; with them TransportErr, PacketErr and
NothingIsKept. -/
theorem witness_RxOutcomes :
    [[failing 0], [plainAnswer, failing 0], [plainAnswer, plainAnswer, failing 0], [plainAnswer, plainAnswer, plainAnswer]].map
      (fun as => ((after (runWhole (.rx 2) (start as rxChip))).map (fun t => t.seq)))
    = [some .idle, some .idle, some .idle, some .idle]
    ∧ ∃ t, runWhole (.rx 2) (start [plainAnswer] { rxChip with fecPass := false }) = .next t ∧ t.seq = .idle
      ∧ t.res = .packetErr true false := ⟨by decide, _, rfl, rfl, rfl⟩
theorem witness_TxOutcomes :
    [[failing 0], [plainAnswer, failing 0], [plainAnswer, plainAnswer]].map
      (fun as => ((after (runWhole (.tx [1, 2]) (start as rxChip))).map (fun t => t.seq)))
    = [some .idle, some .idle, some .idle] := by decide
theorem witness_TransportErr_and_NothingIsKept : ∃ t, runWhole .cmdRstrd failState = .next t ∧ t.seq = .idle := ⟨_, rfl, rfl⟩
theorem witness_TransportErr_marshal : firstSeq (.enc1 7) = .marshal ∧ ∃ t, runWhole (.enc1 7) failState = .next t ∧ t.seq = .idle :=
  ⟨rfl, _, rfl, rfl⟩
theorem okState_inv : Inv okState := ⟨by decide, rfl, rxChip_ok, (fun _ h => absurd h List.not_mem_nil), trivial⟩
/-- A buffer of the whole depth. -/
theorem witness_RxMayReturnBytesItsFlagsDidNotVouchFor : okState.cfg.responder = .reference ∧ okState.inbox = []
    ∧ okState.seq = .idle ∧ Inv okState
    ∧ (List.replicate 64 0xEE#8).length ≤ okState.cfg.fifoDepth ∧ okState.chip.fecPass = true ∧ okState.chip.crcPass = true :=
  ⟨rfl, rfl, rfl, okState_inv, by decide, rfl, rfl⟩
theorem witness_TxStoresTheBuffer :
    let s := start [plainAnswer, plainAnswer] { rxChip with txfifo := [(0, 9)] }
    s.cfg.responder = .reference ∧ s.inbox = [] ∧ s.seq = .idle ∧ s.answers = [plainAnswer, plainAnswer] ∧ (List.replicate 64 0xEE#8).length ≤ s.cfg.fifoDepth
      ∧ Memory.wf s.chip.txfifo := by decide
theorem witness_BrokenPacketTransferLeavesAPrefix :
    let s := start [plainAnswer, failing 0] rxChip
    let s' := start [plainAnswer, plainAnswer, failing 3] rxChip
    s.cfg.responder = .reference ∧ s.inbox = [] ∧ s.seq = .idle ∧ s.answers = [plainAnswer, failing 0]
      ∧ plainAnswer.fault = none ∧ (failing 0).fault = some (te, 0) ∧ [1#8].length ≤ s.cfg.fifoDepth ∧ Memory.wf s.chip.txfifo
      ∧ s'.answers = [plainAnswer, plainAnswer, failing 3] ∧ (failing 3).fault = some (te, 3) ∧ paramsWf s'.cfg = true
      ∧ (radioActs s'.cfg plainAnswer.radio s'.chip).fecPass = true ∧ (radioActs s'.cfg plainAnswer.radio s'.chip).crcPass = true
      ∧ 64 ≤ s'.cfg.fifoDepth := by decide

/-! Sequencer and the whole machine -/

theorem witness_Unanswered : State.reset.seq = .idle ∧ State.reset.answers = [] ∧ State.reset.inbox = []
    ∧ Instr.flaw (.wrreg1 exA [(hi, 5), (lf, 2)]) = none ∧ firstSeq (.wrreg1 exA []) ≠ .marshal
    ∧ firstSeq (.enc1 0) = .marshal := by decide
/-- Each position of RX and TX with its answer, and RX_CHECK with the flags both ways. -/
def at_ (q : Seq) (opr : Byte) : State := { okState with seq := q, regs := { Regs.atReset with opr := opr, len := 2, buf := [1, 2] } }
theorem witness_PacketSequencerPositions :
    (∃ o c, chipTransact okState.cfg plainAnswer (statusOps okState) okState.chip = .ok (o, c))
    ∧ (∃ o c, chipTransact okState.cfg plainAnswer [.write [0xF0]] okState.chip = .ok (o, c))
    ∧ (∃ o c, chipTransact okState.cfg plainAnswer [.write [0x45], .read (at_ .rxData 0x70).regs.len] okState.chip = .ok (o, c))
    ∧ (∃ o c, chipTransact okState.cfg plainAnswer [.write [0xE0]] okState.chip = .ok (o, c))
    ∧ (∃ o c, chipTransact okState.cfg plainAnswer [.write [0x05], .write (at_ .txData 0x71).regs.buf] okState.chip = .ok (o, c))
    ∧ (at_ .rxCheck 0x70).inbox = [] ∧ (at_ .rxCheck 0x70).answers = [plainAnswer] ∧ (at_ .rxCheck 0x70).regs.fecp = false
    ∧ ({ (at_ .rxCheck 0x70).regs with fecp := true, crcp := true } : Regs).fecp = true :=
  ⟨⟨_, _, rfl⟩, ⟨_, _, rfl⟩, ⟨_, _, rfl⟩, ⟨_, _, rfl⟩, ⟨_, _, rfl⟩, rfl, rfl, rfl, rfl⟩
/-- A step with an answer, an RX that waits for its status, and one that waits for its bytes. -/
theorem witness_SuspendingMakesNoDifference : (∃ t, step { okState with inbox := [.instr (.request 0x62 [])] } = .next t)
    ∧ State.reset.answers = [] ∧ (∃ t, exec (.rx 2) State.reset = .next t ∧ t.seq ≠ .idle)
    ∧ NoReset State.reset ∧ Inv { at_ .rxData 0x70 with answers := [] } :=
  ⟨⟨_, rfl⟩, rfl, ⟨_, rfl, by decide⟩, (fun _ h => by cases h),
    by decide, rfl, rxChip_ok, (fun _ h => absurd h List.not_mem_nil), rfl⟩
theorem witness_CodesOfResAndSeq : ∃ t, runWhole (.enc1 0) State.reset = .next t ∧ t.seq = .idle := ⟨_, rfl, rfl⟩
theorem witness_HistoryIsOnlyAppendedTo : (∃ t, step okState = .next t) ∧ NoReset okState :=
  ⟨⟨_, rfl⟩, fun _ h => by cases h⟩
theorem witness_EveryStepKeepsTheInvariant : Inv okState ∧ ∃ t, step okState = .next t := ⟨okState_inv, _, rfl⟩
/-- The invariant in the middle of an operation: an RX that waits for its status. -/
theorem witness_invariant_during_an_operation :
    ∃ t, step { State.reset with inbox := [.instr (.request 0x70 [2])] } = .next t ∧ t.seq = .rxStatus ∧ Inv t :=
  ⟨_, rfl, rfl, by decide, rfl, ⟨by decide, by decide, Memory.wf_nil, Memory.wf_nil, Memory.within_nil _, Memory.within_nil _⟩,
    (fun _ h => absurd h List.not_mem_nil), rfl⟩
theorem witness_BlockResetIsSilent : ({ State.reset with inbox := [.blockReset] } : State).inbox = .blockReset :: []
    ∧ ({ State.reset with inbox := [.blockReset] } : State).seq = .idle
    ∧ ({ State.reset with inbox := [.blockReset], seq := .txData } : State).seq ≠ .idle := by decide

end Sys2Proof.Tests
end

section
/-! PROOFS. Register marshalling (40_marshal.md): the integer layer, the register layer bit by bit, and the eight operations
run from an idle state. -/

namespace Sys2Proof.Machine

open Sys2Proof.Spec

/-! ### Integer layer (R77, R83 a to c) -/

theorem ofNat_and_255 (u : Nat) : BitVec.ofNat 8 (u &&& 0xFF) = BitVec.ofNat 8 u := by
  apply BitVec.eq_of_toNat_eq
  rw [show 0xFF = 2 ^ 8 - 1 from rfl, Nat.and_two_pow_sub_one_eq_mod]
  simp

theorem encN_eq_map_shiftRight (n u : Nat) : encN n u = (List.range n).map fun i => BitVec.ofNat 8 (u >>> (8 * i)) := by
  induction n generalizing u with
  | zero => rfl
  | succ n ih =>
    have shift (i : Nat) : u >>> 8 >>> (8 * i) = u >>> (8 * (i + 1)) := by
      rw [← Nat.shiftRight_add, Nat.mul_add, Nat.add_comm]
    simp [encN_succ, ih, List.range_succ_eq_map, shift]

theorem decN_eq_sum (b : List Byte) :
    decN b = ((List.range b.length).map fun i => (b.getD i 0).toNat <<< (8 * i)).sum := by
  induction b with
  | nil => rfl
  | cons x t ih =>
    have shift (i : Nat) : (t.getD i 0).toNat <<< (8 * (i + 1)) = 256 * (t.getD i 0).toNat <<< (8 * i) := by
      rw [Nat.shiftLeft_eq, Nat.shiftLeft_eq, Nat.mul_add, Nat.pow_add, Nat.mul_one]
      ring
    rw [decN_cons_add, ih, ← List.sum_map_mul_left]
    simp only [← shift]
    simp [List.range_succ_eq_map, Function.comp_def]

theorem decN_encN {n u : Nat} (h : u < 2 ^ (8 * n)) : decN (encN n u) = u := by
  induction n generalizing u with
  | zero =>
    have h0 : u = 0 := by simpa using h
    simp [h0]
  | succ n ih =>
    have hq : u >>> 8 < 2 ^ (8 * n) := by
      rw [Nat.mul_add, Nat.pow_add] at h
      rw [Nat.shiftRight_eq_div_pow]
      omega
    rw [encN_succ, decN_cons_add, ih hq, Nat.shiftRight_eq_div_pow, BitVec.toNat_ofNat]
    omega

theorem encN_decN (b : List Byte) : encN b.length (decN b) = b := by
  induction b with
  | nil => rfl
  | cons x t ih =>
    have hx : x.toNat < 256 := x.isLt
    have low : BitVec.ofNat 8 (x.toNat + 256 * decN t) = x := by
      apply BitVec.eq_of_toNat_eq
      rw [BitVec.toNat_ofNat]
      omega
    have high : (x.toNat + 256 * decN t) >>> 8 = decN t := by
      rw [Nat.shiftRight_eq_div_pow]
      omega
    rw [decN_cons_add, List.length_cons, encN_succ, low, high, ih]

theorem encN_injOn {n u u' : Nat} (hu : u < 2 ^ (8 * n)) (hu' : u' < 2 ^ (8 * n)) (h : encN n u = encN n u') : u = u' := by
  rw [← decN_encN hu, h, decN_encN hu']

theorem decN_injOn {b b' : List Byte} (hl : b.length = b'.length) (h : decN b = decN b') : b = b' := by
  rw [← encN_decN b, hl, h, encN_decN]

/-- Settles O6: both by induction, one byte at a time. -/
theorem integerLayerIsGenericInN : Obligations.IntegerLayerIsGenericInN := by
  unfold Obligations.IntegerLayerIsGenericInN
  refine ⟨fun n u => ?_, decN_eq_sum⟩
  simp only [encN_eq_map_shiftRight, ofNat_and_255]

/-! ### Fields bit by bit (R79 to R81) -/

/-- Settles O13, from `testBit_mask`; the listed values by evaluation. -/
theorem maskIsTheLowBits : Obligations.MaskIsTheLowBits := by
  unfold Obligations.MaskIsTheLowBits
  exact ⟨mask_eq, fun w i => by simp [testBit_mask], by decide, by decide, by decide, by decide, by decide, by decide⟩

theorem testBit_fins {n lo w : Nat} (h : lo + w ≤ 8 * n) (c v i : Nat) :
    (fins n c lo w v).testBit i =
      if lo ≤ i ∧ i < lo + w then v.testBit (i - lo) else c.testBit i && decide (i < 8 * n) := by
  simp only [fins, Nat.testBit_or, Nat.testBit_and, Nat.testBit_xor, Nat.testBit_shiftLeft, testBit_mask]
  by_cases hlo : lo ≤ i
  · by_cases hw : i < lo + w
    · have h8 : i < 8 * n := by omega
      have hm : i - lo < w := by omega
      simp [hlo, hw, h8, hm]
    · have hm : ¬ i - lo < w := by omega
      simp [hlo, hw, hm]
  · simp [hlo]

/-- FINS into an empty container: the masked value at the field's place, and no other bit. -/
theorem testBit_fins_zero (n lo w v i : Nat) :
    (fins n 0 lo w v).testBit i = true ↔ (lo ≤ i ∧ i < lo + w) ∧ v.testBit (i - lo) = true := by
  simp only [fins, Nat.zero_and, Nat.zero_or, Nat.testBit_shiftLeft, Nat.testBit_and, testBit_mask, Bool.and_eq_true,
    decide_eq_true_eq]
  constructor
  · rintro ⟨hlo, hv, hw⟩
    exact ⟨⟨hlo, by omega⟩, hv⟩
  · rintro ⟨⟨hlo, hw⟩, hv⟩
    exact ⟨hlo, hv, by omega⟩

theorem fins_lt {n lo w : Nat} (h : lo + w ≤ 8 * n) (c v : Nat) :
    fins n c lo w v < 2 ^ (8 * n) := by
  refine Nat.lt_pow_two_of_testBit _ fun i hi => ?_
  rw [testBit_fins h, if_neg (by omega)]
  simp [hi]

theorem testBit_fext (c lo w i : Nat) : (fext c lo w).testBit i = (c.testBit (lo + i) && decide (i < w)) := by
  simp [fext, testBit_mask, Nat.testBit_shiftRight]

theorem fext_eq_div_mod (c lo w : Nat) : fext c lo w = c / 2 ^ lo % 2 ^ w := by
  rw [fext, mask, Nat.and_two_pow_sub_one_eq_mod, Nat.shiftRight_eq_div_pow]

theorem fext_lt (c lo w : Nat) : fext c lo w < 2 ^ w := by
  rw [fext_eq_div_mod]
  exact Nat.mod_lt _ (Nat.two_pow_pos w)

/-! ### The layouts of a register (R78) -/

theorem testBit_toUint (n : Nat) (fs : List Field) (val : TypedValue) (i : Nat) :
    (toUint n fs val).testBit i = true ↔
      ∃ f ∈ fs, (f.lo ≤ i ∧ i < f.lo + f.w) ∧ (fieldValue val f.name).testBit (i - f.lo) = true := by
  induction fs with
  | nil => simp [toUint]
  | cons f t ih => simp [toUint, ih, testBit_fins_zero]

theorem testBit_fieldMask (fs : List Field) (i : Nat) : (fieldMask fs).testBit i = true ↔ InField fs i := by
  induction fs with
  | nil => simp [fieldMask, InField]
  | cons f t ih =>
    have place : (f.lo ≤ i ∧ i - f.lo < f.w) ↔ (f.lo ≤ i ∧ i < f.lo + f.w) := by omega
    simp only [fieldMask, Nat.testBit_or, Nat.testBit_shiftLeft, testBit_mask, Bool.or_eq_true, Bool.and_eq_true, ih,
      decide_eq_true_eq, ge_iff_le, place]
    simp [InField]

/-- Well-formed fields: each is apart from every later one and has another name (R78). -/
theorem fieldsWf_cons {n : Nat} {f : Field} {t : List Field} (h : fieldsWf n (f :: t) = true) :
    (∀ g ∈ t, (f.lo + f.w ≤ g.lo ∨ g.lo + g.w ≤ f.lo) ∧ f.name ≠ g.name) ∧ fieldsWf n t = true := by
  simp only [fieldsWf, Bool.and_eq_true, List.all_eq_true, Bool.or_eq_true, decide_eq_true_eq] at h
  exact ⟨h.1.2, h.2⟩

theorem field_unique {n : Nat} {fs : List Field} (h : fieldsWf n fs = true) {f g : Field} (hf : f ∈ fs) (hg : g ∈ fs)
    {i : Nat} (hfi : f.lo ≤ i ∧ i < f.lo + f.w) (hgi : g.lo ≤ i ∧ i < g.lo + g.w) : f = g := by
  induction fs with
  | nil => cases hf
  | cons x t ih =>
    obtain ⟨apart, ht⟩ := fieldsWf_cons h
    rcases List.mem_cons.mp hf with rfl | hft <;> rcases List.mem_cons.mp hg with rfl | hgt
    · rfl
    · have := (apart g hgt).1; omega
    · have := (apart f hft).1; omega
    · exact ih ht hft hgt

theorem fieldValue_fromUint {n : Nat} {fs : List Field} (h : fieldsWf n fs = true) {f : Field} (hf : f ∈ fs) (u : Nat) :
    fieldValue (fromUint fs u) f.name = fext u f.lo f.w := by
  induction fs with
  | nil => cases hf
  | cons x t ih =>
    obtain ⟨apart, ht⟩ := fieldsWf_cons h
    rcases List.mem_cons.mp hf with rfl | hft
    · simp [fromUint, fieldValue]
    · rw [fromUint, List.map_cons, fieldValue, if_neg (apart f hft).2]
      exact ih ht hft

/-- Bits of the fields do not mix: a field extracted from TOUINT is its own value, masked (R83 d). -/
theorem fext_toUint {n : Nat} {fs : List Field} (h : fieldsWf n fs = true) {f : Field} (hf : f ∈ fs) (val : TypedValue) :
    fext (toUint n fs val) f.lo f.w = fieldValue val f.name % 2 ^ f.w := by
  refine Nat.eq_of_testBit_eq fun i => ?_
  rw [testBit_fext, Nat.testBit_mod_two_pow, Bool.and_comm]
  by_cases hi : i < f.w
  · have own : f.lo ≤ f.lo + i ∧ f.lo + i < f.lo + f.w := by omega
    simp only [hi, decide_true, Bool.true_and]
    rw [Bool.eq_iff_iff, testBit_toUint]
    constructor
    · rintro ⟨g, hg, hgi, hv⟩
      obtain rfl := field_unique h hf hg own hgi
      simpa using hv
    · exact fun hv => ⟨f, hf, own, by simpa using hv⟩
  · simp [hi]

/-- The register read and written back keeps the bits of its fields and clears the others (R83 e). -/
theorem toUint_fromUint {n : Nat} {fs : List Field} (h : fieldsWf n fs = true) (u : Nat) :
    toUint n fs (fromUint fs u) = u &&& fieldMask fs := by
  refine Nat.eq_of_testBit_eq fun i => ?_
  rw [Bool.eq_iff_iff, testBit_toUint, Nat.testBit_and, Bool.and_eq_true, testBit_fieldMask]
  have bit {f : Field} (hf : f ∈ fs) (hi : f.lo ≤ i ∧ i < f.lo + f.w) :
      (fieldValue (fromUint fs u) f.name).testBit (i - f.lo) = u.testBit i := by
    have inside : i - f.lo < f.w := by omega
    rw [fieldValue_fromUint h hf, testBit_fext, Nat.add_sub_cancel' hi.1]
    simp [inside]
  constructor
  · rintro ⟨f, hf, hi, hv⟩
    exact ⟨bit hf hi ▸ hv, f, hf, hi⟩
  · rintro ⟨hu, f, hf, hi⟩
    exact ⟨f, hf, hi, (bit hf hi).trans hu⟩

theorem fext_congr {u u' lo w : Nat} (h : ∀ i, lo ≤ i ∧ i < lo + w → u.testBit i = u'.testBit i) :
    fext u lo w = fext u' lo w := by
  refine Nat.eq_of_testBit_eq fun i => ?_
  rw [testBit_fext, testBit_fext]
  by_cases hi : i < w
  · rw [h (lo + i) (by omega)]
  · simp [hi]

/-- Settles O7: from the round trips of the two layers, the injectivities being round trips read backwards. -/
theorem marshallingRoundTrips : Obligations.MarshallingRoundTrips := by
  unfold Obligations.MarshallingRoundTrips
  refine ⟨fun _ _ _ hu => decN_encN hu, fun b _ => encN_decN b, encN_length, fun _ _ _ => encN_injOn, fun _ _ => decN_injOn,
    fun n d val _ hwf heq _ _ => ?_, fun _ u _ _ hwf _ => toUint_fromUint hwf u⟩
  rw [heq]
  exact List.map_congr_left fun f hf => by rw [fext_toUint hwf hf]

/-- Settles O8: both by the bits of the two functions. -/
theorem reservedBitsAreZeroOutAndIgnoredIn : Obligations.ReservedBitsAreZeroOutAndIgnoredIn := by
  unfold Obligations.ReservedBitsAreZeroOutAndIgnoredIn
  refine ⟨fun n fs val i _ hi => ?_, fun fs u u' h => ?_⟩
  · rw [← Bool.not_eq_true, testBit_toUint]
    rintro ⟨f, hf, hfi, -⟩
    exact hi ⟨f, hf, hfi⟩
  · exact List.map_congr_left fun f hf => by rw [fext_congr fun i hi => h i ⟨f, hf, hi⟩]

/-! ### The operations from an idle state (R71 to R76, R80, R81, R86) -/

theorem pureResult_returnOk (s : State) (q : Seq) (r : Regs) (d : Data) :
    PureResult s (returnOk d { s with seq := q, regs := r }) d :=
  ⟨⟨rfl, rfl, rfl, rfl⟩, rfl, rfl, rfl, rfl, rfl⟩

/-- An operation with nothing wrong with its operands and no transaction ends in its first step (R86). -/
theorem pureOp_of_idle {s : State} (hs : s.seq = .idle) {flaw : Option OperandFlaw} (hf : flaw = none) (q : Seq) (r : Regs)
    (d : Data) : ∃ t, require flaw (accept s q r fun s' => .next (returnOk d s')) = .next t ∧ PureResult s t d := by
  rw [hf, require_none, accept_of_idle hs]
  exact ⟨_, rfl, pureResult_returnOk ..⟩

theorem marshalEnc_of_idle {s : State} (hs : s.seq = .idle) (hop : Byte) {n : Nat} (hn : legalWidth n = true) (u : Nat) :
    ∃ t, marshalEnc hop n u s = .next t ∧ PureResult s t (.bytes (encN n u)) := by
  have staged : takeStaging (loadStaging s.regs.stg (encN n u)) n = encN n u := by
    simpa using takeStaging_loadStaging s.regs.stg (encN n u) (by simpa using hn)
  rw [marshalEnc, accept_of_idle hs, staged]
  exact ⟨_, rfl, pureResult_returnOk ..⟩

theorem marshalDec_of_idle {s : State} (hs : s.seq = .idle) (hop : Byte) (b : List Byte) (hb : legalWidth b.length = true) :
    ∃ t, marshalDec hop b.length b s = .next t ∧ PureResult s t (.uint (decN b)) := by
  have fits : decN b < 2 ^ 32 := by
    have hle : b.length ≤ 4 := by
      simp only [legalWidth, Bool.or_eq_true, decide_eq_true_eq] at hb
      omega
    exact (decN_lt b).trans_le (Nat.pow_le_pow_right (by decide) (by omega))
  have flawless : decFlaw b.length b = none := by simp [decFlaw]
  rw [marshalDec, flawless, require_none, accept_of_idle hs, takeStaging_loadStaging _ _ hb]
  simp only [BitVec.toNat_ofNat, Nat.mod_eq_of_lt fits]
  exact ⟨_, rfl, pureResult_returnOk ..⟩

theorem encN_toNat {m : Nat} (n : Nat) (u : BitVec m) :
    encN n u.toNat = (List.range n).map fun i => u.extractLsb' (8 * i) 8 :=
  encN_eq_map_shiftRight n u.toNat

/-- Settles O9: ENC_N stages and returns `encN`, whose bytes are the slices of the word. -/
theorem encReturnsLittleEndianBytes : Obligations.EncReturnsLittleEndianBytes := by
  unfold Obligations.EncReturnsLittleEndianBytes
  refine ⟨fun u s hs => ⟨⟨_, rfl⟩, ?_⟩, fun u s hs => ⟨⟨_, rfl⟩, ?_⟩, fun u s hs => ⟨⟨_, rfl⟩, ?_⟩⟩
  · have bytes : encN 1 u.toNat = [u] := by simp
    exact bytes ▸ marshalEnc_of_idle hs 0x01 rfl u.toNat
  · have run := marshalEnc_of_idle hs 0x02 (n := 2) rfl u.toNat
    rwa [encN_toNat] at run
  · have run := marshalEnc_of_idle hs 0x04 (n := 4) rfl u.toNat
    rwa [encN_toNat] at run

/-- Settles O10: DEC_N returns `decN`, the nested shifts of which are spread over the bytes. -/
theorem decReturnsTheUnsignedInteger : Obligations.DecReturnsTheUnsignedInteger := by
  unfold Obligations.DecReturnsTheUnsignedInteger
  refine ⟨fun b s hs => ⟨⟨_, rfl⟩, ?_⟩, fun b0 b1 s hs => ⟨⟨_, rfl⟩, ?_⟩, fun b0 b1 b2 b3 s hs => ⟨⟨_, rfl⟩, ?_⟩⟩
  · have value : decN [b] = b.toNat := by simp
    exact value ▸ marshalDec_of_idle hs 0x11 [b] rfl
  · have value : decN [b0, b1] = b0.toNat ||| (b1.toNat <<< 8) := by simp
    exact value ▸ marshalDec_of_idle hs 0x12 [b0, b1] rfl
  · have value : decN [b0, b1, b2, b3]
        = b0.toNat ||| (b1.toNat <<< 8) ||| (b2.toNat <<< 16) ||| (b3.toNat <<< 24) := by
      simp [Nat.shiftLeft_or_distrib, ← Nat.shiftLeft_add, Nat.or_assoc]
    exact value ▸ marshalDec_of_idle hs 0x14 [b0, b1, b2, b3] rfl

theorem containerFlaw_eq_none {n c lo w : Nat} (hn : legalWidth n = true) (hc : c < 2 ^ (8 * n)) (hw : 1 ≤ w)
    (hlo : lo + w ≤ 8 * n) : containerFlaw n c lo w = none := by
  simp [containerFlaw, hn, hc, hw, hlo]

/-- Settles O11: the result's bits are `testBit_fins`. -/
theorem finsReplacesExactlyTheField : Obligations.FinsReplacesExactlyTheField := by
  unfold Obligations.FinsReplacesExactlyTheField
  intro n c lo w v s hn hc hw hlo hs
  obtain ⟨t, run, pure⟩ := pureOp_of_idle hs (containerFlaw_eq_none hn hc hw hlo) .marshal { s.regs with opr := 0x18 }
    (.uint (fins n c lo w v))
  refine ⟨⟨_, rfl⟩, t, _, run, pure, fins_lt hlo c v, fun i => ?_⟩
  have outside (hi : ¬ i < 8 * n) : c.testBit i = false :=
    Nat.testBit_lt_two_pow (hc.trans_le (Nat.pow_le_pow_right (by decide) (by omega)))
  rw [testBit_fins hlo]
  by_cases hi : i < 8 * n
  · simp [hi]
  · simp [outside hi]

/-- Settles O12: `fext` in arithmetic form is `fext_eq_div_mod`. -/
theorem fextReturnsTheFieldMasked : Obligations.FextReturnsTheFieldMasked := by
  unfold Obligations.FextReturnsTheFieldMasked
  intro n c lo w s hn hc hw hlo hs
  rw [← fext_eq_div_mod]
  obtain ⟨t, run, pure⟩ := pureOp_of_idle hs (containerFlaw_eq_none hn hc hw hlo) .marshal { s.regs with opr := 0x19 }
    (.uint (fext c lo w))
  exact ⟨⟨_, rfl⟩, t, run, pure, fext_lt c lo w⟩

end Sys2Proof.Machine
end

section
/-! PROOFS. Bus transactions (41_bus.md): what the far end makes of a flattened frame, and the operations that are one
transaction. -/

namespace Sys2Proof.Machine

open Sys2Proof.Spec

/-! ### A frame and its beginnings (R94, R102) -/

/-- The number of bytes of a frame. -/
def frameSize (f : Frame) : Nat := f.out.length + f.rd

/-- The first `k` bytes of a frame: of the written bytes first, then of the read phase. -/
def framePrefix (k : Nat) (f : Frame) : Frame := { out := f.out.take k, rd := min f.rd (k - f.out.length) }

theorem frameSize_flattenFrom {f g : Frame} {ops : List Op} (h : flattenFrom f ops = some g) :
    frameSize g = frameSize f + opsSize ops := by
  induction ops generalizing f with
  | nil => cases h; rfl
  | cons op t ih =>
    cases op with
    | write b =>
      simp only [flattenFrom] at h
      split_ifs at h
      rw [ih h]
      simp only [frameSize, opsSize, List.length_append]
      omega
    | read n =>
      rw [ih h]
      simp only [frameSize, opsSize]
      omega

/-- The written bytes of a frame come before its read phase, so that a write that is let onto a frame begun is empty or
continues its written bytes. -/
theorem framePrefix_write {f : Frame} {b : List Byte} (hb : b = [] ∨ f.rd = 0) (k : Nat) :
    framePrefix k { f with out := f.out ++ b } =
      { framePrefix k f with out := (framePrefix k f).out ++ b.take (k - frameSize f) } := by
  rcases hb with rfl | h0
  · simp [framePrefix]
  · simp [framePrefix, frameSize, h0, List.take_append]

theorem framePrefix_read (f : Frame) (n k : Nat) :
    framePrefix k { f with rd := f.rd + n } =
      { framePrefix k f with rd := (framePrefix k f).rd + min (k - frameSize f) n } := by
  simp only [framePrefix, frameSize, Frame.mk.injEq, true_and]
  omega

/-- Cutting the ops and cutting the frame are one: of `k` bytes, those that the frame begun does not take up
are left for the ops. -/
theorem flattenFrom_opsPrefix {f g : Frame} {ops : List Op} (h : flattenFrom f ops = some g) (k : Nat) :
    flattenFrom (framePrefix k f) (opsPrefix (k - frameSize f) ops) = some (framePrefix k g) := by
  induction ops generalizing f with
  | nil => cases h; rfl
  | cons op t ih =>
    cases op with
    | write b =>
      simp only [flattenFrom] at h
      split_ifs at h with hb
      have left : k - frameSize f - b.length = k - frameSize { f with out := f.out ++ b } := by
        simp only [frameSize, List.length_append]
        omega
      have allowed : b.take (k - frameSize f) = [] ∨ (framePrefix k f).rd = 0 :=
        hb.imp (fun hb => by simp [hb]) fun h0 => by simp [framePrefix, h0]
      rw [opsPrefix, flattenFrom, if_pos allowed, ← framePrefix_write hb, left]
      exact ih h
    | read n =>
      have left : k - frameSize f - n = k - frameSize { f with rd := f.rd + n } := by
        simp only [frameSize]
        omega
      rw [opsPrefix, flattenFrom, ← framePrefix_read, left]
      exact ih h

theorem opsSize_of_flatten {ops : List Op} {f : Frame} (h : flatten ops = some f) : opsSize ops = frameSize f := by
  rw [frameSize_flattenFrom h]
  simp [frameSize]

theorem readSize_of_flatten {ops : List Op} {f : Frame} (h : flatten ops = some f) : readSize ops = f.rd := by
  rw [flattenFrom_rd h]
  simp

theorem flatten_opsPrefix {ops : List Op} {f : Frame} (h : flatten ops = some f) (k : Nat) :
    flatten (opsPrefix k ops) = some (framePrefix k f) := by
  simpa [flatten, framePrefix, frameSize] using flattenFrom_opsPrefix h k

/-! ### The far end sees the frame only (R94) -/

theorem frameOf_congr {ops ops' : List Op} (h : flatten ops = flatten ops') : frameOf ops = frameOf ops' := by
  rw [frameOf, frameOf, h]

theorem receiveWhole_congr {ops ops' : List Op} (h : flatten ops = flatten ops') (cfg : Params) (a : Answer) (c : Chip) :
    receiveWhole cfg a ops c = receiveWhole cfg a ops' c := by
  rw [receiveWhole, receiveWhole, frameOf_congr h]

theorem receiveBroken_congr {ops ops' : List Op} {f : Frame} (h : flatten ops = some f) (h' : flatten ops' = some f)
    (cfg : Params) (a : Answer) (k : Nat) (c : Chip) : receiveBroken cfg a ops k c = receiveBroken cfg a ops' k c := by
  have whole := receiveWhole_congr (h.trans h'.symm) cfg a c
  have cut := frameOf_congr ((flatten_opsPrefix h k).trans (flatten_opsPrefix h' k).symm)
  rw [receiveBroken, receiveBroken, opsSize_of_flatten h, opsSize_of_flatten h', whole, cut]

/-- The buffers of the reads, one after another, are the bytes read. -/
theorem splitReads_flatten {ops : List Op} {bs : List Byte} (h : bs.length = readSize ops) :
    (splitReads ops bs).flatten = bs := by
  induction ops generalizing bs with
  | nil => exact (List.length_eq_zero_iff.mp h).symm
  | cons op t ih =>
    cases op with
    | write b => exact ih h
    | read n =>
      rw [readSize_read] at h
      have rest : (bs.drop n).length = readSize t := by
        rw [List.length_drop]
        omega
      rw [splitReads, List.flatten_cons, ih rest, List.take_append_drop]

/-- Two outcomes that differ in nothing but how the bytes read are cut into buffers. -/
def SameBytes (o o' : BusOutcome) : Prop :=
  (∀ e, o = .err e ↔ o' = .err e) ∧ ∀ r, o = .ok r → ∃ r', o' = .ok r' ∧ r.flatten = r'.flatten

theorem sameBytes_err (e : TE) : SameBytes (.err e) (.err e) := ⟨fun _ => Iff.rfl, fun _ h => by cases h⟩

theorem sameBytes_splitReads {ops ops' : List Op} {bs : List Byte} (h : bs.length = readSize ops)
    (h' : bs.length = readSize ops') : SameBytes (.ok (splitReads ops bs)) (.ok (splitReads ops' bs)) := by
  refine ⟨fun e => by simp, fun r hr => ⟨_, rfl, ?_⟩⟩
  cases hr
  rw [splitReads_flatten h, splitReads_flatten h']

theorem referenceTransact_sameBytes {cfg : Params} {a : Answer} {ops ops' : List Op} {f : Frame} {c c1 : Chip}
    {o : BusOutcome} (h : flatten ops = some f) (h' : flatten ops' = some f)
    (hr : referenceTransact cfg a ops c = .ok (o, c1)) :
    ∃ o', referenceTransact cfg a ops' c = .ok (o', c1) ∧ SameBytes o o' := by
  rcases referenceTransact_cases hr with ⟨bs, hf, hw, rfl⟩ | ⟨e, k, hf, hb, rfl⟩
  · have hw' := receiveWhole_congr (h.trans h'.symm) cfg a _ ▸ hw
    refine ⟨.ok (splitReads ops' bs), ?_, sameBytes_splitReads (receiveWhole_length hw) (receiveWhole_length hw')⟩
    simp [referenceTransact, hf, hw']
  · have hb' := receiveBroken_congr h h' cfg a k _ ▸ hb
    exact ⟨_, by simp [referenceTransact, hf, hb'], sameBytes_err _⟩

theorem givenTransact_sameBytes {cfg : Params} {a : Answer} {ops ops' : List Op} {c1 : Chip} {o : BusOutcome}
    (h : readSize ops = readSize ops') (hr : givenTransact cfg a ops = (o, c1)) :
    ∃ o', givenTransact cfg a ops' = (o', c1) ∧ SameBytes o o' := by
  obtain ⟨rfl, ⟨hf, rfl⟩ | ⟨e, k, hf, rfl⟩⟩ := givenTransact_cases hr
  · refine ⟨.ok (splitReads ops' (padTo (readSize ops') a.bytes)), by simp [givenTransact, hf], ?_⟩
    rw [h]
    exact sameBytes_splitReads (by simp [h]) (by simp)
  · exact ⟨_, by simp [givenTransact, hf], sameBytes_err _⟩

theorem chipTransact_sameBytes {cfg : Params} {a : Answer} {ops ops' : List Op} {f : Frame} {c c1 : Chip}
    {o : BusOutcome} (h : flatten ops = some f) (h' : flatten ops' = some f)
    (hc : chipTransact cfg a ops c = .ok (o, c1)) : ∃ o', chipTransact cfg a ops' c = .ok (o', c1) ∧ SameBytes o o' := by
  rcases chipTransact_cases hc with ⟨href, hr⟩ | ⟨hgiven, hr⟩
  · rw [chipTransact_reference href]
    exact referenceTransact_sameBytes h h' hr
  · obtain ⟨o', hr', same⟩ := givenTransact_sameBytes ((readSize_of_flatten h).trans (readSize_of_flatten h').symm) hr
    exact ⟨o', by rw [chipTransact_given hgiven, hr'], same⟩

/-- Settles O17: whole or broken off, what arrives is a function of the flattened frame, and the op list only cuts the bytes
read into buffers. -/
theorem chipSeesNoOpBoundaries : Obligations.ChipSeesNoOpBoundaries := by
  unfold Obligations.ChipSeesNoOpBoundaries
  exact ⟨fun x p => by simp [flatten, flattenFrom], fun _ _ _ _ _ _ _ _ h h' hc => chipTransact_sameBytes h h' hc⟩

/-! ### Operations of one transaction (R91, R95, R101) -/

/-- RES of an operation of one transaction: what it makes of the reads, or the failure unchanged. -/
def outcomeRes (d : List (List Byte) → Data) : BusOutcome → Res
  | .ok reads => .ok (d reads)
  | .err e => .transportErr e

theorem resUnit_eq_outcomeRes (o : BusOutcome) : resUnit o = outcomeRes (fun _ => .unit) o := by cases o <;> rfl

/-- A position that returns when its one transaction is answered, and takes the plain failure edge. -/
theorem afterBus_ends {s : State} {a : Answer} {rest : List Answer} {ops : List Op} {o : BusOutcome} {c : Chip}
    (ha : s.answers = a :: rest) (hc : chipTransact s.cfg a ops s.chip = .ok (o, c)) (d : List (List Byte) → Data) :
    afterBus s (busTransact s ops) failPlain (fun reads s' => .next (returnOk (d reads) s')) =
      .next (finish (outcomeRes d o) { s with
        chip := c, answers := rest, hist := s.hist ++ [{ ops := ops, outcome := o, by_ := s.regs.opr }] }) := by
  cases o with
  | ok reads => rw [busTransact_of_ok ha hc]; rfl
  | err e => rw [busTransact_of_err ha hc]; rfl

/-- An operation that is accepted at such a position puts one frame on the bus, whatever operand registers it loads. -/
theorem oneFrame_of_accept {s : State} {a : Answer} {rest : List Answer} {ops : List Op} {o : BusOutcome} {c : Chip}
    (hs : s.seq = .idle) (ha : s.answers = a :: rest) (hc : chipTransact s.cfg a ops s.chip = .ok (o, c)) (q : Seq)
    (r : Regs) {stage : State → Result} (d : List (List Byte) → Data)
    (hstage : stage { s with seq := q, regs := r } = afterBus { s with seq := q, regs := r }
      (busTransact { s with seq := q, regs := r } ops) failPlain fun reads s' => .next (returnOk (d reads) s')) :
    ∃ t, accept s q r stage = .next t ∧ OneFrame s t rest r.opr ops o c ∧ t.res = outcomeRes d o := by
  rw [accept_of_idle hs, hstage, afterBus_ends (s := { s with seq := q, regs := r }) ha hc d]
  exact ⟨_, rfl, ⟨⟨rfl, rfl, rfl, rfl⟩, rfl, rfl, rfl, rfl⟩, rfl⟩

theorem startTransact_of_idle {s : State} {a : Answer} {rest : List Answer} {ops : List Op} {o : BusOutcome} {c : Chip}
    (hs : s.seq = .idle) (ha : s.answers = a :: rest) (hc : chipTransact s.cfg a ops s.chip = .ok (o, c)) :
    ∃ t, startTransact ops s = .next t ∧ OneFrame s t rest 0x20 ops o c ∧ t.res = outcomeRes .reads o :=
  oneFrame_of_accept hs ha hc .xact { s.regs with opr := 0x20, len := ops.length, ops := ops } .reads rfl

theorem startBwrite_of_idle {s : State} {a : Answer} {rest : List Answer} {b : List Byte} {o : BusOutcome} {c : Chip}
    (hs : s.seq = .idle) (ha : s.answers = a :: rest) (hc : chipTransact s.cfg a [.write b] s.chip = .ok (o, c)) :
    ∃ t, startBwrite b s = .next t ∧ OneFrame s t rest 0x21 [.write b] o c ∧ t.res = resUnit o := by
  rw [resUnit_eq_outcomeRes]
  exact oneFrame_of_accept hs ha hc .xact { s.regs with opr := 0x21, ops := [.write b] } (fun _ => .unit) rfl

theorem exec_transact {ops : List Op} (h : ops ≠ []) (s : State) : exec (.transact ops) s = startTransact ops s := by
  rw [exec, execTransact, opsFlaw, if_neg h, require_none]

theorem exec_bwrite {b : List Byte} (h : b ≠ []) (s : State) : exec (.bwrite b) s = startBwrite b s := by
  rw [exec, execBwrite, bytesFlaw, if_neg h, require_none]

/-- Settles O15, by the one transaction of `startTransact`, whose outcome says RES. -/
theorem transactIsOneTransaction : Obligations.TransactIsOneTransaction := by
  unfold Obligations.TransactIsOneTransaction
  intro ops s a rest o c hops hs ha hc
  obtain ⟨t, run, frame, res⟩ := startTransact_of_idle hs ha hc
  refine ⟨⟨_, rfl⟩, t, (exec_transact hops s).trans run, frame, fun reads ho => ?_, fun e ho => ?_⟩
  · rw [res, ho, outcomeRes]
  · rw [res, ho, outcomeRes]

/-- Settles O16, by the one transaction of `startBwrite`. -/
theorem bwriteIsOneSinglePhaseTransaction : Obligations.BwriteIsOneSinglePhaseTransaction := by
  unfold Obligations.BwriteIsOneSinglePhaseTransaction
  intro b s a rest o c hb hs ha hc
  exact ⟨⟨_, rfl⟩, exec_bwrite hb s ▸ startBwrite_of_idle hs ha hc⟩

end Sys2Proof.Machine
end

section
/-! PROOFS. Register access (42_regaccess.md): which accesses are legal, what RDREG and WRREG stage, the one transaction each
of them is, and which refusals the far end can raise. -/

namespace Sys2Proof.Machine

open Sys2Proof.Spec

/-! ### The legality of an access (R31, R78, R84, R85, R115) -/

theorem legalWidth_iff {n : Nat} : legalWidth n = true ↔ n = 1 ∨ n = 2 ∨ n = 4 := by
  simp [legalWidth, or_assoc]

theorem and_C0_eq_zero_iff (a : Byte) : a &&& 0xC0 = 0 ↔ a.getLsbD 7 = false ∧ a.getLsbD 6 = false := by
  constructor
  · intro h
    have bit (i : Nat) : (a &&& 0xC0).getLsbD i = false := h ▸ BitVec.getLsbD_zero
    exact ⟨by simpa using bit 7, by simpa using bit 6⟩
  · rintro ⟨h7, h6⟩
    refine BitVec.eq_of_getLsbD_eq fun i hi => ?_
    interval_cases i <;> simp_all

/-- The require line of R105 and R109 lets through exactly the usable descriptors. -/
theorem descriptorFlaw_eq_none_iff {reading : Bool} {n : Nat} {d : Descriptor} (hn : legalWidth n = true) :
    descriptorFlaw reading n d = none ↔ Usable (hasFacet reading d) n d := by
  rw [descriptorFlaw, Usable]
  split_ifs with facet width address fields
  · simp [facet]
  · have other : d.width ≠ n := by simpa [hn] using width
    simp [other]
  · exact iff_of_false nofun fun ⟨_, _, h7, h6, _⟩ => address ((and_C0_eq_zero_iff _).mpr ⟨h7, h6⟩)
  · exact iff_of_false nofun fun ⟨_, _, _, _, hr, hw⟩ => by simp [hr, hw] at fields
  · obtain ⟨h7, h6⟩ := (and_C0_eq_zero_iff _).mp (not_not.mp address)
    simp only [Bool.or_eq_true, decide_eq_true_eq, not_or, not_not] at width
    simp only [Bool.not_eq_true', Bool.not_eq_false, Bool.and_eq_true] at facet fields
    exact iff_of_true rfl ⟨facet, width.1, h7, h6, fields⟩

theorem readFlaw_eq_none_iff {n : Nat} {d : Descriptor} (hn : legalWidth n = true) :
    descriptorFlaw true n d = none ↔ Usable d.readable n d := descriptorFlaw_eq_none_iff hn

theorem hasField_iff {val : TypedValue} {name : FieldName} : hasField val name = true ↔ ∃ v, (name, v) ∈ val := by
  simp [hasField]

theorem writeFlaw_eq_none_iff {n : Nat} {d : Descriptor} {val : TypedValue} (hn : legalWidth n = true) :
    writeFlaw n d val = none ↔ Usable d.writable n d ∧ ∀ f ∈ d.wfields, ∃ v, (f.name, v) ∈ val := by
  have usable : descriptorFlaw false n d = none ↔ Usable d.writable n d := descriptorFlaw_eq_none_iff hn
  rw [← usable, writeFlaw]
  cases descriptorFlaw false n d with
  | some why => simp
  | none => simp [hasField_iff]

theorem descriptorFlaw_of_no_facet {reading : Bool} {d : Descriptor} (h : hasFacet reading d = false) (n : Nat) :
    descriptorFlaw reading n d = some .facetMissing := if_pos h

theorem writeFlaw_of_no_facet {d : Descriptor} (h : d.writable = false) (n : Nat) (val : TypedValue) :
    writeFlaw n d val = some .facetMissing := by
  rw [writeFlaw, descriptorFlaw_of_no_facet (reading := false) h]

theorem require_of_ne_none {flaw : Option OperandFlaw} (h : flaw ≠ none) (k : Result) :
    ∃ why, require flaw k = .refused (.operands why) := by
  obtain ⟨why, rfl⟩ := Option.ne_none_iff_exists'.mp h
  exact ⟨why, rfl⟩

/-! ### The six operations as two, by their width (R62, R105, R109) -/

/-- The width of `rdreg n` and `wrreg n`. -/
def accessWidth : Nat → Nat
  | 1 => 1
  | 2 => 2
  | _ => 4

/-- The request code of `rdreg n` (R62). -/
def rdregCode : Nat → Byte
  | 1 => 0x31
  | 2 => 0x32
  | _ => 0x34

/-- The request code of `wrreg n` (R62). -/
def wrregCode : Nat → Byte
  | 1 => 0x41
  | 2 => 0x42
  | _ => 0x44

theorem accessWidth_of_legalWidth {n : Nat} (hn : legalWidth n = true) : accessWidth n = n := by
  rcases legalWidth_iff.mp hn with rfl | rfl | rfl <;> rfl

theorem coded_rdreg (n : Nat) (d : Descriptor) : Coded (rdreg n d) (rdregCode n) :=
  match n with
  | 0 | 1 | 2 | _ + 3 => ⟨_, rfl⟩

theorem coded_wrreg (n : Nat) (d : Descriptor) (val : TypedValue) : Coded (wrreg n d val) (wrregCode n) :=
  match n with
  | 0 | 1 | 2 | _ + 3 => ⟨_, rfl⟩

theorem exec_rdreg (n : Nat) (d : Descriptor) (s : State) :
    exec (rdreg n d) s = readRegisterOp (rdregCode n) (accessWidth n) d s :=
  match n with
  | 0 | 1 | 2 | _ + 3 => rfl

theorem exec_wrreg (n : Nat) (d : Descriptor) (val : TypedValue) (s : State) :
    exec (wrreg n d val) s = writeRegisterOp (wrregCode n) (accessWidth n) d val s :=
  match n with
  | 0 | 1 | 2 | _ + 3 => rfl

/-- Settles O21: the facet is the first thing that the operands are checked for. -/
theorem accessWithoutFacetIsRefused : Obligations.AccessWithoutFacetIsRefused := by
  unfold Obligations.AccessWithoutFacetIsRefused
  refine fun d val s => ⟨fun h n => ?_, fun h n => ?_⟩
  · rw [exec_rdreg, readRegisterOp, descriptorFlaw_of_no_facet (reading := true) h, require]
  · rw [exec_wrreg, writeRegisterOp, writeFlaw_of_no_facet h, require]

/-! ### What is staged (R12, R77, R78) -/

theorem toNat_wid {n : Nat} (hn : legalWidth n = true) : (BitVec.ofNat 3 n).toNat = n := by
  rcases legalWidth_iff.mp hn with rfl | rfl | rfl <;> rfl

theorem takeStaging_loadStaging_encN (g : Staging) {n : Nat} (hn : legalWidth n = true) (u : Nat) :
    takeStaging (loadStaging g (encN n u)) n = encN n u := by
  simpa using takeStaging_loadStaging g (encN n u) (by simpa using hn)

/-- VAL holds every integer of up to four bytes. -/
theorem toNat_ofNat_decN {bs : List Byte} (hb : legalWidth bs.length = true) :
    (BitVec.ofNat 32 (decN bs)).toNat = decN bs := by
  have short : bs.length ≤ 4 := by
    have := legalWidth_iff.mp hb
    omega
  rw [BitVec.toNat_ofNat, Nat.mod_eq_of_lt]
  exact (decN_lt bs).trans_le (Nat.pow_le_pow_right (by decide) (by omega))

theorem fromUint_eq_fieldsOf (fields : List Field) (u : Nat) : fromUint fields u = fieldsOf fields u := by
  simp only [fromUint, fieldsOf, fext_eq_div_mod]

theorem fins_zero (n lo w v : Nat) : fins n 0 lo w v = (v % 2 ^ w) <<< lo := by
  rw [fins, Nat.zero_and, Nat.zero_or, mask, Nat.and_two_pow_sub_one_eq_mod]

theorem toUint_eq_placed (n : Nat) (fields : List Field) (val : TypedValue) : toUint n fields val = placed fields val := by
  induction fields with
  | nil => rfl
  | cons f t ih => rw [toUint, fins_zero, ih, placed, placed, List.foldr_cons]

/-- What RDREG makes of the reads, taken by way of STG and VAL (R105). -/
def readData (fields : List Field) (n : Nat) (g : Staging) (reads : List (List Byte)) : Data :=
  .typed (fromUint fields (BitVec.ofNat 32 (decN (takeStaging (loadStaging g (reads.headD [])) n))).toNat)

theorem readData_singleton (fields : List Field) (g : Staging) {bs : List Byte} (hb : legalWidth bs.length = true) :
    readData fields bs.length g [bs] =
      .typed (fieldsOf fields ((List.range bs.length).map fun i => (bs.getD i 0).toNat <<< (8 * i)).sum) := by
  rw [readData, List.headD_cons, takeStaging_loadStaging _ _ hb, toNat_ofNat_decN hb, fromUint_eq_fieldsOf, decN_eq_sum]

/-! ### The one transaction (R105, R109) -/

theorem afterBus_congr {s : State} {r : BusResult} {fail : TE → Answer → State → Result}
    {ok ok' : List (List Byte) → State → Result} (h : ∀ reads s', r = .answered reads s' → ok reads s' = ok' reads s') :
    afterBus s r fail ok = afterBus s r fail ok' := by
  cases r with
  | answered reads s' => exact h reads s' rfl
  | _ => rfl

/-- The transaction leaves the operand registers as they are, and what is staged after it is discarded at the end. -/
theorem readStage_eq (s : State) :
    readStage s = afterBus s (busTransact s [.write [readByte0 s.regs.addr], .read s.regs.wid.toNat]) failPlain
      fun reads s' => .next (returnOk (readData s.regs.fld s.regs.wid.toNat s.regs.stg reads) s') := by
  refine afterBus_congr fun reads s' h => ?_
  obtain ⟨a, rest, c, -, -, rfl⟩ := busTransact_answered h
  rfl

section

variable {n : Nat} {d : Descriptor} {val : TypedValue} {s : State} {a : Answer} {rest : List Answer} {o : BusOutcome}
  {c : Chip}

theorem readRegisterOp_of_idle (hop : Byte) (hn : legalWidth n = true) (hd : Usable d.readable n d) (hs : s.seq = .idle)
    (ha : s.answers = a :: rest) (hc : chipTransact s.cfg a [.write [d.addr ||| 0x40], .read n] s.chip = .ok (o, c)) :
    ∃ t, readRegisterOp hop n d s = .next t ∧ OneFrame s t rest hop [.write [d.addr ||| 0x40], .read n] o c
      ∧ t.res = outcomeRes (readData d.rfields n s.regs.stg) o := by
  rw [readRegisterOp, (readFlaw_eq_none_iff hn).mpr hd, require_none]
  refine oneFrame_of_accept hs ha hc .regXfer _ _ ?_
  rw [readStage_eq, toNat_wid hn, readByte0]

theorem writeRegisterOp_of_idle (hop : Byte) (hn : legalWidth n = true) (hd : Usable d.writable n d)
    (hval : ∀ f ∈ d.wfields, ∃ v, (f.name, v) ∈ val) (hs : s.seq = .idle) (ha : s.answers = a :: rest)
    (hc : chipTransact s.cfg a [.write [d.addr], .write (encN n (placed d.wfields val))] s.chip = .ok (o, c)) :
    ∃ t, writeRegisterOp hop n d val s = .next t
      ∧ OneFrame s t rest hop [.write [d.addr], .write (encN n (placed d.wfields val))] o c ∧ t.res = resUnit o := by
  rw [resUnit_eq_outcomeRes, writeRegisterOp, (writeFlaw_eq_none_iff hn).mpr ⟨hd, hval⟩, require_none, toUint_eq_placed]
  refine oneFrame_of_accept hs ha hc .regXfer _ (fun _ => .unit) ?_
  rw [writeStage, toNat_wid hn, takeStaging_loadStaging_encN _ hn]

end

/-- Settles O18: the far end's N bytes are the one buffer read, and their integer is taken back from STG. -/
theorem rdregReadsAndDecodes : Obligations.RdregReadsAndDecodes := by
  unfold Obligations.RdregReadsAndDecodes
  intro n hop hcode d s a rest o c hd hs ha hc
  obtain ⟨hn, rfl⟩ : legalWidth n = true ∧ hop = rdregCode n := by
    rcases hcode with ⟨rfl, rfl⟩ | ⟨rfl, rfl⟩ | ⟨rfl, rfl⟩ <;> exact ⟨rfl, rfl⟩
  obtain ⟨t, run, frame, res⟩ := readRegisterOp_of_idle (rdregCode n) hn hd hs ha hc
  refine ⟨coded_rdreg n d, t, by rw [exec_rdreg, accessWidth_of_legalWidth hn, run], frame, ?_⟩
  cases o with
  | err e => exact .inl ⟨e, rfl, res⟩
  | ok reads =>
    obtain ⟨bs, hlen, rfl⟩ := chipTransact_reads hc
    obtain rfl : bs.length = n := by simpa using hlen
    rw [splitReads_write_read, List.take_length] at res ⊢
    refine .inr ⟨bs, rfl, rfl, ?_⟩
    rw [res, outcomeRes, readData_singleton _ _ hn]

/-- Settles O19: what is staged is the encoding of the typed value's integer. -/
theorem wrregEncodesAndWrites : Obligations.WrregEncodesAndWrites := by
  unfold Obligations.WrregEncodesAndWrites
  intro n hop hcode d val s a rest o c ops hd hval hs ha hops hc
  obtain ⟨hn, rfl⟩ : legalWidth n = true ∧ hop = wrregCode n := by
    rcases hcode with ⟨rfl, rfl⟩ | ⟨rfl, rfl⟩ | ⟨rfl, rfl⟩ <;> exact ⟨rfl, rfl⟩
  rw [← encN_eq_map_shiftRight] at hops
  subst hops
  refine ⟨coded_wrreg n d val, ?_⟩
  rw [exec_wrreg, accessWidth_of_legalWidth hn]
  exact writeRegisterOp_of_idle _ hn hd hval hs ha hc

/-! ### What the far end can refuse (R50, R175 to R177): never the operands of a request -/

/-- The refusals that the responder raises. -/
def Refusal.ofResponder : Refusal → Bool
  | .frameNoRule _ | .writeAfterRead | .fifoPastEnd | .registerLength => true
  | .notModelled _ | .undecodable _ | .operands _ | .operationInProgress | .resetDuringOperation => false

theorem frameOf_error {ops : List Op} {why : Refusal} (h : frameOf ops = .error why) : why.ofResponder = true := by
  rw [frameOf] at h
  split at h
  · cases h; rfl
  · split at h <;> cases h
    rfl

theorem respond_error {cfg : Params} {a : Answer} {f : FrameOp} {c : Chip} {why : Refusal}
    (h : respond cfg a f c = .error why) : why.ofResponder = true := by
  cases f with
  | rxFifo n =>
    rw [respond, readFifo] at h
    split_ifs at h
    cases h; rfl
  | txFifo p =>
    rw [respond, writeFifo] at h
    split_ifs at h
    cases h; rfl
  | regRead addr n =>
    rw [respond, readRegister] at h
    split_ifs at h <;> cases h <;> rfl
  | regWrite addr p =>
    rw [respond, writeRegister] at h
    split_ifs at h
    cases h; rfl
  | empty | strobe m | rstRd | rstWr | reset => cases h

theorem receiveWhole_error {cfg : Params} {a : Answer} {ops : List Op} {c : Chip} {why : Refusal}
    (h : receiveWhole cfg a ops c = .error why) : why.ofResponder = true := by
  rw [receiveWhole] at h
  split at h
  · exact respond_error h
  · cases h
    exact frameOf_error ‹_›

theorem respondBroken_error {cfg : Params} {a : Answer} {f : FrameOp} {c : Chip} {why : Refusal}
    (h : respondBroken cfg a f c = .error why) : why.ofResponder = true := by
  cases f with
  | regRead addr n => cases h
  | regWrite addr p => cases h
  | empty | strobe m | rstRd | rstWr | rxFifo n | txFifo p | reset =>
    simp only [respondBroken] at h
    split at h
    · cases h
    · cases h
      exact respond_error ‹_›

theorem receiveBroken_error {cfg : Params} {a : Answer} {ops : List Op} {k : Nat} {c : Chip} {why : Refusal}
    (h : receiveBroken cfg a ops k c = .error why) : why.ofResponder = true := by
  rw [receiveBroken] at h
  split_ifs at h
  · split at h
    · cases h
    · cases h
      exact receiveWhole_error ‹_›
  · split at h
    · exact respondBroken_error h
    · cases h
      exact frameOf_error ‹_›

theorem chipTransact_error {cfg : Params} {a : Answer} {ops : List Op} {c : Chip} {why : Refusal}
    (h : chipTransact cfg a ops c = .error why) : why.ofResponder = true := by
  rw [chipTransact] at h
  split at h
  · simp only [referenceTransact] at h
    split at h
    · split at h
      · cases h
      · cases h
        exact receiveWhole_error ‹_›
    · split at h
      · cases h
      · cases h
        exact receiveBroken_error ‹_›
  · cases h

theorem busTransact_refused {s : State} {ops : List Op} {why : Refusal} (h : busTransact s ops = .refused why) :
    why.ofResponder = true := by
  rw [busTransact] at h
  split at h
  · cases h
  · split at h <;> cases h
    exact chipTransact_error ‹_›

/-- A position that returns when its one transaction is answered, and takes the plain failure edge, refuses only what the far
end refuses. -/
theorem afterBus_refused {s : State} {ops : List Op} {d : List (List Byte) → Data} {why : Refusal}
    (h : afterBus s (busTransact s ops) failPlain (fun reads s' => .next (returnOk (d reads) s')) = .refused why) :
    why.ofResponder = true := by
  cases hb : busTransact s ops with
  | refused r =>
    rw [hb] at h
    cases h
    exact busTransact_refused hb
  | _ => rw [hb] at h; cases h

theorem readStage_refused {s : State} {why : Refusal} (h : readStage s = .refused why) : why.ofResponder = true :=
  afterBus_refused (readStage_eq s ▸ h)

theorem writeStage_refused {s : State} {why : Refusal} (h : writeStage s = .refused why) : why.ofResponder = true :=
  afterBus_refused (d := fun _ => .unit) h

theorem accept_ne_operands {k : State → Result} (hk : ∀ {s why}, k s = .refused why → why.ofResponder = true) (s : State)
    (q : Seq) (r : Regs) (why : OperandFlaw) : accept s q r k ≠ .refused (.operands why) := by
  intro h
  by_cases hs : s.seq = .idle
  · rw [accept_of_idle hs] at h
    cases hk h
  · rw [accept_of_busy hs] at h
    cases h

/-- Settles O22: the operands' flaw is none exactly where the access is usable, and past that check only the far end
refuses. -/
theorem accessToIllegalAddressOrWidthIsRefused : Obligations.AccessToIllegalAddressOrWidthIsRefused := by
  unfold Obligations.AccessToIllegalAddressOrWidthIsRefused
  intro d val s n h
  have hn : legalWidth n = true := legalWidth_iff.mpr h
  rw [exec_rdreg, exec_wrreg, accessWidth_of_legalWidth hn, readRegisterOp, writeRegisterOp]
  refine ⟨fun hbad => ?_, fun hd => ?_, fun hd hval => ?_⟩
  · have unusable (facet : Bool) : ¬ Usable facet n d := by
      rintro ⟨-, hw, h7, h6, -, -⟩
      simp only [hw, h7, h6, Bool.false_eq_true, ne_eq, not_true, or_self] at hbad
    exact ⟨require_of_ne_none (mt (readFlaw_eq_none_iff hn).mp (unusable _)) _,
      require_of_ne_none (fun hf => unusable _ ((writeFlaw_eq_none_iff hn).mp hf).1) _⟩
  · rw [(readFlaw_eq_none_iff hn).mpr hd, require_none]
    exact accept_ne_operands readStage_refused _ _ _
  · rw [(writeFlaw_eq_none_iff hn).mpr ⟨hd, hval⟩, require_none]
    exact accept_ne_operands writeStage_refused _ _ _

end Sys2Proof.Machine
end

section
/-! PROOFS. R134: the six strobe bytes as a formula over the index of a mode, and their inverse by the three fields of a
byte. -/

namespace Sys2Proof

/-! ### The index of a mode -/

theorem modeIndex_le_five (m : Mode) : modeIndex m ≤ 5 := by
  cases m <;> decide

theorem exists_modeIndex_eq {k : Nat} (h : k ≤ 5) : ∃ m, modeIndex m = k := by
  interval_cases k
  exacts [⟨.sleep, rfl⟩, ⟨.idle, rfl⟩, ⟨.standby, rfl⟩, ⟨.pll, rfl⟩, ⟨.rx, rfl⟩, ⟨.tx, rfl⟩]

/-! ### The strobe byte of a mode -/

theorem modeByte_eq_formula (m : Mode) : modeByte m = BitVec.ofNat 8 ((8 + modeIndex m) <<< 4) := by
  cases m <;> rfl

@[simp] theorem modeByte_toNat (m : Mode) : (modeByte m).toNat = 128 + 16 * modeIndex m := by
  cases m <;> rfl

theorem exists_modeByte_eq_iff (b : Byte) :
    (∃ m, modeByte m = b) ↔ b ∈ ([0x80, 0x90, 0xA0, 0xB0, 0xC0, 0xD0] : List Byte) := by
  constructor
  · rintro ⟨m, rfl⟩
    cases m <;> decide
  · intro h
    simp only [List.mem_cons, List.not_mem_nil, or_false] at h
    obtain rfl | rfl | rfl | rfl | rfl | rfl := h
    exacts [⟨.sleep, rfl⟩, ⟨.idle, rfl⟩, ⟨.standby, rfl⟩, ⟨.pll, rfl⟩, ⟨.rx, rfl⟩, ⟨.tx, rfl⟩]

/-- A byte is a strobe of index `k` exactly when its three fields b[7], b[6:4] and b[3:0] say so. -/
theorem toNat_eq_strobe_iff (b : Byte) {k : Nat} (hk : k < 8) :
    b.toNat = 128 + 16 * k ↔ b.getLsbD 7 = true ∧ k = ((b >>> 4) &&& 7).toNat ∧ b &&& 0x0F = 0 := by
  have top : b.getLsbD 7 = true ↔ b.toNat / 128 % 2 = 1 := by
    simp [BitVec.getLsbD, Nat.testBit_eq_decide_div_mod_eq]
  have middle : ((b >>> 4) &&& 7).toNat = b.toNat / 16 % 8 := by
    rw [BitVec.toNat_and, BitVec.toNat_ushiftRight, Nat.shiftRight_eq_div_pow]
    exact Nat.and_two_pow_sub_one_eq_mod _ 3
  have low : b &&& 0x0F = 0 ↔ b.toNat % 16 = 0 := by
    rw [← BitVec.toNat_inj, BitVec.toNat_and]
    exact Eq.congr_left (Nat.and_two_pow_sub_one_eq_mod _ 4)
  rw [top, middle, low]
  have := b.isLt
  omega

theorem modeByte_eq_iff_fields (b : Byte) (m : Mode) :
    modeByte m = b ↔ b.getLsbD 7 = true ∧ modeIndex m = ((b >>> 4) &&& 7).toNat ∧ b &&& 0x0F = 0 := by
  rw [← toNat_eq_strobe_iff b (by have := modeIndex_le_five m; omega), ← modeByte_toNat, ← BitVec.toNat_inj, eq_comm]

/-! ### The inverse -/

@[simp] theorem modeOf_modeByte (m : Mode) : modeOf (modeByte m) = some m := by
  cases m <;> rfl

theorem modeByte_injective : Function.Injective modeByte := fun m m' h =>
  Option.some.inj (by rw [← modeOf_modeByte m, h, modeOf_modeByte])

theorem modeOf_eq_some_iff (b : Byte) (m : Mode) : modeOf b = some m ↔ modeByte m = b := by
  constructor
  · intro h
    unfold modeOf at h
    split_ifs at h with hb hb hb hb hb hb <;> cases h <;> exact hb.symm
  · rintro rfl
    exact modeOf_modeByte m

theorem modeOf_eq_some_iff_fields (b : Byte) (m : Mode) :
    modeOf b = some m ↔ b.getLsbD 7 = true ∧ modeIndex m = ((b >>> 4) &&& 7).toNat ∧ b &&& 0x0F = 0 :=
  (modeOf_eq_some_iff b m).trans (modeByte_eq_iff_fields b m)

theorem modeOf_isSome_iff_fields (b : Byte) :
    (modeOf b).isSome = true ↔ b.getLsbD 7 = true ∧ ((b >>> 4) &&& 7).toNat ≤ 5 ∧ b &&& 0x0F = 0 := by
  simp only [Option.isSome_iff_exists, modeOf_eq_some_iff_fields]
  constructor
  · rintro ⟨m, top, middle, low⟩
    exact ⟨top, middle ▸ modeIndex_le_five m, low⟩
  · rintro ⟨top, middle, low⟩
    obtain ⟨m, index⟩ := exists_modeIndex_eq middle
    exact ⟨m, top, index, low⟩

/-- Settles O5: the formula and the image by the six modes, the inverse and its domain by the fields of a byte. -/
theorem modeByteFormulaAndInverse : Obligations.ModeByteFormulaAndInverse :=
  ⟨⟨rfl, rfl, rfl, rfl, rfl, rfl⟩, modeByte_eq_formula, @modeByte_injective, exists_modeByte_eq_iff,
    modeOf_eq_some_iff_fields, modeOf_isSome_iff_fields⟩

end Sys2Proof
end

section
/-! PROOFS. Packet transfer (44_packet.md): what the status read reports, and the RX that it turns away. -/

namespace Sys2Proof.Machine

open Sys2Proof.Spec

/-! ### The status payload (R18, R169) -/

theorem getLsbD_one_shiftLeft (i j : BitVec 3) : (1#8 <<< i.toNat).getLsbD j.toNat = decide (j = i) := by
  have inside : i.toNat < 8 := i.isLt
  rw [← BitVec.twoPow_eq, BitVec.getLsbD_twoPow]
  simp [inside, BitVec.toNat_inj, eq_comm]

theorem getLsbD_setBit (b : Byte) (i j : BitVec 3) (v : Bool) :
    (setBit b i v).getLsbD j.toNat = if j = i then v else b.getLsbD j.toNat := by
  have inside : j.toNat < 8 := j.isLt
  rw [setBit, apply_ite (BitVec.getLsbD · j.toNat), BitVec.getLsbD_or, BitVec.getLsbD_and, BitVec.getLsbD_not,
    getLsbD_one_shiftLeft]
  cases v <;> by_cases h : j = i <;> simp [h, inside]

theorem statusDecode_statusPayload {cfg : Params} (h : cfg.fecBit ≠ cfg.crcBit) (f k : Bool) (draw : Byte) :
    statusDecode cfg [statusPayload cfg f k draw] = (f, k) := by
  have level (v l : Bool) : ((v == l) == l) = v := by cases v <;> cases l <;> rfl
  simp only [statusDecode, statusPayload, List.headD_cons, getLsbD_setBit, if_neg h, if_true, level]

theorem paramsWf_iff {cfg : Params} : paramsWf cfg = true ↔ cfg.statusAddr ≠ 0x05 ∧ cfg.fecBit ≠ cfg.crcBit := by
  simp [paramsWf]

/-! ### The status read (R53, R61, R169) -/

/-- Byte 0 of a register read is none of the bytes that come before it in R61's order, and has the address in its low bits. -/
theorem readByte0_fields {addr : BitVec 6} (h : addr ≠ 0x05) :
    (readByte0 (addr.setWidth 8)).getLsbD 7 = false ∧ readByte0 (addr.setWidth 8) ≠ 0x45
      ∧ readByte0 (addr.setWidth 8) ≠ 0x05 ∧ readByte0 (addr.setWidth 8) ≠ 0x00
      ∧ (readByte0 (addr.setWidth 8)).getLsbD 6 = true ∧ (readByte0 (addr.setWidth 8)).setWidth 6 = addr := by
  revert addr
  decide

theorem decodeFrame_regRead {addr : BitVec 6} (h : addr ≠ 0x05) (n : Nat) :
    decodeFrame { out := [readByte0 (addr.setWidth 8)], rd := n } = .ok (.regRead addr n) := by
  obtain ⟨h7, h45, h05, h00, h6, low⟩ := readByte0_fields h
  simp only [decodeFrame, h7, h45, h05, h00, h6, low, Bool.false_eq_true, false_and, if_true, if_false]

theorem frameOf_readOps {addr : BitVec 6} (h : addr ≠ 0x05) (n : Nat) : frameOf (readOps addr n) = .ok (.regRead addr n) := by
  have flat : flatten (readOps addr n) = some { out := [readByte0 (addr.setWidth 8)], rd := n } := by
    simp [readOps, flatten, flattenFrom, readByte0]
  simp only [frameOf, flat, decodeFrame_regRead h]

theorem respond_statusRead (cfg : Params) (a : Answer) (c : Chip) : respond cfg a (.regRead cfg.statusAddr 1) c =
    .ok ([statusPayload cfg c.fecPass c.crcPass (a.bytes.headD 0)], c) := by
  rw [respond, readRegister, if_pos rfl, if_pos (by rfl)]

/-- A status read that goes through at the reference responder reports the flags and leaves the chip as the radio left it. -/
theorem chipTransact_statusRead {s : State} {a : Answer} (href : s.cfg.responder = .reference)
    (hwf : paramsWf s.cfg = true) (hf : a.fault = none) :
    ∃ b, chipTransact s.cfg a (statusOps s) s.chip = .ok (.ok [[b]], chipAt s a)
      ∧ statusDecode s.cfg [b] = ((chipAt s a).fecPass, (chipAt s a).crcPass) := by
  obtain ⟨addr, bits⟩ := paramsWf_iff.mp hwf
  refine ⟨_, ?_, statusDecode_statusPayload bits _ _ (a.bytes.headD 0)⟩
  have frame : frameOf (statusOps s) = .ok (.regRead s.cfg.statusAddr 1) := frameOf_readOps addr 1
  rw [chipTransact_reference href]
  simp only [referenceTransact, hf, receiveWhole, frame, respond_statusRead]
  rfl

/-! ### RX up to its verdict (R140 to R142) -/

/-- RX at RX_CHECK: the status read of payload `b` has gone through and left the chip `c`. -/
def atRxCheck (len : Nat) (s : State) (rest : List Answer) (b : Byte) (c : Chip) : State :=
  { s with
    seq := .rxCheck
    regs := { s.regs with
      opr := 0x70, len := len, fecp := (statusDecode s.cfg [b]).1, crcp := (statusDecode s.cfg [b]).2 }
    chip := c
    answers := rest
    hist := s.hist ++ [{ ops := statusOps s, outcome := .ok [[b]], by_ := 0x70 }] }

@[simp] theorem atRxCheck_seq (len : Nat) (s : State) (rest : List Answer) (b : Byte) (c : Chip) :
    (atRxCheck len s rest b c).seq = .rxCheck := rfl

theorem exec_rx_eq_atRxCheck {s : State} {a : Answer} {rest : List Answer} {b : Byte} {c : Chip} (hs : s.seq = .idle)
    (ha : s.answers = a :: rest) (hc : chipTransact s.cfg a (statusOps s) s.chip = .ok (.ok [[b]], c)) (len : Nat) :
    exec (.rx len) s = .next (atRxCheck len s rest b c) := by
  have read := busTransact_of_ok
    (s := { s with seq := .rxStatus, regs := { s.regs with opr := 0x70, len := len } }) ha hc
  rw [exec, execRx, accept_of_idle hs]
  exact congrArg (afterBus _ · _ _) read

theorem resetWaits_eq_false {s : State} (h : NoReset s) : resetWaits s = false := by
  unfold resetWaits
  split
  · exact absurd ‹_› (h _)
  · rfl

/-- RX_CHECK with a flag false ends the operation (R142). -/
theorem step_rxCheck_of_flag_false {s : State} (hq : s.seq = .rxCheck) (hr : NoReset s) (ho : s.regs.opr = 0x70) {f k : Bool}
    (hfk : (s.regs.fecp, s.regs.crcp) = (f, k)) (hbad : f = false ∨ k = false) :
    step s = .next (raisePacket (!f) (!k) s) := by
  obtain ⟨rfl, rfl⟩ := Prod.mk.inj hfk
  have verdict : (s.regs.fecp && s.regs.crcp) = false := Bool.and_eq_false_iff.mpr hbad
  rw [step_of_busy (by simp [hq]) (resetWaits_eq_false hr), resume]
  simp only [hq, if_pos ho, rxCheckStage, verdict, Bool.false_eq_true, if_false]

theorem runWhole_rx_of_flag_false {s : State} {a : Answer} {rest : List Answer} {b : Byte} {c : Chip} (hs : s.seq = .idle)
    (hr : NoReset s) (ha : s.answers = a :: rest) (hc : chipTransact s.cfg a (statusOps s) s.chip = .ok (.ok [[b]], c))
    {f k : Bool} (hd : statusDecode s.cfg [b] = (f, k)) (hbad : f = false ∨ k = false) (len : Nat) :
    runWhole (.rx len) s = .next (raisePacket (!f) (!k) (atRxCheck len s rest b c)) := by
  have check : step (atRxCheck len s rest b c) = .next (raisePacket (!f) (!k) (atRxCheck len s rest b c)) :=
    step_rxCheck_of_flag_false (s := atRxCheck len s rest b c) rfl hr rfl hd hbad
  rw [runWhole, exec_rx_eq_atRxCheck hs ha hc, runOn_busy (by simp), check, runOn_idle rfl]

/-- Settles O39: the status read reports the flags truthfully, and RX_CHECK ends there. -/
theorem rxRejectsABadPacket : Obligations.RxRejectsABadPacket := by
  unfold Obligations.RxRejectsABadPacket
  rintro len s a rest c hs hr href hwf ha hf rfl hbad
  obtain ⟨b, read, flags⟩ := chipTransact_statusRead href hwf hf
  exact ⟨_, b, runWhole_rx_of_flag_false hs hr ha read flags hbad len, ⟨⟨rfl, rfl, rfl, rfl⟩, rfl, rfl, rfl, rfl⟩, flags, rfl⟩

end Sys2Proof.Machine
end

section
/-! PROOFS. The chip as reference responder (45_chip_responder.md): which payloads a status read may return, and the FIFO
pointers between frames. -/

namespace Sys2Proof.Machine

open Sys2Proof.Spec

/-! ### The payloads of a status read (R169) -/

theorem setBit_self (b : Byte) (i : BitVec 3) : setBit b i (b.getLsbD i.toNat) = b := by
  refine BitVec.eq_of_getLsbD_eq fun k hk => ?_
  have bit := getLsbD_setBit b i (BitVec.ofNat 3 k) (b.getLsbD i.toNat)
  rw [BitVec.toNat_ofNat, Nat.mod_eq_of_lt hk] at bit
  rw [bit]
  split_ifs with h
  · rw [← h, BitVec.toNat_ofNat, Nat.mod_eq_of_lt hk]
  · rfl

/-- A payload that decodes to the two flags is the one that the draw of its own bits gives. -/
theorem statusPayload_of_statusDecode {cfg : Params} {b : Byte} {f k : Bool} (h : statusDecode cfg [b] = (f, k)) :
    statusPayload cfg f k b = b := by
  have level (v l : Bool) : ((v == l) == l) = v := by cases v <;> cases l <;> rfl
  obtain ⟨rfl, rfl⟩ := Prod.mk.inj h
  simp only [statusPayload, List.headD_cons, level, setBit_self]

theorem statusRead_returns_iff {cfg : Params} (h : cfg.fecBit ≠ cfg.crcBit) (c : Chip) (b : Byte) :
    (∃ a, respond cfg a (.regRead cfg.statusAddr 1) c = .ok ([b], c)) ↔ statusDecode cfg [b] = (c.fecPass, c.crcPass) := by
  simp only [respond_statusRead, Except.ok.injEq, Prod.mk.injEq, and_true, List.cons.injEq]
  constructor
  · rintro ⟨a, rfl⟩
    exact statusDecode_statusPayload h _ _ _
  · intro hd
    exact ⟨{ (default : Answer) with bytes := [b] }, statusPayload_of_statusDecode hd⟩

/-- Settles O30: a payload that decodes to the flags is its own draw. -/
theorem statusReadReportsTheFlags : Obligations.StatusReadReportsTheFlags := by
  unfold Obligations.StatusReadReportsTheFlags
  intro cfg c hwf
  obtain ⟨addr, bits⟩ := paramsWf_iff.mp hwf
  exact ⟨frameOf_readOps addr 1, fun a => ⟨_, respond_statusRead cfg a c⟩, statusRead_returns_iff bits c⟩

/-! ### The FIFO pointers (R167, R172, R173) -/

theorem Memory.readBytes_add (m : Memory) (i n k : Nat) :
    m.readBytes i (n + k) = m.readBytes i n ++ m.readBytes (i + n) k := by
  induction n generalizing i with
  | zero => simp [readBytes]
  | succ n ih => rw [Nat.succ_add, readBytes, readBytes, ih, List.cons_append, Nat.add_assoc, Nat.add_comm 1 n]

/-- An RX buffer read goes through exactly where it stays inside the buffer, with the bytes from the read pointer on. -/
theorem respond_rxFifo_iff {cfg : Params} {a : Answer} {n : Nat} {c c' : Chip} {bs : List Byte} :
    respond cfg a (.rxFifo n) c = .ok (bs, c') ↔
      c.rdPtr + n ≤ cfg.fifoDepth ∧ bs = c.rxfifo.readBytes c.rdPtr n ∧ c' = { c with rdPtr := c.rdPtr + n } := by
  rw [respond, readFifo]
  split_ifs with inside
  · simp [inside, eq_comm]
  · simp [inside]

theorem respond_keeps_rdPtr {cfg : Params} {a : Answer} {f : FrameOp} {c c' : Chip} {bs : List Byte}
    (h : respond cfg a f c = .ok (bs, c')) (hrst : f ≠ .rstRd) (hreset : f ≠ .reset) (hread : ∀ n, f ≠ .rxFifo n) :
    c'.rdPtr = c.rdPtr := by
  rcases respond_cases h with ⟨-, -, rfl⟩ | ⟨_, -, -, rfl⟩ | ⟨hf, -, -⟩ | ⟨-, -, rfl⟩ | ⟨n, hf, -, -, -⟩ |
    ⟨_, -, -, -, rfl⟩ | ⟨hf, -, -⟩ | ⟨-, -, rfl⟩ | ⟨_, _, -, -, -, -, rfl⟩ | ⟨_, _, -, -, -, rfl⟩
  exacts [rfl, rfl, absurd hf hrst, rfl, absurd hf (hread n), rfl, absurd hf hreset, rfl, rfl, rfl]

theorem respond_keeps_wrPtr {cfg : Params} {a : Answer} {f : FrameOp} {c c' : Chip} {bs : List Byte}
    (h : respond cfg a f c = .ok (bs, c')) (hrst : f ≠ .rstWr) (hreset : f ≠ .reset) (hwrite : ∀ p, f ≠ .txFifo p) :
    c'.wrPtr = c.wrPtr := by
  rcases respond_cases h with ⟨-, -, rfl⟩ | ⟨_, -, -, rfl⟩ | ⟨-, -, rfl⟩ | ⟨hf, -, -⟩ | ⟨_, -, -, -, rfl⟩ |
    ⟨p, hf, -, -, -⟩ | ⟨hf, -, -⟩ | ⟨-, -, rfl⟩ | ⟨_, _, -, -, -, -, rfl⟩ | ⟨_, _, -, -, -, rfl⟩
  exacts [rfl, rfl, rfl, absurd hf hrst, rfl, absurd hf (hwrite p), absurd hf hreset, rfl, rfl, rfl]

theorem respond_rxFifo_add {cfg : Params} {a1 a2 : Answer} {n m : Nat} {c c1 c2 : Chip} {b1 b2 : List Byte}
    (h1 : respond cfg a1 (.rxFifo n) c = .ok (b1, c1)) (h2 : respond cfg a2 (.rxFifo m) c1 = .ok (b2, c2)) (a : Answer) :
    respond cfg a (.rxFifo (n + m)) c = .ok (b1 ++ b2, c2) := by
  obtain ⟨-, rfl, rfl⟩ := respond_rxFifo_iff.mp h1
  obtain ⟨inside, rfl, rfl⟩ := respond_rxFifo_iff.mp h2
  rw [Nat.add_assoc] at inside
  exact respond_rxFifo_iff.mpr ⟨inside, (Memory.readBytes_add _ _ _ _).symm, by simp only [Nat.add_assoc]⟩

theorem length_of_respond_rxFifo {cfg : Params} {a : Answer} {n : Nat} {c c' : Chip} {bs : List Byte}
    (h : respond cfg a (.rxFifo n) c = .ok (bs, c')) : bs.length = n := by
  obtain ⟨-, rfl, -⟩ := respond_rxFifo_iff.mp h
  exact Memory.readBytes_length _ _ _

theorem respond_rxFifo_not_gated {cfg : Params} {a : Answer} {n : Nat} {c c' : Chip} {bs : List Byte}
    (h : respond cfg a (.rxFifo n) c = .ok (bs, c')) (f k : Bool) (m : Mode) :
    respond cfg a (.rxFifo n) { c with fecPass := f, crcPass := k, mode := m }
      = .ok (bs, { c' with fecPass := f, crcPass := k, mode := m }) := by
  obtain ⟨inside, rfl, rfl⟩ := respond_rxFifo_iff.mp h
  exact respond_rxFifo_iff.mpr ⟨inside, rfl, rfl⟩

/-- Settles O31: the pointers by what each rule can answer, the reads by `respond_rxFifo_iff`. -/
theorem pointersAreNotRewound : Obligations.PointersAreNotRewound := by
  unfold Obligations.PointersAreNotRewound
  refine ⟨fun cfg a f c c' bs h => ⟨respond_keeps_rdPtr h, respond_keeps_wrPtr h⟩, ?_,
    fun cfg a n c c' bs f k m h => respond_rxFifo_not_gated h f k m⟩
  intro cfg a1 a2 a3 n m c c1 c2 b1 b2 h1 h2
  exact ⟨length_of_respond_rxFifo h1, length_of_respond_rxFifo h2, respond_rxFifo_add h1 h2 a3⟩

end Sys2Proof.Machine
end

section
/-! PROOFS. What an instruction can do on its way to its end (R14, R15, R151), position by position, and from it the causes of an
operation that fails (60_exceptions.md): a failed transaction (R191), or a packet turned away (R192). -/

namespace Sys2Proof.Machine

open Sys2Proof.Spec

/-! ### One position (R15, R151) -/

/-- The state after a transaction: an answer taken, an entry in H (R91, R101). -/
def transacted (s : State) (c : Chip) (rest : List Answer) (ops : List Op) (o : BusOutcome) : State :=
  { s with chip := c, answers := rest, hist := s.hist ++ [{ ops := ops, outcome := o, by_ := s.regs.opr }] }

/-- What an operation that stands at a position of SEQ can do in one step, whatever the far end makes of its transaction. -/
inductive PositionStep (s : State) : State → Prop
  /-- the far end has not answered (R100) -/
  | waits : PositionStep s s
  /-- MARSHAL: a value is returned, no transaction issued (R86) -/
  | computes (hq : s.seq = .marshal) (d : Data) : PositionStep s (returnOk d s)
  /-- the failure edge; the caller's buffer is RX's to fill (R156, R196) -/
  | fails (hq : s.seq ≠ .marshal) (c : Chip) (rest : List Answer) (ops : List Op) (e : TE) (b : List Byte) :
      PositionStep s (raiseTransport e { transacted s c rest ops (.err e) with callerBuf := b })
  /-- the last transaction went through -/
  | returns (hq : s.seq ≠ .marshal) (c : Chip) (rest : List Answer) (ops : List Op) (reads : List (List Byte))
      (b : List Byte) (d : Data) : PositionStep s (returnOk d { transacted s c rest ops (.ok reads) with callerBuf := b })
  /-- RX_STATUS: the flags are those of the payload (R141) -/
  | readsStatus (hq : s.seq = .rxStatus) (ho : s.regs.opr = 0x70) (c : Chip) (rest : List Answer) (b : List Byte) :
      PositionStep s { transacted s c rest (statusOps s) (.ok [b]) with
        seq := .rxCheck
        regs := { s.regs with fecp := (statusDecode s.cfg b).1, crcp := (statusDecode s.cfg b).2 } }
  /-- RX_CHECK, both flags true (R142) -/
  | acceptsPacket (hq : s.seq = .rxCheck) (hgood : (s.regs.fecp && s.regs.crcp) = true) :
      PositionStep s { s with seq := .rxPtr }
  /-- RX_CHECK, a flag false (R142) -/
  | rejectsPacket (hq : s.seq = .rxCheck) (hbad : (s.regs.fecp && s.regs.crcp) = false) :
      PositionStep s (raisePacket (!s.regs.fecp) (!s.regs.crcp) s)
  /-- RX_PTR or TX_PTR: the buffer access comes next (R143, R148) -/
  | resetsPointer (q : Seq) (hq : s.seq = .rxPtr ∧ q = .rxData ∨ s.seq = .txPtr ∧ q = .txData) (c : Chip)
      (rest : List Answer) (ops : List Op) (reads : List (List Byte)) :
      PositionStep s { transacted s c rest ops (.ok reads) with seq := q }

section

variable {s t : State} {ops : List Op}

/-- A position that issues a transaction waits, takes its failure edge, or does what follows an answer. -/
theorem positionStep_of_afterBus {fail : TE → Answer → State → Result} {ok : List (List Byte) → State → Result}
    (hq : s.seq ≠ .marshal) (h : afterBus s (busTransact s ops) fail ok = .next t)
    (hfail : ∀ e a s', ∃ b, fail e a s' = .next (raiseTransport e { s' with callerBuf := b }))
    (hok : ∀ a c rest reads, chipTransact s.cfg a ops s.chip = .ok (.ok reads, c) →
      ok reads (transacted s c rest ops (.ok reads)) = .next t → PositionStep s t) : PositionStep s t := by
  obtain ⟨-, rfl⟩ | ⟨e, a, s', failed, run⟩ | ⟨reads, s', answered, run⟩ := afterBus_next h
  · exact .waits
  · obtain ⟨rest, c, -, -, rfl⟩ := busTransact_failed failed
    obtain ⟨b, edge⟩ := hfail e a _
    cases edge.symm.trans run
    exact .fails hq c rest ops e b
  · obtain ⟨a, rest, c, -, read, rfl⟩ := busTransact_answered answered
    exact hok a c rest reads read run

theorem failPlain_raises (e : TE) (a : Answer) (s' : State) :
    ∃ b, failPlain e a s' = .next (raiseTransport e { s' with callerBuf := b }) := ⟨s'.callerBuf, rfl⟩

theorem failRx_raises (e : TE) (a : Answer) (s' : State) :
    ∃ b, failRx e a s' = .next (raiseTransport e { s' with callerBuf := b }) := ⟨_, rfl⟩

/-- A position whose transaction is the operation's last. -/
theorem positionStep_of_last (hq : s.seq ≠ .marshal) (d : List (List Byte) → Data)
    (h : afterBus s (busTransact s ops) failPlain (fun reads s' => .next (returnOk (d reads) s')) = .next t) :
    PositionStep s t :=
  positionStep_of_afterBus hq h failPlain_raises fun _ c rest reads _ run => by
    cases run
    exact .returns hq c rest ops reads s.callerBuf (d reads)

theorem reads_of_statusOps {a : Answer} {c : Chip} {reads : List (List Byte)}
    (h : chipTransact s.cfg a (statusOps s) s.chip = .ok (.ok reads, c)) : ∃ b, reads = [b] := by
  obtain ⟨bs, -, rfl⟩ := chipTransact_reads h
  exact ⟨_, rfl⟩

theorem positionStep_of_rxStatusStage (hq : s.seq = .rxStatus) (ho : s.regs.opr = 0x70) (h : rxStatusStage s = .next t) :
    PositionStep s t :=
  positionStep_of_afterBus (by simp [hq]) h failRx_raises fun a c rest reads read run => by
    obtain ⟨b, rfl⟩ := reads_of_statusOps read
    cases run
    exact .readsStatus hq ho c rest b

theorem positionStep_of_rxCheckStage (hq : s.seq = .rxCheck) (h : rxCheckStage s = .next t) : PositionStep s t := by
  unfold rxCheckStage at h
  split_ifs at h with good
  · cases h; exact .acceptsPacket hq good
  · cases h; exact .rejectsPacket hq (Bool.not_eq_true _ ▸ good)

theorem positionStep_of_rxPtrStage (hq : s.seq = .rxPtr) (h : rxPtrStage s = .next t) : PositionStep s t :=
  positionStep_of_afterBus (by simp [hq]) h failRx_raises fun _ c rest reads _ run => by
    cases run
    exact .resetsPointer .rxData (.inl ⟨hq, rfl⟩) c rest _ reads

theorem positionStep_of_rxDataStage (hq : s.seq = .rxData) (h : rxDataStage s = .next t) : PositionStep s t :=
  positionStep_of_afterBus (by simp [hq]) h failRx_raises fun _ c rest reads _ run => by
    cases run
    exact .returns (by simp [hq]) c rest _ reads _ _

theorem positionStep_of_txPtrStage (hq : s.seq = .txPtr) (h : txPtrStage s = .next t) : PositionStep s t :=
  positionStep_of_afterBus (by simp [hq]) h failPlain_raises fun _ c rest reads _ run => by
    cases run
    exact .resetsPointer .txData (.inr ⟨hq, rfl⟩) c rest _ reads

/-- Going on with an operation is a step of its position (R15). -/
theorem positionStep_of_resume (h : resume s = .next t) : PositionStep s t := by
  cases hq : s.seq <;> simp only [resume, hq] at h
  case idle => cases h; exact .waits
  case rxStatus => split_ifs at h with ho; exact positionStep_of_rxStatusStage hq ho h
  case rxCheck => split_ifs at h; exact positionStep_of_rxCheckStage hq h
  case rxPtr => split_ifs at h; exact positionStep_of_rxPtrStage hq h
  case rxData => split_ifs at h; exact positionStep_of_rxDataStage hq h
  case txPtr => split_ifs at h; exact positionStep_of_txPtrStage hq h
  case txData => split_ifs at h; exact positionStep_of_last (by simp [hq]) (fun _ => .unit) h
  case regXfer =>
    split_ifs at h
    · exact positionStep_of_last (by simp [hq]) _ (readStage_eq s ▸ h)
    · exact positionStep_of_last (by simp [hq]) (fun _ => .unit) h
  case strobe => split_ifs at h <;> exact positionStep_of_last (by simp [hq]) (fun _ => .unit) h
  case xact =>
    split_ifs at h
    · exact positionStep_of_last (by simp [hq]) .reads h
    · exact positionStep_of_last (by simp [hq]) (fun _ => .unit) h
  case marshal => cases h

end

/-! ### A whole instruction (R11, R15) -/

/-- The operation is accepted at the position `q` (R15), with whatever operand registers it loads, and takes its first step. -/
def FirstStep (q : Seq) (s t : State) : Prop :=
  ∃ u, (u.seq = q ∧ u.cfg = s.cfg ∧ u.hist = s.hist) ∧ PositionStep u t

section

variable {s t : State}

/-- An operation accepted at a position takes there the step that going on with it would take (log 12). -/
theorem firstStep_of_accept {q : Seq} {r : Regs} {k : State → Result} (h : accept s q r k = .next t)
    (hk : k { s with seq := q, regs := r } = resume { s with seq := q, regs := r }) : FirstStep q s t :=
  ⟨{ s with seq := q, regs := r }, ⟨rfl, rfl, rfl⟩, positionStep_of_resume (hk.symm.trans (accept_next h).2)⟩

theorem firstStep_of_marshal {r : Regs} {d : State → Data}
    (h : accept s .marshal r (fun s' => .next (returnOk (d s') s')) = .next t) : FirstStep .marshal s t := by
  cases (accept_next h).2
  exact ⟨{ s with seq := .marshal, regs := r }, ⟨rfl, rfl, rfl⟩, .computes rfl _⟩

theorem firstStep_of_marshalEnc {hop : Byte} {n u : Nat} (h : marshalEnc hop n u s = .next t) : FirstStep .marshal s t :=
  firstStep_of_marshal (d := fun s' => .bytes (takeStaging s'.regs.stg n)) h

theorem firstStep_of_startTransact {ops : List Op} (h : startTransact ops s = .next t) : FirstStep .xact s t :=
  firstStep_of_accept h rfl

theorem firstStep_of_startBwrite {b : List Byte} (h : startBwrite b s = .next t) : FirstStep .xact s t :=
  firstStep_of_accept h rfl

theorem firstStep_of_readRegisterOp {hop : Byte} {n : Nat} {d : Descriptor} (hhop : hop = 0x31 ∨ hop = 0x32 ∨ hop = 0x34)
    (h : readRegisterOp hop n d s = .next t) : FirstStep .regXfer s t :=
  firstStep_of_accept (require_next h).2 (if_pos hhop).symm

theorem firstStep_of_writeRegisterOp {hop : Byte} {n : Nat} {d : Descriptor} {val : TypedValue}
    (hhop : ¬(hop = 0x31 ∨ hop = 0x32 ∨ hop = 0x34) ∧ (hop = 0x41 ∨ hop = 0x42 ∨ hop = 0x44))
    (h : writeRegisterOp hop n d val s = .next t) : FirstStep .regXfer s t :=
  firstStep_of_accept (require_next h).2 ((if_neg hhop.1).trans (if_pos hhop.2)).symm

theorem firstStep_of_setMode {hop : Byte} {m : Mode}
    (hhop : hop = 0x50 ∨ hop = 0x51 ∨ hop = 0x52 ∨ hop = 0x53 ∨ hop = 0x54 ∨ hop = 0x55)
    (h : setMode hop m s = .next t) : FirstStep .strobe s t :=
  firstStep_of_accept h (if_pos hhop).symm

theorem firstStep_of_command {hop : Byte} {c : Command}
    (hhop : ¬(hop = 0x50 ∨ hop = 0x51 ∨ hop = 0x52 ∨ hop = 0x53 ∨ hop = 0x54 ∨ hop = 0x55)
      ∧ (hop = 0x60 ∨ hop = 0x61 ∨ hop = 0x62)) (h : command hop c s = .next t) : FirstStep .strobe s t :=
  firstStep_of_accept h ((if_neg hhop.1).trans (if_pos hhop.2)).symm

theorem firstStep_of_execTx {buf : List Byte} (h : execTx buf s = .next t) : FirstStep .txPtr s t :=
  ⟨{ s with seq := .txPtr, regs := { s.regs with opr := 0x71, len := buf.length, buf := buf }, callerBuf := buf },
    ⟨rfl, rfl, rfl⟩, positionStep_of_txPtrStage rfl (accept_next h).2⟩

/-- Every instruction that is not refused takes the first step of the position R15 gives it. -/
theorem firstStep_of_exec {i : Instr} (h : exec i s = .next t) : FirstStep (firstSeq i) s t := by
  cases i with
  | enc1 | enc2 | enc4 => exact firstStep_of_marshalEnc h
  | dec1 | dec2 | dec4 | fins | fext => exact firstStep_of_marshal (require_next h).2
  | transact => exact firstStep_of_startTransact (require_next h).2
  | bwrite => exact firstStep_of_startBwrite (require_next h).2
  | rdreg1 | rdreg2 | rdreg4 => exact firstStep_of_readRegisterOp (by decide) h
  | wrreg1 | wrreg2 | wrreg4 => exact firstStep_of_writeRegisterOp (by decide) h
  | setmodeSleep | setmodeIdle | setmodeStandby | setmodePll | setmodeRx | setmodeTx =>
    exact firstStep_of_setMode (by decide) h
  | cmdReset | cmdRstrd | cmdRstwr => exact firstStep_of_command (by decide) h
  | rx => exact firstStep_of_accept h rfl
  | tx => exact firstStep_of_execTx h
  | frameRegwrite | frameRegread | frameTxfifo | frameRxfifo => exact firstStep_of_startTransact h
  | frameReset | strobeSleep | strobeIdle | strobeStandby | strobePll | strobeRx | strobeTx | strobeRstwr | strobeRstrd =>
    exact firstStep_of_startBwrite h

theorem firstSeq_ne_idle (i : Instr) : firstSeq i ≠ .idle := by cases i <;> simp [firstSeq]

theorem firstSeq_ne_rxCheck (i : Instr) : firstSeq i ≠ .rxCheck := by cases i <;> simp [firstSeq]

theorem eq_rx_of_firstSeq {i : Instr} (h : firstSeq i = .rxStatus) : ∃ len, i = .rx len := by
  cases i with
  | rx len => exact ⟨len, rfl⟩
  | _ => cases h

/-- A step during an operation is one of its position. -/
theorem positionStep_of_step (hq : s.seq ≠ .idle) (h : step s = .next t) : PositionStep s t := by
  cases hr : resetWaits s with
  | true => simp [step, nextStep, goOn, hq, hr] at h
  | false => exact positionStep_of_resume (step_of_busy hq hr ▸ h)

variable {P : State → Prop} (hP : ∀ u v, P u → u.seq ≠ .idle → PositionStep u v → P v)

include hP

theorem runOn_keeps (n : Nat) (hs : P s) (h : runOn n (.next s) = .next t) : P t := by
  induction n generalizing s with
  | zero => cases h; exact hs
  | succ n ih =>
    by_cases hq : s.seq = .idle
    · rw [runOn_idle hq] at h
      cases h
      exact hs
    · rw [runOn_busy hq] at h
      cases hstep : step s with
      | next u => exact ih (hP s u hs hq (positionStep_of_step hq hstep)) (hstep ▸ h)
      | fault x => rw [hstep, runOn_fault] at h; cases h
      | refused why => rw [hstep, runOn_refused] at h; cases h

/-- What holds when an operation is accepted and is kept by each step of a position holds when the run stops. -/
theorem runWhole_keeps {i : Instr} (h0 : ∀ u, u.seq = firstSeq i → u.cfg = s.cfg → u.hist = s.hist → P u)
    (h : runWhole i s = .next t) : P t := by
  unfold runWhole at h
  cases hexec : exec i s with
  | next v =>
    obtain ⟨u, ⟨hseq, hcfg, hhist⟩, hstep⟩ := firstStep_of_exec hexec
    exact runOn_keeps hP 3 (hP u v (h0 u hseq hcfg hhist) (hseq ▸ firstSeq_ne_idle i) hstep) (hexec ▸ h)
  | fault x => rw [hexec, runOn_fault] at h; cases h
  | refused why => rw [hexec, runOn_refused] at h; cases h

end

/-! ### TransportErr (R191) -/

/-- Every transaction went through. -/
def WentThrough (es : List Entry) : Prop := ∀ x ∈ es, ∃ reads, x.outcome = .ok reads

/-- RES is a TransportErr exactly when the last of the transactions, the only one that can have failed, failed with it. -/
def ResTells (es : List Entry) (r : Res) : Prop :=
  WentThrough es.dropLast ∧ ∀ e, r = .transportErr e ↔ ∃ x, es.getLast? = some x ∧ x.outcome = .err e

theorem WentThrough.concat {es : List Entry} (h : WentThrough es) {x : Entry} {reads : List (List Byte)}
    (hx : x.outcome = .ok reads) : WentThrough (es ++ [x]) :=
  List.forall_mem_append.mpr ⟨h, List.forall_mem_singleton.mpr ⟨reads, hx⟩⟩

theorem WentThrough.resTells {es : List Entry} (h : WentThrough es) {r : Res} (hr : ∀ e, r ≠ .transportErr e) :
    ResTells es r := by
  refine ⟨fun x hx => h x (List.mem_of_mem_dropLast hx), fun e => ⟨fun he => absurd he (hr e), ?_⟩⟩
  rintro ⟨x, hlast, hx⟩
  obtain ⟨reads, hok⟩ := h x (List.mem_of_getLast? hlast)
  cases hx.symm.trans hok

theorem WentThrough.resTells_concat_err {es : List Entry} (h : WentThrough es) {x : Entry} {e : TE} (hx : x.outcome = .err e) :
    ResTells (es ++ [x]) (.transportErr e) := by
  simp [ResTells, h, hx]

/-- How far an operation accepted in `s` has come: its transactions went through while it is in progress, and RES tells of them
once it has ended; from MARSHAL it issues none. -/
def BusTrace (i : Instr) (s u : State) : Prop :=
  ∃ es, u.hist = s.hist ++ es ∧ (firstSeq i = .marshal → es = [] ∧ (u.seq = .marshal ∨ u.seq = .idle))
    ∧ (u.seq ≠ .idle → WentThrough es) ∧ (u.seq = .idle → ResTells es u.res)

theorem busTrace_step {i : Instr} {s u v : State} (h : BusTrace i s u) (hu : u.seq ≠ .idle) (hstep : PositionStep u v) :
    BusTrace i s v := by
  obtain ⟨es, hist, marshal, through, -⟩ := h
  replace through := through hu
  have onBus (hq : u.seq ≠ .marshal) : firstSeq i ≠ .marshal := fun hi => (marshal hi).2.elim hq hu
  have entry (x : Entry) : u.hist ++ [x] = s.hist ++ (es ++ [x]) := by rw [hist, List.append_assoc]
  cases hstep with
  | waits => exact ⟨es, hist, marshal, fun _ => through, fun h => absurd h hu⟩
  | computes hq d =>
    exact ⟨es, hist, fun hi => ⟨(marshal hi).1, .inr rfl⟩, fun h => absurd rfl h, fun _ => through.resTells (by simp)⟩
  | fails hq c rest ops e b =>
    exact ⟨_, entry _, (absurd · (onBus hq)), fun h => absurd rfl h, fun _ => through.resTells_concat_err rfl⟩
  | returns hq c rest ops reads b d =>
    exact ⟨_, entry _, (absurd · (onBus hq)), fun h => absurd rfl h, fun _ => (through.concat rfl).resTells (by simp)⟩
  | readsStatus hq ho c rest b => exact ⟨_, entry _, (absurd · (onBus (by simp [hq]))), fun _ => through.concat rfl, nofun⟩
  | acceptsPacket hq hgood => exact ⟨es, hist, (absurd · (onBus (by simp [hq]))), fun _ => through, nofun⟩
  | rejectsPacket hq hbad =>
    exact ⟨es, hist, (absurd · (onBus (by simp [hq]))), fun h => absurd rfl h, fun _ => through.resTells (by simp)⟩
  | resetsPointer q hq c rest ops reads =>
    obtain ⟨hq, rfl⟩ | ⟨hq, rfl⟩ := hq <;>
      exact ⟨_, entry _, (absurd · (onBus (by simp [hq]))), fun _ => through.concat rfl, nofun⟩

theorem busTrace_of_accepted {i : Instr} {s u : State} (hq : u.seq = firstSeq i) (hu : u.hist = s.hist) : BusTrace i s u :=
  ⟨[], by simp [hu], fun hi => ⟨rfl, .inl (hq.trans hi)⟩, fun _ => by simp [WentThrough],
    fun h => absurd (hq.symm.trans h) (firstSeq_ne_idle i)⟩

theorem busTrace_of_runWhole {i : Instr} {s t : State} (h : runWhole i s = .next t) : BusTrace i s t :=
  runWhole_keeps (P := BusTrace i s) (fun _ _ => busTrace_step) (fun _ hq _ hu => busTrace_of_accepted hq hu) h

/-- Settles O45, by the trace of entries that every position of the operation keeps. -/
theorem transportErrExactlyOnAFailedTransaction : Obligations.TransportErrExactlyOnAFailedTransaction := by
  unfold Obligations.TransportErrExactlyOnAFailedTransaction
  intro i s t run ended
  obtain ⟨es, hist, marshal, -, tells⟩ := busTrace_of_runWhole run
  obtain ⟨before, last⟩ := tells ended
  refine ⟨es, hist, last, before, fun hi => ⟨(marshal hi).1, fun e he => ?_⟩⟩
  obtain ⟨x, hx, -⟩ := (last e).mp he
  simp [(marshal hi).1] at hx

/-! ### PacketErr (R192) -/

/-- The operation is an RX, and its one transaction a status read that reported these flags. -/
def RxReadFlags (i : Instr) (s u : State) (f k : Bool) : Prop :=
  (∃ len, i = .rx len) ∧ ∃ b, statusDecode s.cfg b = (f, k)
    ∧ u.hist = s.hist ++ [{ ops := statusOps s, outcome := .ok [b], by_ := 0x70 }]

/-- What is known of an operation accepted in `s` up to its verdict on the packet. -/
structure RxTrace (i : Instr) (s u : State) : Prop where
  cfg : u.cfg = s.cfg
  status : u.seq = .rxStatus → (∃ len, i = .rx len) ∧ u.hist = s.hist
  check : u.seq = .rxCheck → RxReadFlags i s u u.regs.fecp u.regs.crcp
  verdict : u.seq = .idle → ∀ f k, u.res = .packetErr f k → (f || k) = true ∧ RxReadFlags i s u (!f) (!k)

theorem rxTrace_step {i : Instr} {s u v : State} (h : RxTrace i s u) (hstep : PositionStep u v) :
    RxTrace i s v := by
  have ⟨cfg, status, check, _⟩ := h
  cases hstep with
  | waits => exact h
  | computes | fails | returns => exact ⟨cfg, nofun, nofun, fun _ _ _ => nofun⟩
  | readsStatus hq ho c rest b =>
    obtain ⟨rx, hist⟩ := status hq
    refine ⟨cfg, nofun, fun _ => ⟨rx, b, cfg ▸ rfl, ?_⟩, nofun⟩
    simp [transacted, hist, ho, statusOps, cfg]
  | acceptsPacket => exact ⟨cfg, nofun, nofun, nofun⟩
  | rejectsPacket hq hbad =>
    refine ⟨cfg, nofun, nofun, fun _ f k res => ?_⟩
    cases res
    rw [← Bool.not_and, hbad, Bool.not_not, Bool.not_not]
    exact ⟨rfl, check hq⟩
  | resetsPointer q hq => obtain ⟨-, rfl⟩ | ⟨-, rfl⟩ := hq <;> exact ⟨cfg, nofun, nofun, nofun⟩

theorem rxTrace_of_accepted {i : Instr} {s u : State} (hq : u.seq = firstSeq i) (hcfg : u.cfg = s.cfg)
    (hu : u.hist = s.hist) : RxTrace i s u where
  cfg := hcfg
  status h := ⟨eq_rx_of_firstSeq (hq.symm.trans h), hu⟩
  check h := absurd (hq.symm.trans h) (firstSeq_ne_rxCheck i)
  verdict h := absurd (hq.symm.trans h) (firstSeq_ne_idle i)

theorem rxTrace_of_runWhole {i : Instr} {s t : State} (h : runWhole i s = .next t) : RxTrace i s t :=
  runWhole_keeps (P := RxTrace i s) (fun _ _ h _ => rxTrace_step h) (fun _ => rxTrace_of_accepted) h

/-- Settles O46, by what is known of an RX that stands at RX_CHECK. -/
theorem packetErrOnlyFromRxAfterAStatusRead : Obligations.PacketErrOnlyFromRxAfterAStatusRead := by
  unfold Obligations.PacketErrOnlyFromRxAfterAStatusRead
  intro i s t f k run ended res
  exact (rxTrace_of_runWhole run).verdict ended f k res

/-! ### The codes of RES and SEQ (R14, R193) -/

theorem subCode_packetErr (f k : Bool) :
    ∃ c, subCode (.packetErr f k) = some c ∧ c.getLsbD 1 = f ∧ c.getLsbD 0 = k := by
  cases f <;> cases k <;> exact ⟨_, rfl, rfl, rfl⟩

/-- Only a PacketErr with neither cause has the sub-code 0b00. -/
theorem eq_packetErr_of_subCode_eq_zero {r : Res} (h : subCode r = some 0) : r = .packetErr false false := by
  match r, h with
  | .packetErr f k, h =>
    obtain ⟨c, hc, rfl, rfl⟩ := subCode_packetErr f k
    cases Option.some.inj (hc.symm.trans h)
    rfl

theorem subCode_ne_zero_of_runWhole {i : Instr} {s t : State} (run : runWhole i s = .next t) (ended : t.seq = .idle) :
    subCode t.res ≠ some 0 := by
  intro h
  obtain ⟨cause, -⟩ := packetErrOnlyFromRxAfterAStatusRead i s t false false run ended (eq_packetErr_of_subCode_eq_zero h)
  cases cause

/-- The positions in the order R14 lists them. -/
def positions : List Seq :=
  [.idle, .rxStatus, .rxCheck, .rxPtr, .rxData, .txPtr, .txData, .regXfer, .strobe, .xact, .marshal]

theorem mem_positions (q : Seq) : q ∈ positions := by cases q <;> decide

theorem seqCode_positions : positions.map seqCode = [0, 1, 2, 3, 4, 5, 6, 7, 8, 9, 10] := rfl

theorem seqCode_injective : Function.Injective seqCode := fun q q' =>
  List.inj_on_of_nodup_map (seqCode_positions ▸ by decide) (mem_positions q) (mem_positions q')

theorem seqCode_le (q : Seq) : (seqCode q).toNat ≤ 10 :=
  (by decide : ∀ q ∈ positions, (seqCode q).toNat ≤ 10) q (mem_positions q)

/-- Settles O47: the codes by their tables, and the sub-code 0b00 by R192, which names a cause for every PacketErr. -/
theorem codesOfResAndSeq : Obligations.CodesOfResAndSeq := by
  unfold Obligations.CodesOfResAndSeq
  exact ⟨fun _ => ⟨rfl, rfl⟩, fun _ => ⟨rfl, rfl⟩, fun f k => ⟨rfl, subCode_packetErr f k⟩,
    fun _ _ _ => subCode_ne_zero_of_runWhole, seqCode_positions, fun _ _ h => seqCode_injective h, seqCode_le⟩

end Sys2Proof.Machine
end

section
/-! PROOFS. The check-to-use window of RX (R47, R224): what RX returns when its three transactions go through, and the packet that
the radio puts into the receive buffer after the status read. -/

namespace Sys2Proof.Machine

open Sys2Proof.Spec

/-! ### The bytes of a packet in a FIFO memory (R167, R174) -/

theorem Memory.read_writeBytes_before (m : Memory) {i j : Nat} (h : j < i) (p : List Byte) :
    (m.writeBytes i p).read j = m.read j := by
  induction p generalizing m i with
  | nil => rfl
  | cons b p ih => rw [writeBytes, ih _ (Nat.lt_succ_of_lt h), read_write_other _ _ _ _ (Nat.ne_of_lt h)]

theorem Memory.readBytes_writeBytes {m : Memory} (hm : m.wf) (i : Nat) (p : List Byte) :
    (m.writeBytes i p).readBytes i p.length = p := by
  induction p generalizing m i with
  | nil => rfl
  | cons b p ih =>
    rw [writeBytes, List.length_cons, readBytes, ih (write_wf i b hm), read_writeBytes_before _ (Nat.lt_succ_self i),
      read_write_same m i b hm]

/-- A packet's cells from an index on, where they lie inside the buffer, are its bytes stored from there. -/
theorem Memory.writeCells_zipIdx {depth : Nat} (m : Memory) {i : Nat} {p : List Byte} (h : i + p.length ≤ depth) :
    m.writeCells depth ((p.zipIdx i).map Prod.swap) = m.writeBytes i p := by
  induction p generalizing m i with
  | nil => rfl
  | cons b p ih =>
    rw [List.length_cons] at h
    rw [List.zipIdx_cons, List.map_cons, Prod.swap_prod_mk, writeCells, if_pos (by omega : i < depth), ih _ (by omega), writeBytes]

/-! ### The two transactions after the status read (R143, R144, R164, R167) -/

/-- A transaction that goes through at the reference responder is one frame's rule, after the radio has acted. -/
theorem chipTransact_of_respond {cfg : Params} {a : Answer} {ops : List Op} {f : FrameOp} {c c' : Chip} {bs : List Byte}
    (href : cfg.responder = .reference) (hf : a.fault = none) (hops : frameOf ops = .ok f)
    (h : respond cfg a f (radioActs cfg a.radio c) = .ok (bs, c')) :
    chipTransact cfg a ops c = .ok (.ok (splitReads ops bs), c') := by
  rw [chipTransact_reference href]
  simp only [referenceTransact, hf, receiveWhole, hops, h]

theorem chipTransact_rstRd {cfg : Params} {a : Answer} (href : cfg.responder = .reference) (hf : a.fault = none) (c : Chip) :
    chipTransact cfg a [.write [0xF0]] c = .ok (.ok [], resetRdPtr (radioActs cfg a.radio c)) :=
  chipTransact_of_respond (f := .rstRd) href hf rfl rfl

theorem chipTransact_rxFifo {cfg : Params} {a : Answer} {n : Nat} {c : Chip} (href : cfg.responder = .reference)
    (hf : a.fault = none) (hn : c.rdPtr + n ≤ cfg.fifoDepth) :
    chipTransact cfg a [.write [0x45], .read n] c =
      .ok (.ok [(radioActs cfg a.radio c).rxfifo.readBytes c.rdPtr n],
        { radioActs cfg a.radio c with rdPtr := c.rdPtr + n }) := by
  obtain ⟨ptr, -⟩ := radioActs_keep cfg a.radio c
  have frame : frameOf [.write [0x45], .read n] = .ok (.rxFifo n) := by
    simp [frameOf, flatten, flattenFrom, decodeFrame]
  rw [chipTransact_of_respond href hf frame (respond_rxFifo_iff.mpr ⟨ptr ▸ hn, rfl, rfl⟩), ptr, splitReads, splitReads,
    splitReads, List.take_of_length_le (Memory.readBytes_length _ _ _).le]

/-! ### RX from its verdict on (R142 to R144) -/

section

variable {s : State} {a : Answer} {rest : List Answer} {c : Chip} (hr : NoReset s) (ho : s.regs.opr = 0x70)

include hr ho

/-- RX_CHECK with both flags true goes on (R142). -/
theorem step_rxCheck_of_flags_true (hq : s.seq = .rxCheck) (hf : s.regs.fecp = true) (hk : s.regs.crcp = true) :
    step s = .next { s with seq := .rxPtr } := by
  rw [step_of_busy (by simp [hq]) (resetWaits_eq_false hr), resume]
  simp only [hq, if_pos ho, rxCheckStage, hf, hk, Bool.and_self, if_true]

theorem step_rxPtr_of_ok (hq : s.seq = .rxPtr) (ha : s.answers = a :: rest) {reads : List (List Byte)}
    (hc : chipTransact s.cfg a [.write [0xF0]] s.chip = .ok (.ok reads, c)) :
    step s = .next { transacted s c rest [.write [0xF0]] (.ok reads) with seq := .rxData } := by
  rw [step_of_busy (by simp [hq]) (resetWaits_eq_false hr), resume]
  simp only [hq, if_pos ho]
  exact congrArg (afterBus s · _ _) (busTransact_of_ok ha hc)

theorem step_rxData_of_ok (hq : s.seq = .rxData) (ha : s.answers = a :: rest) {bs : List Byte}
    (hc : chipTransact s.cfg a [.write [0x45], .read s.regs.len] s.chip = .ok (.ok [bs], c)) :
    step s = .next (returnOk (.bytes bs)
      { transacted s c rest [.write [0x45], .read s.regs.len] (.ok [bs]) with callerBuf := bs }) := by
  rw [step_of_busy (by simp [hq]) (resetWaits_eq_false hr), resume]
  simp only [hq, if_pos ho]
  exact congrArg (afterBus s · _ _) (busTransact_of_ok ha hc)

end

/-- RX whose status read saw both flags good returns what the buffer read brings, whatever the far end did in between. -/
theorem runWhole_rx_of_flags_true {s : State} {a1 a2 a3 : Answer} {rest : List Answer} {b : Byte} {bs : List Byte}
    {c1 c2 c3 : Chip} {len : Nat} (hs : s.seq = .idle) (hr : NoReset s) (ha : s.answers = a1 :: a2 :: a3 :: rest)
    (status : chipTransact s.cfg a1 (statusOps s) s.chip = .ok (.ok [[b]], c1)) (good : statusDecode s.cfg [b] = (true, true))
    (ptr : chipTransact s.cfg a2 [.write [0xF0]] c1 = .ok (.ok [], c2))
    (data : chipTransact s.cfg a3 [.write [0x45], .read len] c2 = .ok (.ok [bs], c3)) :
    runWhole (.rx len) s = .next (returnOk (.bytes bs)
      { s with
        callerBuf := bs
        chip := c3
        answers := rest
        hist := s.hist ++ [{ ops := statusOps s, outcome := .ok [[b]], by_ := 0x70 },
          { ops := [.write [0xF0]], outcome := .ok [], by_ := 0x70 },
          { ops := [.write [0x45], .read len], outcome := .ok [bs], by_ := 0x70 }] }) := by
  obtain ⟨fec, crc⟩ := Prod.mk.inj good
  rw [runWhole, exec_rx_eq_atRxCheck hs ha status, runOn_busy (by simp),
    step_rxCheck_of_flags_true (s := atRxCheck len s _ b c1) hr rfl rfl fec crc, runOn_busy (by simp),
    step_rxPtr_of_ok (s := { atRxCheck len s _ b c1 with seq := .rxPtr }) hr rfl rfl rfl ptr, runOn_busy (by simp),
    step_rxData_of_ok (s := { transacted { atRxCheck len s _ b c1 with seq := .rxPtr } c2 _ _ _ with seq := .rxData })
      hr rfl rfl rfl data, runOn_zero]
  simp [finish, transacted, atRxCheck]

/-! ### The window (R47, R224) -/

/-- An answer before which a packet has arrived: its bytes at the front of the receive buffer, and its flags. -/
def packetArrives (bs : List Byte) (f k : Bool) : Answer :=
  { plainAnswer with radio := [.receive (bs.zipIdx.map Prod.swap), .flags f k] }

/-- The answers after the status read where a packet arrives between the pointer reset and the buffer read. -/
def packetInWindow (bs : List Byte) (f k : Bool) : List Answer := [plainAnswer, packetArrives bs f k]

theorem radioActs_packetArrives {cfg : Params} {bs : List Byte} (h : bs.length ≤ cfg.fifoDepth) (f k : Bool) (c : Chip) :
    radioActs cfg (packetArrives bs f k).radio c =
      { c with rxfifo := c.rxfifo.writeBytes 0 bs, fecPass := f, crcPass := k } := by
  have cells := Memory.writeCells_zipIdx c.rxfifo (i := 0) (p := bs) (by omega : 0 + bs.length ≤ cfg.fifoDepth)
  simp only [packetArrives, radioActs, radioAct, cells]

/-- The buffer read that starts at index 0 after a packet has arrived brings that packet, and its flags are then the chip's. -/
theorem chipTransact_rxFifo_packetArrives {cfg : Params} {bs : List Byte} {c : Chip} (href : cfg.responder = .reference)
    (hfit : bs.length ≤ cfg.fifoDepth) (hptr : c.rdPtr = 0) (hwf : c.rxfifo.wf) (f k : Bool) :
    chipTransact cfg (packetArrives bs f k) [.write [0x45], .read bs.length] c = .ok (.ok [bs],
      { c with rxfifo := c.rxfifo.writeBytes 0 bs, rdPtr := bs.length, fecPass := f, crcPass := k }) := by
  have inside : c.rdPtr + bs.length ≤ cfg.fifoDepth := by omega
  rw [chipTransact_rxFifo href rfl inside, radioActs_packetArrives hfit, hptr, Memory.readBytes_writeBytes hwf, Nat.zero_add]

/-- Settles O41: the packet arrives between the pointer reset and the buffer read, so that the status read reports the flags of
the packet before it. -/
theorem rxMayReturnBytesItsFlagsDidNotVouchFor : Obligations.RxMayReturnBytesItsFlagsDidNotVouchFor := by
  unfold Obligations.RxMayReturnBytesItsFlagsDidNotVouchFor
  rintro bs f k s hs hr href ⟨params, -, ⟨-, -, rxWf, -⟩, -⟩ hfit hfec hcrc
  obtain ⟨b, status, flags⟩ := chipTransact_statusRead (a := plainAnswer) href params rfl
  have good : statusDecode s.cfg [b] = (true, true) := flags.trans (Prod.ext hfec hcrc)
  have ptr := chipTransact_rstRd (a := plainAnswer) href rfl s.chip
  have data := chipTransact_rxFifo_packetArrives (c := resetRdPtr s.chip) href hfit rfl rxWf f k
  obtain ⟨fec, crc⟩ := Prod.mk.inj good
  have first := exec_rx_eq_atRxCheck (s := { s with answers := plainAnswer :: packetInWindow bs f k }) hs rfl status bs.length
  have whole := runWhole_rx_of_flags_true (s := { s with answers := plainAnswer :: packetInWindow bs f k }) hs hr rfl status good
    ptr data
  exact ⟨plainAnswer, packetInWindow bs f k, rfl, ⟨_, first, rfl, rfl, rfl, fec, crc⟩, ⟨_, whole, rfl, rfl, rfl, rfl⟩⟩

end Sys2Proof.Machine
end

section
/-! PROOFS. The encodings (30_encoding.md): every reader of operand words reads back what its writer wrote, and every frame
decodes to the row it was encoded from. -/

namespace Sys2Proof

open Sys2Proof.Machine Sys2Proof.Spec

/-! ### Operand words read back (log 9) -/

theorem whole_of_append {α : Type} {p : Parse α} {ws : List Nat} {x : α} (h : ∀ r, p (ws ++ r) = some (x, r)) :
    whole p ws = some x := by
  have toItsEnd := h []
  rw [List.append_nil] at toItsEnd
  rw [whole, toItsEnd]

/-- A count and then the things, if one thing is read back from what is written. -/
theorem takeList_flatMap {α : Type} {p : Parse α} {w : α → List Nat} {xs : List α}
    (h : ∀ x ∈ xs, ∀ r, p (w x ++ r) = some (x, r)) (r : List Nat) :
    takeList p (xs.length :: xs.flatMap w ++ r) = some (xs, r) := takeMany_flatMap p w xs r h

theorem takeField_fieldWords {f : Field} (hw : 1 ≤ f.w) (r : List Nat) : takeField (fieldWords f ++ r) = some (f, r) := by
  rw [fieldWords, List.append_assoc, takeField, takeList_name]
  simp [Nat.sub_add_cancel hw]

theorem takeEntry_entryWords (e : FieldName × Nat) (r : List Nat) : takeEntry (entryWords e ++ r) = some (e, r) := by
  rw [entryWords, List.append_assoc, takeEntry, takeList_name]
  rfl

theorem takeOp_opWords (op : Op) (r : List Nat) : takeOp (opWords op ++ r) = some (op, r) := by
  cases op with
  | write b => simp only [opWords, List.cons_append, takeOp, takeList, takeMany_bytes]
  | read n => rfl

/-- A well-formed field has a bit, and lies inside the register (R78). -/
theorem field_inside {n : Nat} {fs : List Field} (h : fieldsWf n fs = true) {f : Field} (hf : f ∈ fs) :
    1 ≤ f.w ∧ f.lo + f.w ≤ 8 * n := by
  induction fs with
  | nil => cases hf
  | cons x t ih =>
    rcases List.mem_cons.mp hf with rfl | hft
    · simp only [fieldsWf, Bool.and_eq_true, decide_eq_true_eq] at h
      exact h.1.1
    · exact ih (fieldsWf_cons h).2 hft

theorem takeList_fieldsWords {n : Nat} {fs : List Field} (h : fieldsWf n fs = true) (r : List Nat) :
    takeList takeField (fieldsWords fs ++ r) = some (fs, r) :=
  takeList_flatMap (fun _ hf => takeField_fieldWords (field_inside h hf).1) r

theorem ofNat_toNat_sub_one_add_one (a : Byte) : BitVec.ofNat 8 ((a - 1).toNat + 1) = a := by
  rw [BitVec.ofNat_add, BitVec.ofNat_toNat, BitVec.setWidth_eq]
  exact BitVec.sub_add_cancel a 1

theorem facetCode_fields (d : Descriptor) : facetCode d < 4 ∧ (facetCode d = 0 || facetCode d = 1) = d.readable
    ∧ (facetCode d = 0 || facetCode d = 2) = d.writable := by
  rw [facetCode]
  cases d.readable <;> cases d.writable <;> decide

theorem takeDescriptor_descriptorWords {facet : Bool} {n : Nat} {d : Descriptor} (h : Usable facet n d) (r : List Nat) :
    takeDescriptor n (descriptorWords n d ++ r) = some (d, r) := by
  obtain ⟨-, width, -, -, rfields, wfields⟩ := h
  obtain ⟨known, readable, writable⟩ := facetCode_fields d
  rw [descriptorWords, List.cons_append, List.cons_append, List.cons_append, List.append_assoc, takeDescriptor,
    if_pos ⟨(d.addr - 1).isLt, known⟩, takeList_fieldsWords rfields]
  simp only [takeList_fieldsWords wfields, ofNat_toNat_sub_one_add_one, readable, writable, if_true, ← width]

theorem takeWrite_writeWords {facet : Bool} {n : Nat} {d : Descriptor} (h : Usable facet n d) (v : TypedValue)
    (r : List Nat) :
    takeWrite n (writeWords n d v ++ r) = some ((d, v), r) := by
  simp only [writeWords, List.append_assoc, takeWrite, takeDescriptor_descriptorWords h,
    takeList_flatMap (fun e _ => takeEntry_entryWords e)]

/-! ### The operands of a request (R62) -/

theorem uintOperand_toNat {bits : Nat} (u : BitVec bits) : uintOperand bits [u.toNat] = some u := by
  simp [uintOperand, u.isLt]

theorem bytesOperand_byteWords (b : List Byte) : bytesOperand (byteWords b) = some b := by
  have length : (byteWords b).length = b.length := List.length_map ..
  rw [bytesOperand, length]
  exact whole_of_append (takeMany_bytes b)

theorem bufferOperand_byteWords (b : List Byte) : bufferOperand (b.length :: byteWords b) = some b := by
  exact (if_pos (List.length_map ..)).trans (bytesOperand_byteWords b)

theorem opsOperand_opWords {ops : List Op} (h : ops ≠ []) :
    opsOperand ((ops.length - 1) :: ops.flatMap opWords) = some ops := by
  rw [opsOperand, Nat.sub_add_cancel (List.length_pos_iff.mpr h)]
  exact whole_of_append fun r => takeMany_flatMap takeOp opWords ops r fun op _ => takeOp_opWords op

theorem containerWidth_containerCode {n : Nat} (h : legalWidth n = true) : containerWidth (containerCode n) = some n := by
  rcases legalWidth_iff.mp h with rfl | rfl | rfl <;> rfl

theorem of_containerFlaw_eq_none {n c lo w : Nat} (h : containerFlaw n c lo w = none) : legalWidth n = true ∧ 1 ≤ w := by
  unfold containerFlaw at h
  split_ifs at h with width place
  simp only [Bool.and_eq_true, decide_eq_true_eq] at place
  exact ⟨by simpa using width, place.1.2⟩

theorem opsFlaw_eq_none_iff {ops : List Op} : opsFlaw ops = none ↔ ops ≠ [] := by
  simp [opsFlaw]

theorem orUnreadable_map {α : Type} {o : Option α} {x : α} (h : o = some x) (code : Byte) (f : α → Instr) :
    orUnreadable code (o.map f) = .ok (f x) := by
  rw [h]; rfl

/-! ### Frames (R61) -/

/-- Byte 0 of a register write is none of the bytes that come before it in R61's order, and is the address. -/
theorem writeByte0_fields {addr : BitVec 6} (h : addr ≠ 0x05) :
    (addr.setWidth 8).getLsbD 7 = false ∧ addr.setWidth 8 ≠ (0x45 : Byte)
      ∧ addr.setWidth 8 ≠ (0x05 : Byte) ∧ (addr.setWidth 8 = (0x00 : Byte) ↔ addr = 0x00)
        ∧ (addr.setWidth 8).getLsbD 6 = false
      ∧ (addr.setWidth 8).setWidth 6 = addr := by
  revert addr
  decide

theorem decodeFrame_regWrite {addr : BitVec 6} {p : List Byte} (h : addr ≠ 0x05) (hreset : ¬(addr = 0x00 ∧ p = [0x00])) :
    decodeFrame { out := addr.setWidth 8 :: p, rd := 0 } = .ok (.regWrite addr p) := by
  obtain ⟨h7, h45, h05, h00, h6, low⟩ := writeByte0_fields h
  simp only [decodeFrame, h7, h45, h05, h00, h6, low, and_true, if_neg hreset, Bool.false_eq_true, if_false, if_true]

theorem decodeFrame_strobe (m : Mode) : decodeFrame (encodeFrame (.strobe m)) = .ok (.strobe m) := by
  cases m <;> rfl

theorem decode_frame {f : FrameOp} {i : Instr} (hf : decodeFrame (encodeFrame f) = .ok f) (hi : frameInstr f = .ok i) :
    decode (.frame (encodeFrame f)) = .ok i := by
  rw [decode, hf]
  exact hi

theorem wf_iff {i : Instr} : i.wf = true ↔ i.flaw = none ∧ i.ownFrame = true := by
  simp [Instr.wf]

/-- Settles O3: a request by reading its operand words back, a frame by decoding it in R61's order. -/
theorem decodeOfEncodeIsTheInstruction : Obligations.DecodeOfEncodeIsTheInstruction := by
  unfold Obligations.DecodeOfEncodeIsTheInstruction
  intro i wf
  obtain ⟨flaw, own⟩ := wf_iff.mp wf
  cases i with
  | enc1 u | enc2 u | enc4 u => exact orUnreadable_map (uintOperand_toNat u) _ _
  | dec1 b | dec2 b | dec4 b | bwrite b => exact orUnreadable_map (bytesOperand_byteWords b) _ _
  | fins n c lo w v =>
    obtain ⟨width, hw⟩ := of_containerFlaw_eq_none flaw
    exact (orUnreadable_map (containerWidth_containerCode width) _ _).trans (by rw [Nat.sub_add_cancel hw])
  | fext n c lo w =>
    obtain ⟨width, hw⟩ := of_containerFlaw_eq_none flaw
    exact (orUnreadable_map (containerWidth_containerCode width) _ _).trans (by rw [Nat.sub_add_cancel hw])
  | transact ops =>
    exact orUnreadable_map (opsOperand_opWords (opsFlaw_eq_none_iff.mp flaw)) _ _
  | rdreg1 d | rdreg2 d | rdreg4 d =>
    have usable := (readFlaw_eq_none_iff (by rfl)).mp flaw
    exact orUnreadable_map (whole_of_append (takeDescriptor_descriptorWords usable)) _ _
  | wrreg1 d v | wrreg2 d v | wrreg4 d v =>
    have usable := ((writeFlaw_eq_none_iff (by rfl)).mp flaw).1
    exact orUnreadable_map (whole_of_append (takeWrite_writeWords usable v)) _ _
  | setmodeSleep | setmodeIdle | setmodeStandby | setmodePll | setmodeRx | setmodeTx | cmdReset | cmdRstrd | cmdRstwr
  | rx len => rfl
  | tx buf => exact orUnreadable_map (bufferOperand_byteWords buf) _ _
  | frameRegwrite a p =>
    simp only [Instr.ownFrame, Bool.and_eq_true, decide_eq_true_eq, Bool.not_eq_true', Bool.and_eq_false_iff,
      decide_eq_false_iff_not, ← not_and_or] at own
    obtain ⟨⟨-, port⟩, reset⟩ := own
    exact decode_frame (decodeFrame_regWrite port reset) rfl
  | frameRegread a n =>
    simp only [Instr.ownFrame, Bool.and_eq_true, decide_eq_true_eq] at own
    exact decode_frame (decodeFrame_regRead own.2 n) rfl
  | frameTxfifo | frameRxfifo | frameReset | strobeRstwr | strobeRstrd => exact decode_frame rfl rfl
  | strobeSleep | strobeIdle | strobeStandby | strobePll | strobeRx | strobeTx =>
      exact decode_frame (decodeFrame_strobe _) rfl

/-! ### A frame that decodes (R50 to R61) -/

theorem regRead_byte0 {b : Byte} (h7 : b.getLsbD 7 = false) (h6 : b.getLsbD 6 = true) :
    (b.setWidth 6).setWidth 8 ||| 0x40 = b := by
  revert b
  decide

theorem regWrite_byte0 {b : Byte} (h7 : b.getLsbD 7 = false) (h6 : b.getLsbD 6 = false) : (b.setWidth 6).setWidth 8 = b := by
  revert b
  decide

/-- The branches of R61's order, each of which fixes the whole frame. -/
theorem encodeFrame_of_decodeFrame {f : Frame} {op : FrameOp} (h : decodeFrame f = .ok op) : encodeFrame op = f := by
  obtain ⟨out, rd⟩ := f
  cases out with
  | nil =>
    simp only [decodeFrame] at h
    split_ifs at h with noRead
    cases h
    rw [encodeFrame, noRead]
  | cons b p =>
    cases h7 : b.getLsbD 7 with
    | true =>
      obtain ⟨rfl, rfl⟩ : p = [] ∧ rd = 0 := by
        by_contra more
        rw [not_and_or] at more
        simp only [decodeFrame, h7, if_true, if_pos more] at h
        cases h
      simp only [decodeFrame, h7, if_true, ne_eq, not_true, or_self, if_false] at h
      cases mode : modeOf b with
      | some m =>
        rw [mode] at h
        cases h
        rw [encodeFrame, (modeOf_eq_some_iff b m).mp mode]
      | none =>
        simp only [mode] at h
        split_ifs at h with writePtr readPtr
        · cases h; rw [encodeFrame, writePtr]
        · cases h; rw [encodeFrame, readPtr]
    | false =>
      simp only [decodeFrame, h7, Bool.false_eq_true, if_false] at h
      split_ifs at h with rxPort noPayload txPort noRead reset h6 noPayload noRead <;> cases h
      · rw [encodeFrame, rxPort, noPayload]
      · rw [encodeFrame, txPort, noRead]
      · obtain ⟨rfl, rfl, rfl⟩ := reset; rfl
      · rw [encodeFrame, regRead_byte0 h7 h6, noPayload]
      · rw [encodeFrame, regWrite_byte0 h7 (Bool.not_eq_true _ ▸ h6), noRead]

/-- Settles O4: every branch of the decoder fixes the whole frame. -/
theorem frameHasOneMeaning : Obligations.FrameHasOneMeaning := fun _ _ => encodeFrame_of_decodeFrame

end Sys2Proof
end

section
/-! PROOFS. The sequencer from outside (R11, R15, R24, R100, R151): an instruction accepted stands at its first position with
its operands loaded, and each position waits, issues one transaction, or goes on in the block alone. -/

namespace Sys2Proof.Machine

open Sys2Proof.Spec

/-! ### One position from outside -/

/-- The block's own registers, and the caller's buffer, are all that may differ. -/
def SameOutside (u t : State) : Prop :=
  t.cfg = u.cfg ∧ t.busOwn = u.busOwn ∧ t.inbox = u.inbox ∧ t.chip = u.chip ∧ t.hist = u.hist ∧ t.answers = u.answers

theorem SameOutside.refl (s : State) : SameOutside s s := ⟨rfl, rfl, rfl, rfl, rfl, rfl⟩

/-- What a position that issues `ops` comes to, by the next answer: it waits, is refused by the far end, or goes on with one
entry in H. -/
structure Issues (s : State) (ops : List Op) (r : Result) : Prop where
  waits : s.answers = [] → r = .next s
  refused : ∀ {a rest why}, s.answers = a :: rest → chipTransact s.cfg a ops s.chip = .error why → r = .refused why
  answered : ∀ {a rest o c}, s.answers = a :: rest → chipTransact s.cfg a ops s.chip = .ok (o, c) →
    ∃ t, r = .next t ∧ SameOutside (transacted s c rest ops o) t ∧ InProgressOk t

/-- The two ways a position goes on once its transaction is answered. -/
def onAnswer (fail : TE → Answer → State → Result) (ok : List (List Byte) → State → Result) (a : Answer) (u : State) :
    BusOutcome → Result
  | .ok reads => ok reads u
  | .err e => fail e a u

section

variable {s : State} {ops : List Op} {fail : TE → Answer → State → Result} {ok : List (List Byte) → State → Result}

theorem afterBus_of_no_answer (ha : s.answers = []) : afterBus s (busTransact s ops) fail ok = .next s := by
  rw [busTransact_waits.mpr ha, afterBus]

theorem afterBus_of_refusal {a : Answer} {rest : List Answer} {why : Refusal} (ha : s.answers = a :: rest)
    (hc : chipTransact s.cfg a ops s.chip = .error why) : afterBus s (busTransact s ops) fail ok = .refused why := by
  simp only [busTransact, ha, hc, afterBus]

theorem afterBus_of_answer {a : Answer} {rest : List Answer} {o : BusOutcome} {c : Chip} (ha : s.answers = a :: rest)
    (hc : chipTransact s.cfg a ops s.chip = .ok (o, c)) :
    afterBus s (busTransact s ops) fail ok = onAnswer fail ok a (transacted s c rest ops o) o := by
  cases o with
  | ok reads => rw [busTransact_of_ok ha hc]; rfl
  | err e => rw [busTransact_of_err ha hc]; rfl

theorem issues_of_afterBus (hfail : ∀ e a u, ∃ b, fail e a u = .next (raiseTransport e { u with callerBuf := b }))
    (hok : ∀ reads u, u.regs = s.regs → ∃ t, ok reads u = .next t ∧ SameOutside u t ∧ InProgressOk t) :
    Issues s ops (afterBus s (busTransact s ops) fail ok) where
  waits := afterBus_of_no_answer
  refused := afterBus_of_refusal
  answered {a rest o c} ha hc := by
    rw [afterBus_of_answer ha hc]
    cases o with
    | ok reads => exact hok reads _ rfl
    | err e =>
      obtain ⟨b, edge⟩ := hfail e a (transacted s c rest ops (.err e))
      exact ⟨_, edge, ⟨rfl, rfl, rfl, rfl, rfl, rfl⟩, trivial⟩

/-- A position whose transaction is the operation's last. -/
theorem issues_of_last (d : List (List Byte) → Data) :
    Issues s ops (afterBus s (busTransact s ops) failPlain fun reads s' => .next (returnOk (d reads) s')) :=
  issues_of_afterBus failPlain_raises fun _ _ _ => ⟨_, rfl, ⟨rfl, rfl, rfl, rfl, rfl, rfl⟩, trivial⟩

end

/-! ### The positions (R151) -/

/-- OPR is the code of an RDREG (R62). -/
abbrev ReadsRegister (r : Regs) : Prop := r.opr = 0x31 ∨ r.opr = 0x32 ∨ r.opr = 0x34

/-- OPR is the code of a SETMODE (R62). -/
abbrev SetsMode (r : Regs) : Prop :=
  r.opr = 0x50 ∨ r.opr = 0x51 ∨ r.opr = 0x52 ∨ r.opr = 0x53 ∨ r.opr = 0x54 ∨ r.opr = 0x55

/-- The transaction that a position issues, from the operand registers of its operation (R151). -/
def positionOps (s : State) : List Op :=
  match s.seq with
  | .idle | .rxCheck | .marshal => []
  | .rxStatus => statusOps s
  | .rxPtr => [.write [0xF0]]
  | .rxData => [.write [0x45], .read s.regs.len]
  | .txPtr => [.write [0xE0]]
  | .txData => [.write [0x05], .write s.regs.buf]
  | .regXfer =>
    if ReadsRegister s.regs then [.write [readByte0 s.regs.addr], .read s.regs.wid.toNat]
    else [.write [s.regs.addr], .write (takeStaging s.regs.stg s.regs.wid.toNat)]
  | .strobe => if SetsMode s.regs then [.write [modeByte s.regs.mode]] else [.write (commandBytes s.regs.cmd)]
  | .xact => s.regs.ops

theorem issues_rxStatusStage {s : State} (ho : s.regs.opr = 0x70) : Issues s (statusOps s) (rxStatusStage s) :=
  issues_of_afterBus failRx_raises fun _ _ hu => ⟨_, rfl, ⟨rfl, rfl, rfl, rfl, rfl, rfl⟩, hu ▸ ho⟩

theorem issues_rxPtrStage {s : State} (ho : s.regs.opr = 0x70) : Issues s [.write [0xF0]] (rxPtrStage s) :=
  issues_of_afterBus failRx_raises fun _ _ hu => ⟨_, rfl, ⟨rfl, rfl, rfl, rfl, rfl, rfl⟩, hu ▸ ho⟩

theorem issues_rxDataStage {s : State} : Issues s [.write [0x45], .read s.regs.len] (rxDataStage s) :=
  issues_of_afterBus failRx_raises fun _ _ _ => ⟨_, rfl, ⟨rfl, rfl, rfl, rfl, rfl, rfl⟩, trivial⟩

theorem issues_txPtrStage {s : State} (ho : s.regs.opr = 0x71) : Issues s [.write [0xE0]] (txPtrStage s) :=
  issues_of_afterBus failPlain_raises fun _ _ hu => ⟨_, rfl, ⟨rfl, rfl, rfl, rfl, rfl, rfl⟩, hu ▸ ho⟩

theorem issues_readStage {s : State} :
    Issues s [.write [readByte0 s.regs.addr], .read s.regs.wid.toNat] (readStage s) :=
  readStage_eq s ▸ issues_of_last _

/-- What going on with an operation comes to, told without its stages: the model's fault, no step, the verdict of RX_CHECK, or
the position's transaction. -/
inductive ResumeCase (s : State) (r : Result) : Prop
  | faults (unfit : ¬ InProgressOk s) (run : r = .fault .operandNotWritten)
  | idles (hq : s.seq = .idle) (run : r = .next s)
  | checks (hq : s.seq = .rxCheck) (t : State) (run : r = .next t) (outside : SameOutside s t) (fits : InProgressOk t)
  | issues (hq : s.seq ≠ .idle ∧ s.seq ≠ .rxCheck) (bus : Issues s (positionOps s) r)

theorem rxCheckStage_next {s : State} (ho : s.regs.opr = 0x70) :
    ∃ t, rxCheckStage s = .next t ∧ SameOutside s t ∧ InProgressOk t := by
  unfold rxCheckStage
  split_ifs
  · exact ⟨_, rfl, .refl s, ho⟩
  · exact ⟨_, rfl, .refl s, trivial⟩

/-- The operation in progress is one that has the position, or the registers do not fit it. -/
theorem resumeCase_guarded {s : State} {P : Prop} [Decidable P] {r : Result} (fits : InProgressOk s → P)
    (h : P → ResumeCase s r) : ResumeCase s (if P then r else .fault .operandNotWritten) := by
  split_ifs with hP
  · exact h hP
  · exact .faults (mt fits hP) rfl

theorem resumeCase_ite {s : State} {P : Prop} [Decidable P] {r r' : Result} (h : P → ResumeCase s r)
    (h' : ¬P → ResumeCase s r') : ResumeCase s (if P then r else r') := by
  split_ifs with hP
  · exact h hP
  · exact h' hP

theorem resumeCase_of_issues {s : State} {ops : List Op} {r : Result} (hq : s.seq ≠ .idle ∧ s.seq ≠ .rxCheck)
    (hops : positionOps s = ops) (bus : Issues s ops r) : ResumeCase s r := .issues hq (hops ▸ bus)

theorem resumeCase (s : State) : ResumeCase s (resume s) := by
  cases hq : s.seq <;> simp only [resume, hq]
  case idle => exact .idles hq rfl
  case rxCheck =>
    refine resumeCase_guarded (by simp [InProgressOk, hq]) fun ho => ?_
    obtain ⟨t, run, outside, fits⟩ := rxCheckStage_next ho
    exact .checks hq t run outside fits
  case marshal => exact .faults (by simp [InProgressOk, hq]) rfl
  all_goals have onBus : s.seq ≠ .idle ∧ s.seq ≠ .rxCheck := by simp [hq]
  case rxStatus =>
    exact resumeCase_guarded (by simp [InProgressOk, hq]) fun ho =>
      resumeCase_of_issues onBus (by simp [positionOps, hq]) (issues_rxStatusStage ho)
  case rxPtr =>
    exact resumeCase_guarded (by simp [InProgressOk, hq]) fun ho =>
      resumeCase_of_issues onBus (by simp [positionOps, hq]) (issues_rxPtrStage ho)
  case rxData =>
    exact resumeCase_guarded (by simp [InProgressOk, hq]) fun _ =>
      resumeCase_of_issues onBus (by simp [positionOps, hq]) issues_rxDataStage
  case txPtr =>
    exact resumeCase_guarded (by simp [InProgressOk, hq]) fun ho =>
      resumeCase_of_issues onBus (by simp [positionOps, hq]) (issues_txPtrStage ho)
  case txData =>
    exact resumeCase_guarded (by simp [InProgressOk, hq]) fun _ =>
      resumeCase_of_issues onBus (by simp [positionOps, hq]) (issues_of_last fun _ => .unit)
  case regXfer =>
    refine resumeCase_ite (fun hr => ?_) fun hr => resumeCase_guarded (fun fits => ?_) fun _ => ?_
    · exact resumeCase_of_issues onBus (by simp only [positionOps, hq, if_pos hr]) issues_readStage
    · simp only [InProgressOk, hq, WidthOf] at fits
      tauto
    · exact resumeCase_of_issues onBus (by simp only [positionOps, hq, if_neg hr]) (issues_of_last fun _ => .unit)
  case strobe =>
    refine resumeCase_ite (fun hm => ?_) fun hm => resumeCase_guarded (fun fits => ?_) fun _ => ?_
    · exact resumeCase_of_issues onBus (by simp only [positionOps, hq, if_pos hm]) (issues_of_last fun _ => .unit)
    · simp only [InProgressOk, hq, StrobeOf] at fits
      tauto
    · exact resumeCase_of_issues onBus (by simp only [positionOps, hq, if_neg hm]) (issues_of_last fun _ => .unit)
  case xact =>
    refine resumeCase_ite (fun _ => ?_) fun hm => resumeCase_guarded (fun fits => ?_) fun _ => ?_
    · exact resumeCase_of_issues onBus (by simp [positionOps, hq]) (issues_of_last .reads)
    · simp only [InProgressOk, hq] at fits
      tauto
    · exact resumeCase_of_issues onBus (by simp [positionOps, hq]) (issues_of_last fun _ => .unit)

/-! ### What a step does (R24, R100) -/

/-- A step of the operation in progress, where there is one: it waits, or moves in the block alone, or takes one answer and
adds one entry. -/
def MovesOn (s t : State) : Prop :=
  t.cfg = s.cfg ∧ t.busOwn = s.busOwn ∧ t.inbox = s.inbox
    ∧ ((t.chip = s.chip ∧ t.hist = s.hist ∧ t.answers = s.answers)
      ∨ (s.seq ≠ .idle ∧ s.seq ≠ .rxCheck) ∧ ∃ a o, s.answers = a :: t.answers
        ∧ chipTransact s.cfg a (positionOps s) s.chip = .ok (o, t.chip)
        ∧ t.hist = s.hist ++ [{ ops := positionOps s, outcome := o, by_ := s.regs.opr }])

theorem Issues.cases {s : State} {ops : List Op} {r : Result} (h : Issues s ops r) :
    (s.answers = [] ∧ r = .next s) ∨ (∃ why, r = .refused why)
      ∨ ∃ a o t, s.answers = a :: t.answers ∧ chipTransact s.cfg a ops s.chip = .ok (o, t.chip) ∧ r = .next t
        ∧ SameOutside (transacted s t.chip t.answers ops o) t ∧ InProgressOk t := by
  cases ha : s.answers with
  | nil => exact .inl ⟨rfl, h.waits ha⟩
  | cons a rest =>
    cases hc : chipTransact s.cfg a ops s.chip with
    | error why => exact .inr (.inl ⟨why, h.refused ha hc⟩)
    | ok oc =>
      obtain ⟨o, c⟩ := oc
      obtain ⟨t, run, outside, fits⟩ := h.answered ha hc
      obtain ⟨rfl, rfl⟩ : t.chip = c ∧ t.answers = rest := ⟨outside.2.2.2.1, outside.2.2.2.2.2⟩
      exact .inr (.inr ⟨a, o, t, rfl, hc, run, outside, fits⟩)

theorem movesOn_of_resume {s t : State} (h : resume s = .next t) : MovesOn s t ∧ (InProgressOk s → InProgressOk t) := by
  cases resumeCase s with
  | faults _ run => cases run.symm.trans h
  | idles _ run => cases run.symm.trans h; exact ⟨⟨rfl, rfl, rfl, .inl ⟨rfl, rfl, rfl⟩⟩, id⟩
  | checks _ t' run outside fits =>
    cases run.symm.trans h
    obtain ⟨cfg, bus, inbox, chip, hist, answers⟩ := outside
    exact ⟨⟨cfg, bus, inbox, .inl ⟨chip, hist, answers⟩⟩, fun _ => fits⟩
  | issues hq bus =>
    obtain ⟨-, run⟩ | ⟨why, run⟩ | ⟨a, o, t', ha, hc, run, ⟨cfg, own, inbox, -, hist, -⟩, fits⟩ := bus.cases
    · cases run.symm.trans h; exact ⟨⟨rfl, rfl, rfl, .inl ⟨rfl, rfl, rfl⟩⟩, id⟩
    · cases run.symm.trans h
    · cases run.symm.trans h
      exact ⟨⟨cfg, own, inbox, .inr ⟨hq, a, o, ha, hc, hist⟩⟩, fun _ => fits⟩

/-! ### An instruction accepted (R11, R12, R15, R105, R109, R121, R128, R140, R147) -/

/-- What a marshalling operation returns (R71 to R76, R80, R81); nothing for the others. -/
def computed : Instr → Data
  | .enc1 u => .bytes (encN 1 u.toNat)
  | .enc2 u => .bytes (encN 2 u.toNat)
  | .enc4 u => .bytes (encN 4 u.toNat)
  | .dec1 b | .dec2 b | .dec4 b => .uint (decN b)
  | .fins n c lo w v => .uint (fins n c lo w v)
  | .fext _ c lo w => .uint (fext c lo w)
  | _ => .unit

/-- The operand registers of a TRANSACT. -/
def loadOps (ops : List Op) (r : Regs) : Regs := { r with opr := 0x20, len := ops.length, ops := ops }

/-- The operand registers of a BWRITE. -/
def loadBytes (b : List Byte) (r : Regs) : Regs := { r with opr := 0x21, ops := [.write b] }

/-- The operand registers of an RDREG. -/
def loadRead (n : Nat) (d : Descriptor) (r : Regs) : Regs :=
  { r with opr := rdregCode n, addr := d.addr, wid := BitVec.ofNat 3 n, fld := d.rfields }

/-- The operand registers of a WRREG. -/
def loadWrite (n : Nat) (d : Descriptor) (val : TypedValue) (r : Regs) : Regs :=
  { r with
    opr := wrregCode n
    addr := d.addr
    wid := BitVec.ofNat 3 n
    val := BitVec.ofNat 32 (toUint n d.wfields val)
    stg := loadStaging r.stg (encN n (toUint n d.wfields val)) }

/-- The operand registers of a SETMODE. -/
def loadMode (hop : Byte) (m : Mode) (r : Regs) : Regs := { r with opr := hop, mode := m }

/-- The operand registers of a CMD. -/
def loadCommand (hop : Byte) (c : Command) (r : Regs) : Regs := { r with opr := hop, cmd := c }

/-- The operand registers that accepting an instruction loads; the marshalling operations end in the same step. -/
def loaded : Instr → Regs → Regs
  | .enc1 _ | .enc2 _ | .enc4 _ | .dec1 _ | .dec2 _ | .dec4 _ | .fins _ _ _ _ _ | .fext _ _ _ _ => id
  | .transact ops => loadOps ops
  | .frameRegwrite a p => loadOps (writeOps a p)
  | .frameRegread a n => loadOps (readOps a n)
  | .frameTxfifo p => loadOps [.write [0x05], .write p]
  | .frameRxfifo n => loadOps [.write [0x45], .read n]
  | .bwrite b => loadBytes b
  | .frameReset => loadBytes [0x00, 0x00]
  | .strobeSleep => loadBytes [0x80]
  | .strobeIdle => loadBytes [0x90]
  | .strobeStandby => loadBytes [0xA0]
  | .strobePll => loadBytes [0xB0]
  | .strobeRx => loadBytes [0xC0]
  | .strobeTx => loadBytes [0xD0]
  | .strobeRstwr => loadBytes [0xE0]
  | .strobeRstrd => loadBytes [0xF0]
  | .rdreg1 d => loadRead 1 d
  | .rdreg2 d => loadRead 2 d
  | .rdreg4 d => loadRead 4 d
  | .wrreg1 d v => loadWrite 1 d v
  | .wrreg2 d v => loadWrite 2 d v
  | .wrreg4 d v => loadWrite 4 d v
  | .setmodeSleep => loadMode 0x50 .sleep
  | .setmodeIdle => loadMode 0x51 .idle
  | .setmodeStandby => loadMode 0x52 .standby
  | .setmodePll => loadMode 0x53 .pll
  | .setmodeRx => loadMode 0x54 .rx
  | .setmodeTx => loadMode 0x55 .tx
  | .cmdReset => loadCommand 0x60 .reset
  | .cmdRstrd => loadCommand 0x61 .rstRd
  | .cmdRstwr => loadCommand 0x62 .rstWr
  | .rx len => fun r => { r with opr := 0x70, len := len }
  | .tx buf => fun r => { r with opr := 0x71, len := buf.length, buf := buf }

/-- The caller's buffer: a TX is given it (R147, log 14). -/
def callerBufOf : Instr → List Byte → List Byte
  | .tx buf, _ => buf
  | _, b => b

/-- The instruction accepted (R15): at its first position, with its operands loaded. -/
def accepted (i : Instr) (s : State) : State :=
  { s with seq := firstSeq i, regs := loaded i s.regs, callerBuf := callerBufOf i s.callerBuf }

theorem require_of_eq_none {flaw : Option OperandFlaw} (hf : flaw = none) (k : Result) : require flaw k = k := by
  rw [hf, require_none]

/-- Past the check of its operands, an instruction that issues a transaction goes on from its first position as it does once it
has been accepted (log 12). -/
theorem exec_eq_resume {i : Instr} {s : State} (hs : s.seq = .idle) (hf : i.flaw = none) (hi : firstSeq i ≠ .marshal) :
    exec i s = resume (accepted i s) := by
  cases i with
  | enc1 | enc2 | enc4 | dec1 | dec2 | dec4 | fins | fext => exact absurd rfl hi
  | transact | bwrite | rdreg1 | rdreg2 | rdreg4 | wrreg1 | wrreg2 | wrreg4 =>
    exact (require_of_eq_none hf _).trans (if_pos hs)
  | setmodeSleep | setmodeIdle | setmodeStandby | setmodePll | setmodeRx | setmodeTx | cmdReset | cmdRstrd | cmdRstwr
  | rx | tx | frameRegwrite | frameRegread | frameTxfifo | frameRxfifo | frameReset | strobeSleep | strobeIdle
  | strobeStandby | strobePll | strobeRx | strobeTx | strobeRstwr | strobeRstrd => exact if_pos hs

theorem marshalEnc_eq_returnOk {s : State} (hs : s.seq = .idle) (hop : Byte) {n : Nat} (hn : legalWidth n = true) (u : Nat) :
    marshalEnc hop n u s = .next (returnOk (.bytes (encN n u)) s) := by
  rw [marshalEnc, accept_of_idle hs, takeStaging_loadStaging_encN _ hn]
  rfl

theorem marshalDec_eq_returnOk {s : State} (hs : s.seq = .idle) (hop : Byte) {n : Nat} (hn : legalWidth n = true)
    {b : List Byte}
    (hb : decFlaw n b = none) : marshalDec hop n b s = .next (returnOk (.uint (decN b)) s) := by
  obtain rfl : b.length = n := by
    by_contra other
    simp [decFlaw, other] at hb
  rw [marshalDec, require_of_eq_none hb, accept_of_idle hs, takeStaging_loadStaging _ _ hn, toNat_ofNat_decN hn]
  rfl

/-- A marshalling operation is over in its first step, and its value depends on its operands only (R86). -/
theorem exec_of_marshal {i : Instr} {s : State} (hs : s.seq = .idle) (hf : i.flaw = none) (hi : firstSeq i = .marshal) :
    exec i s = .next (returnOk (computed i) s) := by
  cases i with
  | enc1 | enc2 | enc4 => exact marshalEnc_eq_returnOk hs _ (by rfl) _
  | dec1 | dec2 | dec4 => exact marshalDec_eq_returnOk hs _ (by rfl) hf
  | fins | fext => exact (require_of_eq_none hf _).trans (if_pos hs)
  | _ => cases hi

theorem exec_of_flaw {i : Instr} {why : OperandFlaw} (hf : i.flaw = some why) (s : State) :
    exec i s = .refused (.operands why) := by
  cases i with
  | dec1 | dec2 | dec4 | fins | fext | transact | bwrite | rdreg1 | rdreg2 | rdreg4 | wrreg1 | wrreg2 | wrreg4 =>
    exact congrArg (require · _) hf
  | _ => cases hf

theorem exec_of_busy {i : Instr} {s : State} (hs : s.seq ≠ .idle) (hf : i.flaw = none) :
    exec i s = .refused .operationInProgress := by
  cases i with
  | dec1 | dec2 | dec4 | fins | fext | transact | bwrite | rdreg1 | rdreg2 | rdreg4 | wrreg1 | wrreg2 | wrreg4 =>
    exact (require_of_eq_none hf _).trans (if_neg hs)
  | _ => exact if_neg hs

/-- Everything an instruction can come to: its operands or the moment are refused, it is over at once, or it goes on from its
first position. -/
theorem exec_cases (i : Instr) (s : State) :
    (∃ why, exec i s = .refused why)
      ∨ s.seq = .idle ∧ i.flaw = none ∧ (firstSeq i = .marshal ∧ exec i s = .next (returnOk (computed i) s)
        ∨ firstSeq i ≠ .marshal ∧ exec i s = resume (accepted i s)) := by
  cases hf : i.flaw with
  | some why => exact .inl ⟨_, exec_of_flaw hf s⟩
  | none =>
    by_cases hs : s.seq = .idle
    · by_cases hi : firstSeq i = .marshal
      · exact .inr ⟨hs, rfl, .inl ⟨hi, exec_of_marshal hs hf hi⟩⟩
      · exact .inr ⟨hs, rfl, .inr ⟨hi, exec_eq_resume hs hf hi⟩⟩
    · exact .inl ⟨_, exec_of_busy hs hf⟩

theorem bytesFlaw_eq_none_iff {b : List Byte} : bytesFlaw b = none ↔ b ≠ [] := by
  simp [bytesFlaw]

/-- The operands that an instruction loads fit its first position (R13, R15). -/
theorem accepted_inProgressOk {i : Instr} (hf : i.flaw = none) (hi : firstSeq i ≠ .marshal) (s : State) :
    InProgressOk (accepted i s) := by
  have address {facet : Bool} {n : Nat} {d : Descriptor} (hd : Usable facet n d) : LegalAddr d.addr :=
    (and_C0_eq_zero_iff _).mpr ⟨hd.2.2.1, hd.2.2.2.1⟩
  cases i with
  | enc1 | enc2 | enc4 | dec1 | dec2 | dec4 | fins | fext => exact absurd rfl hi
  | transact ops => exact .inl ⟨rfl, opsFlaw_eq_none_iff.mp hf⟩
  | bwrite b => exact .inr ⟨rfl, b, bytesFlaw_eq_none_iff.mp hf, rfl⟩
  | rdreg1 d | rdreg2 d | rdreg4 d =>
    exact ⟨by simp [WidthOf, accepted, loaded, loadRead, rdregCode], address ((readFlaw_eq_none_iff (by rfl)).mp hf)⟩
  | wrreg1 d v | wrreg2 d v | wrreg4 d v =>
    exact ⟨by simp [WidthOf, accepted, loaded, loadWrite, wrregCode], address ((writeFlaw_eq_none_iff (by rfl)).mp hf).1⟩
  | setmodeSleep | setmodeIdle | setmodeStandby | setmodePll | setmodeRx | setmodeTx =>
    simp [InProgressOk, StrobeOf, accepted, firstSeq, loaded, loadMode]
  | cmdReset | cmdRstrd | cmdRstwr => simp [InProgressOk, StrobeOf, accepted, firstSeq, loaded, loadCommand]
  | rx | tx => rfl
  | frameRegwrite | frameRegread | frameTxfifo | frameRxfifo =>
      exact .inl ⟨rfl, by simp [accepted, loaded, loadOps, writeOps, readOps]⟩
  | frameReset | strobeSleep | strobeIdle | strobeStandby | strobePll | strobeRx | strobeTx | strobeRstwr | strobeRstrd =>
    exact .inr ⟨rfl, _, by simp, rfl⟩

/-! ### The forms of what is issued (R52 to R57, R90, R132, R145, R147) -/

theorem takeStaging_length (g : Staging) {n : Nat} (h : n ≤ 4) : (takeStaging g n).length = n := by
  simpa [takeStaging] using h

/-- A register access issues the frame of its width. -/
theorem issuedForm_of_regXfer {s : State} (hq : s.seq = .regXfer) (fits : InProgressOk s) :
    IssuedForm s.cfg s.regs.opr (positionOps s) := by
  simp only [InProgressOk, hq] at fits
  obtain ⟨width, address⟩ := fits
  have ops : positionOps s = if ReadsRegister s.regs then [.write [readByte0 s.regs.addr], .read s.regs.wid.toNat]
    else [.write [s.regs.addr], .write (takeStaging s.regs.stg s.regs.wid.toNat)] := by simp only [positionOps, hq]
  have reads {n : Nat} (hn : s.regs.wid.toNat = n) (hr : ReadsRegister s.regs) : ReadForm n (positionOps s) :=
    ⟨s.regs.addr, address, by rw [ops, if_pos hr, hn]⟩
  have writes {n : Nat} (hn : s.regs.wid.toNat = n) (h4 : n ≤ 4) (hr : ¬ ReadsRegister s.regs) :
      WriteForm n (positionOps s) :=
    ⟨s.regs.addr, _, address, takeStaging_length _ h4, by rw [ops, if_neg hr, hn]⟩
  rcases width with ⟨hop | hop, wid⟩ | ⟨hop | hop, wid⟩ | ⟨hop | hop, wid⟩
  · have form := reads (n := 1) (by rw [wid]; rfl) (by simp [ReadsRegister, hop])
    simp [IssuedForm, hop, form]
  · have form := writes (n := 1) (by rw [wid]; rfl) (by decide) (by simp [ReadsRegister, hop])
    simp [IssuedForm, hop, form]
  · have form := reads (n := 2) (by rw [wid]; rfl) (by simp [ReadsRegister, hop])
    simp [IssuedForm, hop, form]
  · have form := writes (n := 2) (by rw [wid]; rfl) (by decide) (by simp [ReadsRegister, hop])
    simp [IssuedForm, hop, form]
  · have form := reads (n := 4) (by rw [wid]; rfl) (by simp [ReadsRegister, hop])
    simp [IssuedForm, hop, form]
  · have form := writes (n := 4) (by rw [wid]; rfl) (by decide) (by simp [ReadsRegister, hop])
    simp [IssuedForm, hop, form]

/-- A SETMODE or a CMD issues its strobe (R132). -/
theorem issuedForm_of_strobe {s : State} (hq : s.seq = .strobe) (fits : InProgressOk s) :
    IssuedForm s.cfg s.regs.opr (positionOps s) := by
  simp only [InProgressOk, hq] at fits
  rcases fits with ⟨hop, h⟩ | ⟨hop, h⟩ | ⟨hop, h⟩ | ⟨hop, h⟩ | ⟨hop, h⟩ | ⟨hop, h⟩ | ⟨hop, h⟩ | ⟨hop, h⟩ | ⟨hop, h⟩ <;>
    simp [IssuedForm, positionOps, hq, hop, h, SetsMode, modeByte, commandBytes]

theorem issuedForm_of_inProgressOk {s : State} (hq : s.seq ≠ .idle ∧ s.seq ≠ .rxCheck) (fits : InProgressOk s) :
    IssuedForm s.cfg s.regs.opr (positionOps s) := by
  cases hseq : s.seq with
  | idle => exact absurd hseq hq.1
  | rxCheck => exact absurd hseq hq.2
  | marshal => simp [InProgressOk, hseq] at fits
  | regXfer => exact issuedForm_of_regXfer hseq fits
  | strobe => exact issuedForm_of_strobe hseq fits
  | rxStatus | rxPtr | rxData =>
    simp only [InProgressOk, hseq] at fits
    simp [IssuedForm, RxForm, positionOps, statusOps, readByte0, hseq, fits]
  | txPtr | txData =>
    simp only [InProgressOk, hseq] at fits
    simp [IssuedForm, TxForm, positionOps, hseq, fits]
  | xact =>
    simp only [InProgressOk, hseq] at fits
    rcases fits with ⟨hop, h⟩ | ⟨hop, b, hb, h⟩ 
    · simp [IssuedForm, positionOps, hseq, hop, h]
    · simp [IssuedForm, positionOps, hseq, hop, h, hb]

end Sys2Proof.Machine
end

section
/-! PROOFS. The whole machine: what a step keeps (the invariant, the parameters, H), what it waits for, and the states around an
operation: idle, in progress, reset. -/

namespace Sys2Proof.Machine

open Sys2Proof.Spec

/-! ### Every step, by its input (R11, R26, R174, R215) -/

theorem step_of_goOn {s : State} (hq : s.seq ≠ .idle) (hr : NoReset s) : step s = resume s :=
  step_of_busy hq (resetWaits_eq_false hr)

theorem step_of_no_input {s : State} (hs : s.seq = .idle) (hin : s.inbox = []) : step s = .next s := by
  simp only [step, nextStep, if_pos hs, takeInput, hin]

theorem step_of_instr {s : State} (hs : s.seq = .idle) {w : InstrWord} {rest : List Input}
    (hin : s.inbox = .instr w :: rest) :
    step s = runWord w { s with inbox := rest } := by
  simp only [step, nextStep, if_pos hs, takeInput, hin]

theorem step_of_radio {s : State} (hs : s.seq = .idle) {acts : List RadioAct} {rest : List Input}
    (hin : s.inbox = .radio acts :: rest) :
    step s = .next { s with inbox := rest, chip := radioActs s.cfg acts s.chip } := by
  simp only [step, nextStep, if_pos hs, takeInput, hin]

theorem step_of_blockReset {s : State} (hs : s.seq = .idle) {rest : List Input} (hin : s.inbox = .blockReset :: rest) :
    step s = .next (resetBlock { s with inbox := rest }) := by
  simp only [step, nextStep, if_pos hs, takeInput, hin]

theorem step_of_blockReset_busy {s : State} (hq : s.seq ≠ .idle) {rest : List Input} (hin : s.inbox = .blockReset :: rest) :
    step s = .refused .resetDuringOperation := by
  simp only [step, nextStep, if_neg hq, goOn, resetWaits, hin, if_true]

theorem runWord_of_ok {w : InstrWord} {i : Instr} (h : decode w = .ok i) (s : State) : runWord w s = exec i s := by
  simp only [runWord, h]

theorem runWord_of_error {w : InstrWord} {why : DecodeError} (h : decode w = .error why) (s : State) :
    runWord w s = .refused (.undecodable why) := by
  simp only [runWord, h]

theorem exists_blockReset_of_not_noReset {s : State} (h : ¬ NoReset s) : ∃ rest, s.inbox = .blockReset :: rest := by
  simpa [NoReset] using h

/-- Everything a step to a next state can be. -/
inductive StepCase (s t : State) : Prop
  | silent (hs : s.seq = .idle) (hin : s.inbox = []) (ht : t = s)
  | runs (hs : s.seq = .idle) (i : Instr) (rest : List Input) (run : exec i { s with inbox := rest } = .next t)
  | radio (hs : s.seq = .idle) (acts : List RadioAct) (rest : List Input)
      (ht : t = { s with inbox := rest, chip := radioActs s.cfg acts s.chip })
  | resets (hs : s.seq = .idle) (rest : List Input) (hin : s.inbox = .blockReset :: rest)
      (ht : t = resetBlock { s with inbox := rest })
  | goesOn (hq : s.seq ≠ .idle) (hr : NoReset s) (run : resume s = .next t)

theorem stepCase {s t : State} (h : step s = .next t) : StepCase s t := by
  by_cases hs : s.seq = .idle
  · match hin : s.inbox with
    | [] =>
      cases (step_of_no_input hs hin).symm.trans h
      exact .silent hs hin rfl
    | .instr w :: rest =>
      rw [step_of_instr hs hin] at h
      cases hw : decode w with
      | ok i => exact .runs hs i rest (runWord_of_ok hw _ ▸ h)
      | error why => cases (runWord_of_error hw _).symm.trans h
    | .radio acts :: rest =>
      cases (step_of_radio hs hin).symm.trans h
      exact .radio hs acts rest rfl
    | .blockReset :: rest =>
      cases (step_of_blockReset hs hin).symm.trans h
      exact .resets hs rest hin rfl
  · by_cases hr : NoReset s
    · exact .goesOn hs hr (step_of_goOn hs hr ▸ h)
    · obtain ⟨rest, hin⟩ := exists_blockReset_of_not_noReset hr
      cases (step_of_blockReset_busy hs hin).symm.trans h

/-- An instruction that gives a next state moves on from a state that differs from the present one in the block only. -/
theorem movesOn_of_exec {i : Instr} {s t : State} (h : exec i s = .next t) :
    ∃ u, SameOutside s u ∧ InProgressOk u ∧ MovesOn u t ∧ InProgressOk t := by
  obtain ⟨why, run⟩ | ⟨hs, hf, ⟨-, run⟩ | ⟨hi, run⟩⟩ := exec_cases i s
  · cases run.symm.trans h
  · cases run.symm.trans h
    exact ⟨s, .refl s, by simp [InProgressOk, hs], ⟨rfl, rfl, rfl, .inl ⟨rfl, rfl, rfl⟩⟩, trivial⟩
  · obtain ⟨moves, keeps⟩ := movesOn_of_resume (run.symm.trans h)
    have fits := accepted_inProgressOk hf hi s
    exact ⟨accepted i s, ⟨rfl, rfl, rfl, rfl, rfl, rfl⟩, fits, moves, keeps fits⟩

/-! ### The invariant -/

theorem inv_of_sameOutside {s u : State} (h : Inv s) (same : SameOutside s u) (fits : InProgressOk u) : Inv u := by
  obtain ⟨params, own, chip, hist, -⟩ := h
  obtain ⟨cfg, bus, -, chipEq, histEq, -⟩ := same
  refine ⟨cfg ▸ params, bus.trans own, ?_, fun e he => ?_, fits⟩
  · rw [cfg, chipEq]; exact chip
  · rw [cfg]; exact hist e (histEq ▸ he)

/-- The chip by the far end's rules, the new entry of H by the position that issued it. -/
theorem inv_of_movesOn {s t : State} (h : Inv s) (moves : MovesOn s t) (fits : InProgressOk t) : Inv t := by
  obtain ⟨cfg, bus, inbox, ⟨chip, hist, answers⟩ | ⟨hq, a, o, -, hc, hist⟩⟩ := moves
  · exact inv_of_sameOutside h ⟨cfg, bus, inbox, chip, hist, answers⟩ fits
  · obtain ⟨params, own, chipOk, histOk, inProgress⟩ := h
    refine ⟨cfg ▸ params, bus.trans own, cfg ▸ chipTransact_ok hc chipOk, fun e he => ?_, fits⟩
    rw [hist] at he
    rw [cfg]
    rcases List.mem_append.mp he with he | he
    · exact histOk e he
    · rw [List.mem_singleton.mp he]
      exact issuedForm_of_inProgressOk hq inProgress

/-- Settles O54, by the inputs of a step: a position that moves on, the radio, a reset of the block. -/
theorem everyStepKeepsTheInvariant : Obligations.EveryStepKeepsTheInvariant := by
  unfold Obligations.EveryStepKeepsTheInvariant
  intro s t inv run
  cases stepCase run with
  | silent _ _ ht => exact ht ▸ inv
  | runs hs i rest run =>
    obtain ⟨u, same, fitsU, moves, fits⟩ := movesOn_of_exec run
    exact inv_of_movesOn (inv_of_sameOutside (s := { s with inbox := rest }) inv same fitsU) moves fits
  | radio hs acts rest ht =>
    obtain ⟨params, own, chip, hist, fits⟩ := inv
    exact ht ▸ ⟨params, own, radioActs_ok acts chip, hist, fits⟩
  | resets hs rest hin ht =>
    obtain ⟨params, -, chip, -, -⟩ := inv
    exact ht ▸ ⟨params, rfl, chip, (fun _ h => absurd h List.not_mem_nil), trivial⟩
  | goesOn hq hr run =>
    obtain ⟨moves, keeps⟩ := movesOn_of_resume run
    exact inv_of_movesOn inv moves (keeps inv.2.2.2.2)

/-- Settles O55: each part of the invariant at the reset values. -/
theorem resetMeetsTheInvariant : Obligations.ResetMeetsTheInvariant := by
  refine ⟨by decide, rfl, ?_, fun _ h => absurd h List.not_mem_nil, trivial⟩
  exact ⟨Nat.zero_le _, Nat.zero_le _, Memory.wf_nil, Memory.wf_nil, Memory.within_nil _, Memory.within_nil _⟩

theorem resume_ne_fault {s : State} (fits : InProgressOk s) (f : Fault) : resume s ≠ .fault f := by
  intro h
  cases resumeCase s with
  | faults unfit _ => exact unfit fits
  | idles _ run => cases run.symm.trans h
  | checks _ _ run _ _ => cases run.symm.trans h
  | issues _ bus =>
    obtain ⟨-, run⟩ | ⟨why, run⟩ | ⟨a, o, t, -, -, run, -, -⟩ := bus.cases <;> cases run.symm.trans h

theorem exec_ne_fault (i : Instr) (s : State) (f : Fault) : exec i s ≠ .fault f := by
  intro h
  obtain ⟨why, run⟩ | ⟨hs, hf, ⟨-, run⟩ | ⟨hi, run⟩⟩ := exec_cases i s
  · cases run.symm.trans h
  · cases run.symm.trans h
  · exact resume_ne_fault (accepted_inProgressOk hf hi s) f (run.symm.trans h)

/-- Settles O56: what an instruction loads fits its position, and what is in progress fits by the invariant. -/
theorem noStepFaults : Obligations.NoStepFaults := by
  unfold Obligations.NoStepFaults
  intro s inv f h
  obtain ⟨-, -, -, -, fits⟩ := inv
  by_cases hs : s.seq = .idle
  · match hin : s.inbox with
    | [] => cases (step_of_no_input hs hin).symm.trans h
    | .instr w :: rest =>
      rw [step_of_instr hs hin] at h
      cases hw : decode w with
      | ok i => exact exec_ne_fault i _ f (runWord_of_ok hw _ ▸ h)
      | error why => cases (runWord_of_error hw _).symm.trans h
    | .radio acts :: rest => cases (step_of_radio hs hin).symm.trans h
    | .blockReset :: rest => cases (step_of_blockReset hs hin).symm.trans h
  · by_cases hr : NoReset s
    · exact resume_ne_fault fits f (step_of_goOn hs hr ▸ h)
    · obtain ⟨rest, hin⟩ := exists_blockReset_of_not_noReset hr
      cases (step_of_blockReset_busy hs hin).symm.trans h

/-! ### What a step keeps (R5, R11, R24, R97) -/

/-- Settles O57: no case of a step writes the parameters, and none gives up the bus. -/
theorem parametersAndBusAreConstant : Obligations.ParametersAndBusAreConstant := by
  unfold Obligations.ParametersAndBusAreConstant
  intro s t run
  cases stepCase run with
  | silent _ _ ht => exact ht ▸ ⟨rfl, id⟩
  | runs hs i rest run =>
    obtain ⟨u, ⟨cfg, bus, -⟩, -, ⟨cfg', bus', -⟩, -⟩ := movesOn_of_exec run
    exact ⟨cfg'.trans cfg, (bus'.trans bus).trans⟩
  | radio hs acts rest ht => exact ht ▸ ⟨rfl, id⟩
  | resets hs rest hin ht => exact ht ▸ ⟨rfl, fun _ => rfl⟩
  | goesOn hq hr run =>
    obtain ⟨⟨cfg, bus, -⟩, -⟩ := movesOn_of_resume run
    exact ⟨cfg, bus.trans⟩

/-- No answer is taken and H stays, or one answer is taken and one entry added. -/
def AtMostOneEntry (s t : State) : Prop :=
  (t.hist = s.hist ∧ t.answers = s.answers) ∨ ∃ x a, t.hist = s.hist ++ [x] ∧ s.answers = a :: t.answers

theorem atMostOneEntry_of_movesOn {s t : State} (h : MovesOn s t) : AtMostOneEntry s t := by
  obtain ⟨-, -, -, ⟨-, hist, answers⟩ | ⟨-, a, o, answers, -, hist⟩⟩ := h
  · exact .inl ⟨hist, answers⟩
  · exact .inr ⟨_, a, hist, answers⟩

theorem atMostOneEntry_of_step {s t : State} (hr : NoReset s) (run : step s = .next t) : AtMostOneEntry s t := by
  cases stepCase run with
  | silent _ _ ht => exact .inl (ht ▸ ⟨rfl, rfl⟩)
  | runs hs i rest run =>
    obtain ⟨u, ⟨-, -, -, -, hist, answers⟩, -, moves, -⟩ := movesOn_of_exec run
    have entry := atMostOneEntry_of_movesOn moves
    rwa [AtMostOneEntry, hist, answers] at entry
  | radio hs acts rest ht => exact .inl (ht ▸ ⟨rfl, rfl⟩)
  | resets hs rest hin ht => exact absurd hin (hr rest)
  | goesOn hq hr run => exact atMostOneEntry_of_movesOn (movesOn_of_resume run).1

/-- Settles O53, by the one entry that a step can add. -/
theorem historyIsOnlyAppendedTo : Obligations.HistoryIsOnlyAppendedTo := by
  unfold Obligations.HistoryIsOnlyAppendedTo
  intro s t run hr
  obtain ⟨hist, -⟩ | ⟨x, a, hist, -⟩ := atMostOneEntry_of_step hr run
  · exact hist ▸ List.prefix_rfl
  · exact hist ▸ List.prefix_append ..

/-! ### Waiting for the far end (R12, R15, R97, R100) -/

theorem resume_of_no_answers {s : State} (fits : InProgressOk s) (hq : s.seq ≠ .idle ∧ s.seq ≠ .rxCheck)
    (ha : s.answers = []) : resume s = .next s := by
  cases resumeCase s with
  | faults unfit _ => exact absurd fits unfit
  | idles hs _ => exact absurd hs hq.1
  | checks hc _ _ _ _ => exact absurd hc hq.2
  | issues _ bus => exact bus.waits ha

theorem exec_of_no_answers {i : Instr} {s : State} (hs : s.seq = .idle) (ha : s.answers = []) (hf : i.flaw = none)
    (hi : firstSeq i ≠ .marshal) : exec i s = .next (accepted i s) :=
  (exec_eq_resume hs hf hi).trans (resume_of_no_answers (accepted_inProgressOk hf hi s)
    ⟨firstSeq_ne_idle i, firstSeq_ne_rxCheck i⟩ ha)

theorem noReset_of_inbox_eq_nil {s : State} (h : s.inbox = []) : NoReset s := fun rest hin => by
  rw [h] at hin
  cases hin

/-- Settles O48: the operation stands as it was accepted, and going on with it leaves it there. -/
theorem unansweredOperationWaits : Obligations.UnansweredOperationWaits := by
  unfold Obligations.UnansweredOperationWaits
  intro i s hs ha hf
  by_cases hi : firstSeq i = .marshal
  · exact ⟨_, exec_of_marshal hs hf hi, rfl, rfl, fun _ => rfl, fun h => absurd hi h⟩
  · have run := exec_of_no_answers hs ha hf hi
    refine ⟨_, run, rfl, rfl, fun h => absurd h hi, fun _ => ⟨rfl, rfl, fun hin => ?_⟩⟩
    rw [step_of_goOn (s := accepted i s) (firstSeq_ne_idle i) (noReset_of_inbox_eq_nil hin), ← run, exec_eq_resume hs hf hi]

/-- Settles O51: a position that waits stays, and the step that is then taken is the one that accepting the instruction would
have taken. -/
theorem suspendingMakesNoDifference : Obligations.SuspendingMakesNoDifference := by
  unfold Obligations.SuspendingMakesNoDifference
  refine ⟨fun s t hr run => atMostOneEntry_of_step hr run, fun s hr inv hq hc ha => ?_, fun i s t later hr ha run hq => ?_⟩
  · obtain ⟨-, -, -, -, fits⟩ := inv
    exact (step_of_goOn hq hr).trans (resume_of_no_answers fits ⟨hq, hc⟩ ha)
  · obtain ⟨why, refused⟩ | ⟨hs, hf, ⟨-, ended⟩ | ⟨hi, -⟩⟩ := exec_cases i s
    · cases refused.symm.trans run
    · cases ended.symm.trans run
      exact absurd rfl hq
    · cases (exec_of_no_answers hs ha hf hi).symm.trans run
      refine ⟨?_, fun j => ?_⟩
      · rw [exec_eq_resume (s := { s with answers := later }) hs hf hi]
        exact step_of_goOn (s := { accepted i s with answers := later }) hq hr
      · obtain refused | ⟨idle, -⟩ := exec_cases j (accepted i s)
        · exact refused
        · exact absurd idle hq

/-! ### The operands loaded (R12, R105, R109, R121, R128, R140, R147) -/

theorem toUint_lt {n : Nat} {fs : List Field} (h : fieldsWf n fs = true) (val : TypedValue) :
    toUint n fs val < 2 ^ (8 * n) := by
  refine Nat.lt_pow_two_of_testBit _ fun i hi => ?_
  rw [← Bool.not_eq_true, testBit_toUint]
  rintro ⟨f, hf, hfi, -⟩
  have inside := (field_inside h hf).2
  omega

/-- VAL holds the integer of a typed value whole. -/
theorem toNat_val {n : Nat} (hn : legalWidth n = true) {fs : List Field} (h : fieldsWf n fs = true) (val : TypedValue) :
    (BitVec.ofNat 32 (toUint n fs val)).toNat = placed fs val := by
  have width : 8 * n ≤ 32 := by
    have := legalWidth_iff.mp hn
    omega
  rw [BitVec.toNat_ofNat, Nat.mod_eq_of_lt ((toUint_lt h val).trans_le (Nat.pow_le_pow_right (by decide) width)),
    toUint_eq_placed]

section

variable {s : State} (hs : s.seq = .idle) (ha : s.answers = [])

include hs ha

theorem readRegisterOp_of_no_answers (hop : Byte) {n : Nat} (hn : legalWidth n = true) {d : Descriptor}
    (hd : Usable d.readable n d) :
    ∃ t, readRegisterOp hop n d s = .next t ∧ t.seq = .regXfer ∧ t.regs.opr = hop ∧ t.regs.addr = d.addr
      ∧ t.regs.wid.toNat = n := by
  rw [readRegisterOp, (readFlaw_eq_none_iff hn).mpr hd, require_none, accept_of_idle hs]
  exact ⟨_, afterBus_of_no_answer ha, rfl, rfl, rfl, toNat_wid hn⟩

theorem writeRegisterOp_of_no_answers (hop : Byte) {n : Nat} (hn : legalWidth n = true) {d : Descriptor} {val : TypedValue}
    (hd : Usable d.writable n d) (hval : ∀ f ∈ d.wfields, ∃ v, (f.name, v) ∈ val) :
    ∃ t, writeRegisterOp hop n d val s = .next t ∧ t.seq = .regXfer ∧ t.regs.opr = hop ∧ t.regs.addr = d.addr
      ∧ t.regs.wid.toNat = n ∧ t.regs.val.toNat = placed d.wfields val
      ∧ takeStaging t.regs.stg n = (List.range n).map fun i => BitVec.ofNat 8 (placed d.wfields val >>> (8 * i)) := by
  rw [writeRegisterOp, (writeFlaw_eq_none_iff hn).mpr ⟨hd, hval⟩, require_none, accept_of_idle hs]
  obtain ⟨-, -, -, -, -, wfields⟩ := hd
  refine ⟨_, afterBus_of_no_answer ha, rfl, rfl, rfl, toNat_wid hn, toNat_val hn wfields val, ?_⟩
  rw [takeStaging_loadStaging_encN _ hn, toUint_eq_placed, encN_eq_map_shiftRight]

end

/-- Settles O49: what stands in the registers is what accepting the request has loaded. -/
theorem operandsAreLoadedWhenARequestIsAccepted : Obligations.OperandsAreLoadedWhenARequestIsAccepted := by
  unfold Obligations.OperandsAreLoadedWhenARequestIsAccepted
  intro s hs ha
  have waits (i : Instr) (hf : i.flaw = none) (hi : firstSeq i ≠ .marshal) : exec i s = .next (accepted i s) :=
    exec_of_no_answers hs ha hf hi
  refine ⟨fun n hop hcode d hd => ?_, fun n hop hcode d val hd hval => ?_, fun r hr => ?_,
    ⟨_, waits .cmdReset rfl nofun, rfl, rfl, rfl⟩, ⟨_, waits .cmdRstrd rfl nofun, rfl, rfl, rfl⟩,
    ⟨_, waits .cmdRstwr rfl nofun, rfl, rfl, rfl⟩, fun len => ⟨_, waits (.rx len) rfl nofun, rfl, rfl, rfl⟩,
    fun buf => ⟨_, waits (.tx buf) rfl nofun, rfl, rfl, rfl, rfl, rfl⟩,
    fun ops h => ⟨_, waits (.transact ops) (opsFlaw_eq_none_iff.mpr h) nofun, rfl, rfl, rfl, rfl⟩,
    fun b h => ⟨_, waits (.bwrite b) (bytesFlaw_eq_none_iff.mpr h) nofun, rfl, rfl, rfl⟩⟩
  · obtain ⟨hn, rfl⟩ : legalWidth n = true ∧ hop = rdregCode n := by
      rcases hcode with ⟨rfl, rfl⟩ | ⟨rfl, rfl⟩ | ⟨rfl, rfl⟩ <;> exact ⟨rfl, rfl⟩
    rw [exec_rdreg, accessWidth_of_legalWidth hn]
    exact readRegisterOp_of_no_answers hs ha _ hn hd
  · obtain ⟨hn, rfl⟩ : legalWidth n = true ∧ hop = wrregCode n := by
      rcases hcode with ⟨rfl, rfl⟩ | ⟨rfl, rfl⟩ | ⟨rfl, rfl⟩ <;> exact ⟨rfl, rfl⟩
    rw [exec_wrreg, accessWidth_of_legalWidth hn]
    exact writeRegisterOp_of_no_answers hs ha _ hn hd hval
  · simp only [modeRows, List.mem_cons, List.not_mem_nil, or_false] at hr
    rcases hr with rfl | rfl | rfl | rfl | rfl | rfl <;> exact ⟨_, waits _ rfl nofun, rfl, rfl, rfl⟩

/-! ### One step, and the states around an operation (R11, R26, R85, R215) -/

/-- Settles O2: the inputs of a step from IDLE, one by one. -/
theorem stepRunsTheDecodedInstruction : Obligations.StepRunsTheDecodedInstruction := by
  unfold Obligations.StepRunsTheDecodedInstruction
  refine fun s hs => ⟨fun w rest hin => ?_, fun acts rest => step_of_radio hs, step_of_no_input hs⟩
  rw [step_of_instr hs hin]
  exact ⟨fun i hw => runWord_of_ok hw _, fun why hw => runWord_of_error hw _⟩

/-- Settles O1: each word evaluated. -/
theorem wordsOfTheTablesDecode : Obligations.WordsOfTheTablesDecode := by
  unfold Obligations.WordsOfTheTablesDecode
  decide

/-- Settles O14: the length is the operand's flaw. -/
theorem decOfAnotherLengthIsRefused : Obligations.DecOfAnotherLengthIsRefused := fun b s =>
  ⟨fun h => exec_of_flaw (i := .dec1 b) (if_neg h) s, fun h => exec_of_flaw (i := .dec2 b) (if_neg h) s,
    fun h => exec_of_flaw (i := .dec4 b) (if_neg h) s⟩

/-- Settles O52: operands with a flaw are refused for it, all others because an operation is in progress. -/
theorem noSecondOperationInProgress : Obligations.NoSecondOperationInProgress := by
  unfold Obligations.NoSecondOperationInProgress
  intro i s hs
  cases hf : i.flaw with
  | none => exact ⟨_, exec_of_busy hs hf, fun _ => rfl⟩
  | some why => exact ⟨_, exec_of_flaw hf s, nofun⟩

/-- Settles O59: the reset state is idle and has no input. -/
theorem resetIsIdleAndSilent : Obligations.ResetIsIdleAndSilent := ⟨rfl, rfl, rfl, step_of_no_input rfl rfl⟩

/-- Settles O60: a reset between operations is `resetBlock`, one during an operation is refused. -/
theorem blockResetIsSilent : Obligations.BlockResetIsSilent := fun _ _ hin =>
  ⟨fun hs => ⟨_, step_of_blockReset hs hin, rfl, rfl, rfl, rfl, rfl, rfl, rfl⟩, fun hq => step_of_blockReset_busy hq hin⟩

end Sys2Proof.Machine
end

section
/-! PROOFS. Nothing is kept between operations (R10, R13): two states that agree in everything but RES and the operand registers
that no position of the operation reads come to the same end. -/

namespace Sys2Proof.Machine

open Sys2Proof.Spec

/-- The operand registers that the positions of an operation still to come read, and no other, are the same (R13). -/
def SameOperands (q : Seq) (r r' : Regs) : Prop :=
  r'.opr = r.opr ∧ match q with
  | .idle | .marshal => True
  | .rxStatus | .rxPtr | .rxData => r'.len = r.len
  | .rxCheck => r'.len = r.len ∧ r'.fecp = r.fecp ∧ r'.crcp = r.crcp
  | .txPtr | .txData => r'.buf = r.buf
  | .regXfer => r'.addr = r.addr ∧ r'.wid = r.wid ∧ (ReadsRegister r → r'.fld = r.fld)
      ∧ (¬ ReadsRegister r → takeStaging r'.stg r.wid.toNat = takeStaging r.stg r.wid.toNat)
  | .strobe => if SetsMode r then r'.mode = r.mode else r'.cmd = r.cmd
  | .xact => r'.ops = r.ops

/-- The state with other operand registers and another RES. -/
def withBlock (r : Regs) (x : Res) (s : State) : State := { s with regs := r, res := x }

/-- Two results that are the same, or two states of one operation in progress that agree in what it still reads. -/
inductive Alike : Result → Result → Prop
  | same (r : Result) : Alike r r
  | going (s : State) (r : Regs) (x : Res) (hq : s.seq ≠ .idle) (fits : InProgressOk s) (h : SameOperands s.seq s.regs r) :
      Alike (.next s) (.next (withBlock r x s))

section

variable {s : State} {r : Regs} {x : Res}

theorem alike_afterBus {ops : List Op} {fail : TE → Answer → State → Result} {ok ok' : List (List Byte) → State → Result}
    (hq : s.seq ≠ .idle) (fits : InProgressOk s) (h : SameOperands s.seq s.regs r)
    (hfail : ∀ e a c rest, Alike (fail e a (transacted s c rest ops (.err e)))
      (fail e a (withBlock r x (transacted s c rest ops (.err e)))))
    (hok : ∀ reads a c rest, chipTransact s.cfg a ops s.chip = .ok (.ok reads, c) →
      Alike (ok reads (transacted s c rest ops (.ok reads)))
          (ok' reads (withBlock r x (transacted s c rest ops (.ok reads))))) :
    Alike (afterBus s (busTransact s ops) fail ok)
      (afterBus (withBlock r x s) (busTransact (withBlock r x s) ops) fail ok') := by
  cases ha : s.answers with
  | nil =>
    rw [afterBus_of_no_answer ha, afterBus_of_no_answer (s := withBlock r x s) ha]
    exact .going s r x hq fits h
  | cons a rest =>
    cases hc : chipTransact s.cfg a ops s.chip with
    | error why =>
      rw [afterBus_of_refusal ha hc, afterBus_of_refusal (s := withBlock r x s) ha hc]
      exact .same _
    | ok oc =>
      obtain ⟨o, c⟩ := oc
      have entry : transacted (withBlock r x s) c rest ops o = withBlock r x (transacted s c rest ops o) := by
        simp only [transacted, withBlock, h.1]
      rw [afterBus_of_answer ha hc, afterBus_of_answer (s := withBlock r x s) ha hc, entry]
      cases o with
      | ok reads => exact hok reads a c rest hc
      | err e => exact hfail e a c rest

/-- A position whose transaction is the operation's last. -/
theorem alike_last {ops : List Op} (d d' : List (List Byte) → Data) (hq : s.seq ≠ .idle) (fits : InProgressOk s)
    (h : SameOperands s.seq s.regs r)
    (hd : ∀ reads a c, chipTransact s.cfg a ops s.chip = .ok (.ok reads, c) → d reads = d' reads) :
    Alike (afterBus s (busTransact s ops) failPlain fun reads s' => .next (returnOk (d reads) s'))
      (afterBus (withBlock r x s) (busTransact (withBlock r x s) ops) failPlain
        fun reads s' => .next (returnOk (d' reads) s')) :=
  alike_afterBus hq fits h (fun _ _ _ _ => .same _) fun reads a c _ hc => hd reads a c hc ▸ .same _

theorem alike_failRx {c : Chip} {rest : List Answer} {ops : List Op} {o : BusOutcome} (h : r.len = s.regs.len) (e : TE)
    (a : Answer) : Alike (failRx e a (transacted s c rest ops o))
        (failRx e a (withBlock r x (transacted s c rest ops o))) := by
  rw [failRx, failRx, withBlock, h]
  exact .same _

theorem alike_rxStatus (hq : s.seq = .rxStatus) (fits : InProgressOk s) (h : SameOperands s.seq s.regs r) :
    Alike (rxStatusStage s) (rxStatusStage (withBlock r x s)) := by
  have ho : s.regs.opr = 0x70 := by simpa only [InProgressOk, hq] using fits
  have hlen : r.len = s.regs.len := by simpa only [hq] using h.2
  refine alike_afterBus (by simp [hq]) fits h (fun e a _ _ => alike_failRx hlen e a) fun reads a c rest _ => ?_
  exact .going _ _ _ nofun ho ⟨h.1, hlen, rfl, rfl⟩

theorem alike_rxCheck (hq : s.seq = .rxCheck) (fits : InProgressOk s) (h : SameOperands s.seq s.regs r) :
    Alike (rxCheckStage s) (rxCheckStage (withBlock r x s)) := by
  have ho : s.regs.opr = 0x70 := by simpa only [InProgressOk, hq] using fits
  obtain ⟨hlen, fecp, crcp⟩ : r.len = s.regs.len ∧ r.fecp = s.regs.fecp ∧ r.crcp = s.regs.crcp := by
    simpa only [hq] using h.2
  simp only [rxCheckStage, withBlock, fecp, crcp]
  split_ifs
  · exact .going { s with seq := .rxPtr } r x nofun ho ⟨h.1, hlen⟩
  · exact .same _

theorem alike_rxPtr (hq : s.seq = .rxPtr) (fits : InProgressOk s) (h : SameOperands s.seq s.regs r) :
    Alike (rxPtrStage s) (rxPtrStage (withBlock r x s)) := by
  have ho : s.regs.opr = 0x70 := by simpa only [InProgressOk, hq] using fits
  have hlen : r.len = s.regs.len := by simpa only [hq] using h.2
  refine alike_afterBus (by simp [hq]) fits h (fun e a _ _ => alike_failRx hlen e a) fun reads a c rest _ => ?_
  exact .going _ _ _ nofun ho ⟨h.1, hlen⟩

theorem alike_rxData (hq : s.seq = .rxData) (fits : InProgressOk s) (h : SameOperands s.seq s.regs r) :
    Alike (rxDataStage s) (rxDataStage (withBlock r x s)) := by
  have hlen : r.len = s.regs.len := by simpa only [hq] using h.2
  rw [rxDataStage, rxDataStage, show (withBlock r x s).regs.len = s.regs.len from hlen]
  exact alike_afterBus (by simp [hq]) fits h (fun e a _ _ => alike_failRx hlen e a) fun _ _ _ _ _ => .same _

theorem alike_txPtr (hq : s.seq = .txPtr) (fits : InProgressOk s) (h : SameOperands s.seq s.regs r) :
    Alike (txPtrStage s) (txPtrStage (withBlock r x s)) := by
  have ho : s.regs.opr = 0x71 := by simpa only [InProgressOk, hq] using fits
  have hbuf : r.buf = s.regs.buf := by simpa only [hq] using h.2
  refine alike_afterBus (by simp [hq]) fits h (fun _ _ _ _ => .same _) fun reads a c rest _ => ?_
  exact .going _ _ _ nofun ho ⟨h.1, hbuf⟩

theorem alike_txData (hq : s.seq = .txData) (fits : InProgressOk s) (h : SameOperands s.seq s.regs r) :
    Alike (txDataStage s) (txDataStage (withBlock r x s)) := by
  have hbuf : r.buf = s.regs.buf := by simpa only [hq] using h.2
  rw [txDataStage, txDataStage, show (withBlock r x s).regs.buf = s.regs.buf from hbuf]
  exact alike_last _ _ (by simp [hq]) fits h fun _ _ _ _ => rfl

theorem legalWidth_of_widthOf {hop : Byte} {wid : BitVec 3} (h : WidthOf hop wid) : legalWidth wid.toNat = true := by
  rcases h with ⟨-, rfl⟩ | ⟨-, rfl⟩ | ⟨-, rfl⟩ <;> rfl

/-- The bytes read fill the staging bytes that RDREG takes back, whatever those held (R105). -/
theorem readData_forgets_staging {cfg : Params} {a : Answer} {w : List Byte} {n : Nat} {c c' : Chip}
    {reads : List (List Byte)}
    (h : chipTransact cfg a [.write w, .read n] c = .ok (.ok reads, c')) (hn : legalWidth n = true) (fields : List Field)
    (g g' : Staging) : readData fields n g reads = readData fields n g' reads := by
  obtain ⟨bs, hlen, rfl⟩ := chipTransact_reads h
  obtain rfl : bs.length = n := by simpa using hlen
  rw [splitReads_write_read, List.take_length, readData_singleton _ _ hn, readData_singleton _ _ hn]

theorem alike_readStage (hq : s.seq = .regXfer) (fits : InProgressOk s) (h : SameOperands s.seq s.regs r)
    (hr : ReadsRegister s.regs) : Alike (readStage s) (readStage (withBlock r x s)) := by
  have hn : legalWidth s.regs.wid.toNat = true := by
    simp only [InProgressOk, hq] at fits
    exact legalWidth_of_widthOf fits.1
  obtain ⟨addr, wid, fld, -⟩ : r.addr = s.regs.addr ∧ r.wid = s.regs.wid ∧ (ReadsRegister s.regs → r.fld = s.regs.fld)
      ∧ _ := by
    simpa only [hq] using h.2
  rw [readStage_eq, readStage_eq, show (withBlock r x s).regs = r from rfl, addr, wid, fld hr]
  exact alike_last _ _ (by simp [hq]) fits h fun _ _ _ hc => readData_forgets_staging hc hn _ _ _

theorem alike_writeStage (hq : s.seq = .regXfer) (fits : InProgressOk s) (h : SameOperands s.seq s.regs r)
    (hr : ¬ ReadsRegister s.regs) : Alike (writeStage s) (writeStage (withBlock r x s)) := by
  obtain ⟨addr, wid, -, stg⟩ : r.addr = s.regs.addr ∧ r.wid = s.regs.wid ∧ _ ∧ (¬ ReadsRegister s.regs → _) := by
    simpa only [hq] using h.2
  rw [writeStage, writeStage, show (withBlock r x s).regs = r from rfl, addr, wid, stg hr]
  exact alike_last _ _ (by simp [hq]) fits h fun _ _ _ _ => rfl

theorem alike_ite {P : Prop} [Decidable P] {a a' b b' : Result} (h : P → Alike a a') (h' : ¬P → Alike b b') :
    Alike (if P then a else b) (if P then a' else b') := by
  split_ifs with hP
  · exact h hP
  · exact h' hP

theorem alike_modeStage (hq : s.seq = .strobe) (fits : InProgressOk s) (h : SameOperands s.seq s.regs r)
    (hm : SetsMode s.regs) : Alike (modeStage s) (modeStage (withBlock r x s)) := by
  have mode : r.mode = s.regs.mode := by simpa only [hq, if_pos hm] using h.2
  rw [modeStage, modeStage, busWrite, busWrite, show (withBlock r x s).regs = r from rfl, mode]
  exact alike_last _ _ (by simp [hq]) fits h fun _ _ _ _ => rfl

theorem alike_commandStage (hq : s.seq = .strobe) (fits : InProgressOk s) (h : SameOperands s.seq s.regs r)
    (hm : ¬ SetsMode s.regs) : Alike (commandStage s) (commandStage (withBlock r x s)) := by
  have cmd : r.cmd = s.regs.cmd := by simpa only [hq, if_neg hm] using h.2
  rw [commandStage, commandStage, busWrite, busWrite, show (withBlock r x s).regs = r from rfl, cmd]
  exact alike_last _ _ (by simp [hq]) fits h fun _ _ _ _ => rfl

/-- XACT, for TRANSACT and BWRITE. -/
theorem alike_xact (d : List (List Byte) → Data) (hq : s.seq = .xact) (fits : InProgressOk s)
    (h : SameOperands s.seq s.regs r) :
    Alike (afterBus s (busTransact s s.regs.ops) failPlain fun reads s' => .next (returnOk (d reads) s'))
      (afterBus (withBlock r x s) (busTransact (withBlock r x s) (withBlock r x s).regs.ops) failPlain
        fun reads s' => .next (returnOk (d reads) s')) := by
  have ops : r.ops = s.regs.ops := by simpa only [hq] using h.2
  rw [show (withBlock r x s).regs = r from rfl, ops]
  exact alike_last _ _ (by simp [hq]) fits h fun _ _ _ _ => rfl

/-- Going on with an operation keeps the agreement, up to the one end. -/
theorem alike_resume (hq : s.seq ≠ .idle) (fits : InProgressOk s) (h : SameOperands s.seq s.regs r) :
    Alike (resume s) (resume (withBlock r x s)) := by
  have hopr : (withBlock r x s).regs.opr = s.regs.opr := h.1
  have hseq : (withBlock r x s).seq = s.seq := rfl
  unfold resume
  rw [hopr, hseq]
  cases hq' : s.seq <;> simp only
  case idle => exact absurd hq' hq
  case marshal => exact .same _
  case rxStatus => exact alike_ite (fun _ => alike_rxStatus hq' fits h) fun _ => .same _
  case rxCheck => exact alike_ite (fun _ => alike_rxCheck hq' fits h) fun _ => .same _
  case rxPtr => exact alike_ite (fun _ => alike_rxPtr hq' fits h) fun _ => .same _
  case rxData => exact alike_ite (fun _ => alike_rxData hq' fits h) fun _ => .same _
  case txPtr => exact alike_ite (fun _ => alike_txPtr hq' fits h) fun _ => .same _
  case txData => exact alike_ite (fun _ => alike_txData hq' fits h) fun _ => .same _
  case regXfer =>
    exact alike_ite (alike_readStage hq' fits h) fun hr =>
        alike_ite (fun _ => alike_writeStage hq' fits h hr) fun _ => .same _
  case strobe =>
    exact alike_ite (alike_modeStage hq' fits h) fun hm =>
        alike_ite (fun _ => alike_commandStage hq' fits h hm) fun _ => .same _
  case xact =>
    exact alike_ite (fun _ => alike_xact .reads hq' fits h) fun _ =>
      alike_ite (fun _ => alike_xact (fun _ => .unit) hq' fits h) fun _ => .same _

theorem alike_step (hq : s.seq ≠ .idle) (fits : InProgressOk s) (h : SameOperands s.seq s.regs r) :
    Alike (step s) (step (withBlock r x s)) := by
  by_cases hr : NoReset s
  · rw [step_of_goOn hq hr, step_of_goOn (s := withBlock r x s) hq hr]
    exact alike_resume hq fits h
  · obtain ⟨rest, hin⟩ := exists_blockReset_of_not_noReset hr
    rw [step_of_blockReset_busy hq hin, step_of_blockReset_busy (s := withBlock r x s) hq hin]
    exact .same _

theorem alike_runOn (n : Nat) {a a' : Result} (h : Alike a a') : Alike (runOn n a) (runOn n a') := by
  induction n generalizing a a' with
  | zero => simpa only [runOn_zero] using h
  | succ n ih =>
    cases h with
    | same => exact .same _
    | going s r x hq fits h =>
      rw [runOn_busy hq, runOn_busy (s := withBlock r x s) hq]
      exact ih (alike_step hq fits h)

end

/-! ### From the first position on -/

theorem sameOperands_loadRead (n : Nat) (d : Descriptor) (r r' : Regs) :
    SameOperands .regXfer (loadRead n d r) (loadRead n d r') := by
  refine ⟨rfl, rfl, rfl, fun _ => rfl, absurd ?_⟩
  unfold ReadsRegister loadRead rdregCode
  split <;> simp

theorem sameOperands_loadWrite {n : Nat} (hn : legalWidth n = true) (d : Descriptor) (val : TypedValue) (r r' : Regs) :
    SameOperands .regXfer (loadWrite n d val r) (loadWrite n d val r') := by
  refine ⟨rfl, rfl, rfl, fun h => absurd h ?_, fun _ => ?_⟩
  · unfold ReadsRegister loadWrite wrregCode
    split <;> simp
  · rw [show (loadWrite n d val r).wid = BitVec.ofNat 3 n from rfl, toNat_wid hn, loadWrite, loadWrite,
      takeStaging_loadStaging_encN _ hn, takeStaging_loadStaging_encN _ hn]

/-- What accepting an instruction loads is all that its first position reads (R13). -/
theorem sameOperands_loaded {i : Instr} (hi : firstSeq i ≠ .marshal) (r r' : Regs) :
    SameOperands (firstSeq i) (loaded i r) (loaded i r') := by
  cases i with
  | enc1 | enc2 | enc4 | dec1 | dec2 | dec4 | fins | fext => exact absurd rfl hi
  | rdreg1 | rdreg2 | rdreg4 => exact sameOperands_loadRead _ _ _ _
  | wrreg1 | wrreg2 | wrreg4 => exact sameOperands_loadWrite (by rfl) _ _ _ _
  | _ => exact ⟨rfl, rfl⟩

theorem alike_exec (i : Instr) (s : State) (r : Regs) (x : Res) : Alike (exec i s) (exec i (withBlock r x s)) := by
  cases hf : i.flaw with
  | some why =>
    rw [exec_of_flaw hf, exec_of_flaw hf]
    exact .same _
  | none =>
    by_cases hs : s.seq = .idle
    · by_cases hi : firstSeq i = .marshal
      · rw [exec_of_marshal hs hf hi, exec_of_marshal (s := withBlock r x s) hs hf hi]
        exact .same _
      · rw [exec_eq_resume hs hf hi, exec_eq_resume (s := withBlock r x s) hs hf hi]
        exact alike_resume (firstSeq_ne_idle i) (accepted_inProgressOk hf hi s) (sameOperands_loaded hi s.regs r)
    · rw [exec_of_busy hs hf, exec_of_busy (s := withBlock r x s) hs hf]
      exact .same _

/-- Settles O58: the two runs are alike from the first position on, and two that have ended are the same. -/
theorem nothingIsKeptBetweenOperations : Obligations.NothingIsKeptBetweenOperations := by
  unfold Obligations.NothingIsKeptBetweenOperations
  intro i s t r x run ended
  have alike : Alike (runWhole i s) (runWhole i (withBlock r x s)) := alike_runOn 3 (alike_exec i s r x)
  rw [run] at alike
  generalize other : runWhole i (withBlock r x s) = result at alike
  cases alike with
  | same => exact other
  | going _ _ _ hq => exact absurd ended hq

end Sys2Proof.Machine
end

section
/-! PROOFS. Frames at the reference responder (45_chip_responder.md section 3): what each leaves in the chip, whole or broken off
(R102), and the operations that put one of them on the bus. -/

namespace Sys2Proof.Machine

open Sys2Proof.Spec

/-! ### A transaction at the reference responder (R94, R102, R162) -/

section

variable {cfg : Params} {a : Answer} {ops : List Op} {c c' : Chip}

theorem chipTransact_of_receiveWhole {bs : List Byte} (href : cfg.responder = .reference) (hf : a.fault = none)
    (h : receiveWhole cfg a ops (radioActs cfg a.radio c) = .ok (bs, c')) :
    chipTransact cfg a ops c = .ok (.ok (splitReads ops bs), c') := by
  rw [chipTransact_reference href]
  simp only [referenceTransact, hf, h]

theorem chipTransact_of_receiveBroken {e : TE} {k : Nat} (href : cfg.responder = .reference) (hf : a.fault = some (e, k))
    (h : receiveBroken cfg a ops k (radioActs cfg a.radio c) = .ok c') :
    chipTransact cfg a ops c = .ok (.err (errorOf cfg e), c') := by
  rw [chipTransact_reference href]
  simp only [referenceTransact, hf, h]

theorem chipTransact_of_receiveWhole_error {why : Refusal} (href : cfg.responder = .reference) (hf : a.fault = none)
    (h : receiveWhole cfg a ops (radioActs cfg a.radio c) = .error why) : chipTransact cfg a ops c = .error why := by
  rw [chipTransact_reference href]
  simp only [referenceTransact, hf, h]

theorem frameOf_of_flatten {f : Frame} {op : FrameOp} (h : flatten ops = some f) (hop : decodeFrame f = .ok op) :
    frameOf ops = .ok op := by
  simp only [frameOf, h, hop]

theorem receiveWhole_of_respond {op : FrameOp} {r : Except Refusal (List Byte × Chip)} (h : frameOf ops = .ok op)
    (hr : respond cfg a op c = r) : receiveWhole cfg a ops c = r := by
  simp only [receiveWhole, h, hr]

theorem framePrefix_of_frameSize_le {f : Frame} {k : Nat} (h : frameSize f ≤ k) : framePrefix k f = f := by
  unfold frameSize at h
  rw [framePrefix, List.take_of_length_le (by omega), Nat.min_eq_left (by omega)]

/-- Of a broken-off frame the chip sees the part that arrived, which may be the whole (R102). -/
theorem receiveBroken_of_prefix {f : Frame} {op : FrameOp} {k : Nat} (h : flatten ops = some f)
    (hop : decodeFrame (framePrefix k f) = .ok op) (hcut : respondBroken cfg a op c = .ok c')
    (hall : frameSize f ≤ k → ∃ bs, respond cfg a op c = .ok (bs, c')) : receiveBroken cfg a ops k c = .ok c' := by
  rw [receiveBroken, opsSize_of_flatten h]
  split_ifs with all
  · obtain ⟨bs, hr⟩ := hall all
    rw [framePrefix_of_frameSize_le all] at hop
    rw [receiveWhole_of_respond (frameOf_of_flatten h hop) hr]
  · simp only [frameOf_of_flatten (flatten_opsPrefix h k) hop, hcut]

/-- The frames of a catalog register, of which an incomplete one has a rule of its own (R102, log 17). -/
def catalogFrame : FrameOp → Bool
  | .regRead _ _ | .regWrite _ _ => true
  | .empty | .strobe _ | .rstRd | .rstWr | .rxFifo _ | .txFifo _ | .reset => false

theorem respondBroken_of_respond {op : FrameOp} {bs : List Byte} (hop : catalogFrame op = false)
    (h : respond cfg a op c = .ok (bs, c')) : respondBroken cfg a op c = .ok c' := by
  cases op with
  | regRead | regWrite => cases hop
  | empty | strobe | rstRd | rstWr | rxFifo | txFifo | reset => simp only [respondBroken, h]

/-- Outside the catalog the rule of the frame that arrived says what is left. -/
theorem receiveBroken_of_respond {f : Frame} {op : FrameOp} {k : Nat} {bs : List Byte} (h : flatten ops = some f)
    (hop : decodeFrame (framePrefix k f) = .ok op) (hreg : catalogFrame op = false)
    (hr : respond cfg a op c = .ok (bs, c')) : receiveBroken cfg a ops k c = .ok c' :=
  receiveBroken_of_prefix h hop (respondBroken_of_respond hreg hr) fun _ => ⟨bs, hr⟩

theorem framePrefix_zero (f : Frame) : framePrefix 0 f = { out := [], rd := 0 } := by
  simp [framePrefix]

/-- Where no byte arrived nothing has happened (R103). -/
theorem receiveBroken_zero {f : Frame} (h : flatten ops = some f) (cfg : Params) (a : Answer) (c : Chip) :
    receiveBroken cfg a ops 0 c = .ok c :=
  receiveBroken_of_respond (op := .empty) h (by rw [framePrefix_zero]; rfl) rfl rfl

theorem flatten_write (b : List Byte) : flatten [.write b] = some { out := b, rd := 0 } := by
  simp [flatten, flattenFrom]

theorem flatten_write_write (b p : List Byte) : flatten [.write b, .write p] = some { out := b ++ p, rd := 0 } := by
  simp [flatten, flattenFrom]

theorem flatten_write_read (b : List Byte) (n : Nat) : flatten [.write b, .read n] = some { out := b, rd := n } := by
  simp [flatten, flattenFrom]

/-- The first bytes of a frame of byte 0 and a payload, once byte 0 has arrived. -/
theorem framePrefix_succ (k : Nat) (b : Byte) (p : List Byte) :
    framePrefix (k + 1) { out := b :: p, rd := 0 } = { out := b :: p.take k, rd := 0 } := by
  simp [framePrefix]

/-- The first bytes of a frame of byte 0 and a read phase, once byte 0 has arrived. -/
theorem framePrefix_succ_read (k n : Nat) (b : Byte) :
    framePrefix (k + 1) { out := [b], rd := n } = { out := [b], rd := min n k } := by
  simp [framePrefix]

end

/-! ### Strobes and Reset (R54 to R56, R163 to R166) -/

theorem strobeMode_eq_strobed (m : Mode) (c : Chip) : strobeMode m c = strobed m c := by
  unfold strobeMode strobed
  by_cases h : (m = .rx ∨ m = .tx) ∧ c.mode ≠ .rx ∧ c.mode ≠ .tx
  · rw [if_pos h, if_pos (by rwa [not_or])]
  · rw [if_neg h, if_neg (by rwa [not_or])]

/-- An operation that is a single-phase transaction of `bytes`, given what the frame does to the chip whole and broken off. -/
theorem sendsOneFrame_of_receive {i : Instr} {hop : Byte} {bytes : List Byte} {whole : Params → Answer → Chip → Chip}
    {broken : Nat → Params → Answer → Chip → Chip}
    (run : ∀ {s a rest o c}, s.seq = .idle → s.answers = a :: rest → chipTransact s.cfg a [.write bytes] s.chip = .ok (o, c) →
      ∃ t, exec i s = .next t ∧ OneFrame s t rest hop [.write bytes] o c ∧ t.res = resUnit o)
    (hwhole : ∀ cfg a c, receiveWhole cfg a [.write bytes] c = .ok ([], whole cfg a c))
    (hbroken : ∀ cfg a k c, receiveBroken cfg a [.write bytes] k c = .ok (broken k cfg a c)) :
    SendsOneFrame i hop bytes whole broken := by
  refine fun s a rest hs ha => ⟨fun o c hc => run hs ha hc, fun href hf => ?_, fun href e k hf => ?_⟩
  · exact run hs ha (chipTransact_of_receiveWhole href hf (hwhole _ _ _))
  · exact run hs ha (chipTransact_of_receiveBroken href hf (hbroken _ _ _ _))

/-- A strobe of one byte: of a broken-off one either nothing arrived, or all. -/
theorem sendsStrobe_of_respond {i : Instr} {hop b : Byte} {op : FrameOp} {f : Chip → Chip}
    (run : ∀ {s a rest o c}, s.seq = .idle → s.answers = a :: rest → chipTransact s.cfg a [.write [b]] s.chip = .ok (o, c) →
      ∃ t, exec i s = .next t ∧ OneFrame s t rest hop [.write [b]] o c ∧ t.res = resUnit o)
    (hop' : decodeFrame { out := [b], rd := 0 } = .ok op) (hreg : catalogFrame op = false)
    (hr : ∀ cfg a c, respond cfg a op c = .ok ([], f c)) : SendsStrobe i hop b f := by
  refine sendsOneFrame_of_receive run
    (fun cfg a c => receiveWhole_of_respond (frameOf_of_flatten (flatten_write _) hop') (hr cfg a c)) fun cfg a k c => ?_
  cases k with
  | zero => exact receiveBroken_zero (flatten_write _) cfg a c
  | succ k =>
    exact receiveBroken_of_respond (flatten_write _) (by rw [framePrefix_succ, List.take_nil, hop']) hreg (hr cfg a c)

theorem sendsReset_of_run {i : Instr} {hop : Byte}
    (run : ∀ {s a rest o c}, s.seq = .idle → s.answers = a :: rest →
        chipTransact s.cfg a [.write [0x00, 0x00]] s.chip = .ok (o, c) →
      ∃ t, exec i s = .next t ∧ OneFrame s t rest hop [.write [0x00, 0x00]] o c ∧ t.res = resUnit o) : SendsReset i hop := by
  refine sendsOneFrame_of_receive run (fun cfg a c => rfl) fun cfg a k c => ?_
  match k with
  | 0 => exact receiveBroken_zero (flatten_write _) cfg a c
  | 1 => exact rfl
  | k + 2 =>
    exact receiveBroken_of_respond (op := .reset) (flatten_write _)
        (by rw [framePrefix_succ, List.take_of_length_le (by simp)]; rfl)
      rfl rfl

section

variable {s : State} {a : Answer} {rest : List Answer} {o : BusOutcome} {c : Chip}

theorem setMode_of_idle (hop : Byte) {m : Mode} (hs : s.seq = .idle) (ha : s.answers = a :: rest)
    (hc : chipTransact s.cfg a [.write [modeByte m]] s.chip = .ok (o, c)) :
    ∃ t, setMode hop m s = .next t ∧ OneFrame s t rest hop [.write [modeByte m]] o c ∧ t.res = resUnit o := by
  rw [resUnit_eq_outcomeRes]
  exact oneFrame_of_accept hs ha hc .strobe { s.regs with opr := hop, mode := m } (fun _ => .unit) rfl

theorem command_of_idle (hop : Byte) {k : Command} (hs : s.seq = .idle) (ha : s.answers = a :: rest)
    (hc : chipTransact s.cfg a [.write (commandBytes k)] s.chip = .ok (o, c)) :
    ∃ t, command hop k s = .next t ∧ OneFrame s t rest hop [.write (commandBytes k)] o c ∧ t.res = resUnit o := by
  rw [resUnit_eq_outcomeRes]
  exact oneFrame_of_accept hs ha hc .strobe { s.regs with opr := hop, cmd := k } (fun _ => .unit) rfl

end

theorem respond_strobe (m : Mode) (cfg : Params) (a : Answer) (c : Chip) :
    respond cfg a (.strobe m) c = .ok ([], strobed m c) := by
  rw [respond, strobeMode_eq_strobed]

/-- A row of the modes has its own byte (R54). -/
theorem byte_of_mem_modeRows {r : ModeRow} (h : r ∈ modeRows) : r.byte = modeByte r.mode := by
  simp only [modeRows, List.mem_cons, List.not_mem_nil, or_false] at h
  rcases h with rfl | rfl | rfl | rfl | rfl | rfl <;> rfl

theorem setmode_of_mem_modeRows {r : ModeRow} (h : r ∈ modeRows) :
    Coded r.setmode r.hop ∧ ∀ s, exec r.setmode s = setMode r.hop r.mode s := by
  simp only [modeRows, List.mem_cons, List.not_mem_nil, or_false] at h
  rcases h with rfl | rfl | rfl | rfl | rfl | rfl <;> exact ⟨⟨_, rfl⟩, fun _ => rfl⟩

theorem strobe_of_mem_modeRows {r : ModeRow} (h : r ∈ modeRows) (s : State) : exec r.strobe s = startBwrite [r.byte] s := by
  simp only [modeRows, List.mem_cons, List.not_mem_nil, or_false] at h
  rcases h with rfl | rfl | rfl | rfl | rfl | rfl <;> rfl

/-- Settles O23: the byte is the mode's, and its frame a strobe. -/
theorem setmodeSendsItsStrobe : Obligations.SetmodeSendsItsStrobe := by
  unfold Obligations.SetmodeSendsItsStrobe
  intro r hr
  obtain ⟨coded, run⟩ := setmode_of_mem_modeRows hr
  refine ⟨coded, ?_⟩
  rw [byte_of_mem_modeRows hr]
  exact sendsStrobe_of_respond (fun {s} _ _ _ _ hs ha hc => run s ▸ setMode_of_idle r.hop hs ha hc)
      (decodeFrame_strobe r.mode) rfl
    (respond_strobe r.mode)

/-- Settles O24: two strobes of a pointer, and the Reset frame. -/
theorem commandSendsItsBytes : Obligations.CommandSendsItsBytes := by
  unfold Obligations.CommandSendsItsBytes
  refine ⟨⟨⟨_, rfl⟩, sendsReset_of_run (command_of_idle 0x60 (k := .reset))⟩, ⟨⟨_, rfl⟩, ?_⟩, ⟨⟨_, rfl⟩, ?_⟩⟩
  · exact sendsStrobe_of_respond (op := .rstRd) (command_of_idle 0x61 (k := .rstRd)) rfl rfl fun _ _ _ => rfl
  · exact sendsStrobe_of_respond (op := .rstWr) (command_of_idle 0x62 (k := .rstWr)) rfl rfl fun _ _ _ => rfl

/-- Settles O25: the same frames, sent by BWRITE. -/
theorem strobeRowsActOnTheChip : Obligations.StrobeRowsActOnTheChip := by
  unfold Obligations.StrobeRowsActOnTheChip
  refine ⟨fun r hr => ?_, ?_, ?_, sendsReset_of_run startBwrite_of_idle⟩
  · refine sendsStrobe_of_respond (op := .strobe r.mode) ?_ ?_ rfl (respond_strobe r.mode)
    · exact fun {s} _ _ _ _ hs ha hc => strobe_of_mem_modeRows hr s ▸ startBwrite_of_idle hs ha hc
    · rw [byte_of_mem_modeRows hr]
      exact decodeFrame_strobe r.mode
  · exact sendsStrobe_of_respond (op := .rstRd) startBwrite_of_idle rfl rfl fun _ _ _ => rfl
  · exact sendsStrobe_of_respond (op := .rstWr) startBwrite_of_idle rfl rfl fun _ _ _ => rfl

/-! ### The FIFO frames (R57, R167, R168) -/

theorem fifoBytes_eq_readBytes (m : Memory) (i n : Nat) : fifoBytes m i n = m.readBytes i n := by
  induction n generalizing i with
  | zero => rfl
  | succ n ih =>
    rw [Memory.readBytes, ← ih, fifoBytes, fifoBytes, List.range_succ_eq_map, List.map_cons, List.map_map]
    exact congrArg _ (List.map_congr_left fun k _ => by
      rw [Function.comp_apply, Nat.succ_eq_add_one, Nat.add_comm k, Nat.add_assoc])

/-- Bytes stored one after another: theirs inside the range, the old ones outside. -/
theorem storedIn_writeBytes {m : Memory} (hm : m.wf) (i : Nat) (p : List Byte) : StoredIn m (m.writeBytes i p) i p := by
  induction p generalizing m i with
  | nil => intro j; rw [if_neg (by simp)]; rfl
  | cons b p ih =>
    intro j
    rw [Memory.writeBytes]
    by_cases hj : j = i
    · subst hj
      rw [Memory.read_writeBytes_before _ (Nat.lt_succ_self j), Memory.read_write_same m j b hm, if_pos (by simp),
          Nat.sub_self]
      rfl
    · rw [ih (Memory.write_wf i b hm) (i + 1) j, Memory.read_write_other _ _ _ _ hj]
      by_cases inside : i + 1 ≤ j ∧ j < i + 1 + p.length
      · rw [if_pos inside, if_pos (by simp only [List.length_cons]; omega), show j - i = (j - (i + 1)) + 1 by omega,
          List.getD_cons_succ]
      · rw [if_neg inside, if_neg (by simp only [List.length_cons]; omega)]

theorem frameOf_txFifo (p : List Byte) : frameOf [.write [0x05], .write p] = .ok (.txFifo p) :=
  frameOf_of_flatten (flatten_write_write _ _) rfl

theorem respond_rxFifo {cfg : Params} {n : Nat} {c : Chip} (h : c.rdPtr + n ≤ cfg.fifoDepth) (a : Answer) :
    respond cfg a (.rxFifo n) c = .ok (c.rxfifo.readBytes c.rdPtr n, { c with rdPtr := c.rdPtr + n }) :=
  respond_rxFifo_iff.mpr ⟨h, rfl, rfl⟩

theorem respond_txFifo {cfg : Params} {p : List Byte} {c : Chip} (h : c.wrPtr + p.length ≤ cfg.fifoDepth) (a : Answer) :
    respond cfg a (.txFifo p) c =
      .ok ([], { c with txfifo := c.txfifo.writeBytes c.wrPtr p, wrPtr := c.wrPtr + p.length }) := by
  rw [respond, writeFifo, if_pos h]

/-- Of a broken-off RX buffer read the bytes after byte 0 move the pointer. -/
theorem receiveBroken_rxFifo {cfg : Params} {n : Nat} {c : Chip} (h : c.rdPtr + n ≤ cfg.fifoDepth) (a : Answer) (k : Nat) :
    receiveBroken cfg a [.write [0x45], .read n] k c = .ok { c with rdPtr := c.rdPtr + min (k - 1) n } := by
  cases k with
  | zero => simpa using receiveBroken_zero (flatten_write_read [0x45] n) cfg a c
  | succ k =>
    rw [Nat.add_sub_cancel, Nat.min_comm]
    exact receiveBroken_of_respond (flatten_write_read _ _) (by rw [framePrefix_succ_read]; rfl) rfl
      (respond_rxFifo (n := min n k) (by omega) a)

/-- Of a broken-off TX buffer write the bytes after byte 0 are stored. -/
theorem receiveBroken_txFifo {cfg : Params} {p : List Byte} {c : Chip} (h : c.wrPtr + p.length ≤ cfg.fifoDepth) (a : Answer)
    (k : Nat) : receiveBroken cfg a [.write [0x05], .write p] k c = .ok { c with
      txfifo := c.txfifo.writeBytes c.wrPtr (p.take (k - 1)), wrPtr := c.wrPtr + min (k - 1) p.length } := by
  cases k with
  | zero => simpa [Memory.writeBytes] using receiveBroken_zero (flatten_write_write [0x05] p) cfg a c
  | succ k =>
    rw [Nat.add_sub_cancel, ← List.length_take]
    exact receiveBroken_of_respond (flatten_write_write _ _) (by rw [List.singleton_append, framePrefix_succ]; rfl) rfl
      (respond_txFifo (p := p.take k) (by rw [List.length_take]; omega) a)

/-- Settles O26: the RX buffer read whole, and the part of it that arrived. -/
theorem rxFifoFrameReadsFromThePointer : Obligations.RxFifoFrameReadsFromThePointer := by
  unfold Obligations.RxFifoFrameReadsFromThePointer
  rintro n s a rest c hs href ha rfl room
  refine ⟨fun hf => ?_, fun e k hf => ?_⟩
  · obtain ⟨ptr, -⟩ := radioActs_keep s.cfg a.radio s.chip
    have read := chipTransact_rxFifo href hf (ptr ▸ room : s.chip.rdPtr + n ≤ s.cfg.fifoDepth)
    rw [← ptr] at read
    rw [fifoBytes_eq_readBytes]
    exact startTransact_of_idle hs ha read
  · exact startTransact_of_idle hs ha (chipTransact_of_receiveBroken href hf (receiveBroken_rxFifo room a k))

/-- Settles O27: the TX buffer write whole, and the part of it that arrived. -/
theorem txFifoFrameStoresAtThePointer : Obligations.TxFifoFrameStoresAtThePointer := by
  unfold Obligations.TxFifoFrameStoresAtThePointer
  rintro p s a rest c hs href ha rfl room wf
  refine ⟨fun hf => ?_, fun e k hf => ?_⟩
  · have write := chipTransact_of_respond href hf (frameOf_txFifo p) (respond_txFifo room a)
    obtain ⟨t, run, frame, res⟩ := startTransact_of_idle hs ha write
    exact ⟨t, _, run, frame, storedIn_writeBytes wf _ _, res⟩
  · have cut := chipTransact_of_receiveBroken href hf (receiveBroken_txFifo room a k)
    obtain ⟨t, run, frame, res⟩ := startTransact_of_idle hs ha cut
    exact ⟨t, _, run, frame, storedIn_writeBytes wf _ _, res⟩

/-! ### Register frames (R52, R53, R61, R169 to R171) -/

theorem frameOf_writeOps {addr : BitVec 6} {p : List Byte} (h : addr ≠ 0x05) (hreset : ¬(addr = 0x00 ∧ p = [0x00])) :
    frameOf (writeOps addr p) = .ok (.regWrite addr p) :=
  frameOf_of_flatten (flatten_write_write _ _) (decodeFrame_regWrite h hreset)

theorem respond_regWrite {cfg : Params} {addr : BitVec 6} {p : List Byte} (h : lengthFits cfg false addr p.length = true)
    (a : Answer) (c : Chip) : respond cfg a (.regWrite addr p) c = .ok ([], { c with cat := a.cat }) := by
  rw [respond, writeRegister, if_pos h]

theorem respond_regRead {cfg : Params} {addr : BitVec 6} {n : Nat} (hst : addr ≠ cfg.statusAddr)
    (h : lengthFits cfg true addr n = true) (a : Answer) (c : Chip) :
    respond cfg a (.regRead addr n) c = .ok (padTo n a.bytes, { c with cat := a.cat }) := by
  rw [respond, readRegister, if_neg hst, if_pos h]

/-- Two bytes of a longer write to address 0x00 that are both 0x00 are the Reset frame (R61). -/
theorem take_eq_reset_iff {p : List Byte} (hp : p ≠ [0x00]) (k : Nat) :
    p.take k = [0x00] ↔ k + 1 = 2 ∧ p.head? = some 0x00 := by
  match p, k with
  | [], k => simp
  | b :: t, 0 => simp
  | b :: t, 1 => simp
  | [b], k + 2 => simpa using hp
  | b :: x :: t, k + 2 => simp

/-- What a broken-off register write leaves. -/
theorem receiveBroken_writeOps {cfg : Params} {addr : BitVec 6} {p : List Byte} (h : addr ≠ 0x05)
    (hreset : ¬(addr = 0x00 ∧ p = [0x00])) (fits : lengthFits cfg false addr p.length = true) (a : Answer) (k : Nat)
    (c : Chip) :
    receiveBroken cfg a (writeOps addr p) k c = .ok (if k = 0 then c
      else if addr = 0x00 ∧ k = 2 ∧ p.head? = some 0x00 then resetChip cfg a.pick a.chip else { c with cat := a.cat }) := by
  have flat : flatten (writeOps addr p) = some { out := addr.setWidth 8 :: p, rd := 0 } := flatten_write_write _ _
  cases k with
  | zero => exact receiveBroken_zero flat cfg a c
  | succ k =>
    rw [if_neg (Nat.succ_ne_zero k)]
    split_ifs with reset
    · obtain ⟨rfl, hk, head⟩ := reset
      have arrived : p.take k = [0x00] := (take_eq_reset_iff (fun hp => hreset ⟨rfl, hp⟩) k).mpr ⟨hk, head⟩
      exact receiveBroken_of_respond (op := .reset) flat (by rw [framePrefix_succ, arrived]; rfl) rfl rfl
    · have other : ¬(addr = 0x00 ∧ p.take k = [0x00]) := fun ⟨ha, arrived⟩ =>
        reset ⟨ha, (take_eq_reset_iff (fun hp => hreset ⟨ha, hp⟩) k).mp arrived⟩
      refine receiveBroken_of_prefix flat (by rw [framePrefix_succ, decodeFrame_regWrite h other]) rfl fun all => ⟨[], ?_⟩
      have whole : p.take k = p := List.take_of_length_le (by simp only [frameSize, List.length_cons] at all; omega)
      exact respond_regWrite (whole.symm ▸ fits) a c

/-- What a broken-off register read leaves. -/
theorem receiveBroken_readOps {cfg : Params} {addr : BitVec 6} {n : Nat} (h : addr ≠ 0x05) {a : Answer} {c c' : Chip}
    (hcut : ∀ m, respondBroken cfg a (.regRead addr m) c = .ok c')
    (hall : ∃ bs, respond cfg a (.regRead addr n) c = .ok (bs, c'))
    (k : Nat) : receiveBroken cfg a (readOps addr n) k c = .ok (if k = 0 then c else c') := by
  have flat : flatten (readOps addr n) = some { out := [readByte0 (addr.setWidth 8)], rd := n } := flatten_write_read _ _
  cases k with
  | zero => exact receiveBroken_zero flat cfg a c
  | succ k =>
    refine receiveBroken_of_prefix flat (by rw [framePrefix_succ_read, decodeFrame_regRead h]) (hcut (min n k)) fun all => ?_
    have whole : min n k = n := Nat.min_eq_left (by simp only [frameSize, List.length_cons, List.length_nil] at all; omega)
    rwa [whole]

theorem splitReads_readOps (addr : BitVec 6) {n : Nat} {bs : List Byte} (h : bs.length = n) :
    splitReads (readOps addr n) bs = [bs] := by
  rw [readOps, splitReads_write_read, List.take_of_length_le h.le]

/-- Settles O28: a register frame whole, and the part of it that arrived. -/
theorem registerFramesTouchOnlyTheCatalog : Obligations.RegisterFramesTouchOnlyTheCatalog := by
  unfold Obligations.RegisterFramesTouchOnlyTheCatalog
  rintro addr s a rest c hs href ha rfl port
  refine ⟨fun p hreset fits => ⟨fun hf => ?_, fun e k hf => ?_⟩, fun n hst fits => ⟨fun hf => ?_, fun e k hf => ?_⟩,
    fun hst wf => ⟨fun hf => ?_, fun e k hf => ?_⟩⟩
  · exact startTransact_of_idle hs ha
      (chipTransact_of_respond href hf (frameOf_writeOps port hreset) (respond_regWrite fits a _))
  · exact startTransact_of_idle hs ha
      (chipTransact_of_receiveBroken href hf (receiveBroken_writeOps port hreset fits a k _))
  · have read := chipTransact_of_respond href hf (frameOf_readOps port n) (respond_regRead hst fits a (chipAt s a))
    rw [splitReads_readOps _ (padTo_length n a.bytes)] at read
    obtain ⟨t, run, frame, res⟩ := startTransact_of_idle hs ha read
    exact ⟨t, padTo n a.bytes, run, padTo_length _ _, padTo_of_length, frame, res⟩
  · have cut (m : Nat) : respondBroken s.cfg a (.regRead addr m) (chipAt s a) = .ok { chipAt s a with cat := a.cat } := by
      rw [respondBroken, if_neg hst]
    exact startTransact_of_idle hs ha (chipTransact_of_receiveBroken href hf
      (receiveBroken_readOps port cut ⟨_, respond_regRead hst fits a _⟩ k))
  · subst hst
    obtain ⟨b, read, flags⟩ := chipTransact_statusRead href wf hf
    obtain ⟨t, run, frame, res⟩ := startTransact_of_idle hs ha read
    exact ⟨t, b, run, flags, frame, res⟩
  · subst hst
    have cut (m : Nat) : respondBroken s.cfg a (.regRead s.cfg.statusAddr m) (chipAt s a) = .ok (chipAt s a) := by
      rw [respondBroken, if_pos rfl]
    have left := receiveBroken_readOps port cut ⟨_, respond_statusRead s.cfg a _⟩ k
    rw [ite_self] at left
    exact startTransact_of_idle hs ha (chipTransact_of_receiveBroken href hf left)

/-- Settles O29: the op lists are the same at 0x05, and at 0x00 the flattened frame is Reset's. -/
theorem coincidingFramesActAlike : Obligations.CoincidingFramesActAlike := by
  unfold Obligations.CoincidingFramesActAlike
  refine ⟨fun n s => rfl, fun p s => rfl, fun s a rest hs href ha hf => ?_⟩
  exact startTransact_of_idle hs ha (chipTransact_of_respond (f := .reset) href hf rfl rfl)

end Sys2Proof.Machine
end

section
/-! PROOFS. Which frames the reference responder answers: the register accesses that complete (42_regaccess.md), and the frames
that no rule covers (45_chip_responder.md section 5). -/

namespace Sys2Proof.Machine

open Sys2Proof.Spec

/-! ### Register accesses that complete (R105, R109) -/

/-- The six bits of a usable descriptor's address are the whole address. -/
theorem setWidth_address {facet : Bool} {n : Nat} {d : Descriptor} (h : Usable facet n d) :
    (d.addr.setWidth 6).setWidth 8 = d.addr := by
  obtain ⟨-, -, h7, h6, -, -⟩ := h
  exact regWrite_byte0 h7 h6

theorem address_ne_port {facet : Bool} {n : Nat} {d : Descriptor} (h : Usable facet n d) (hport : d.addr ≠ 0x05) :
    d.addr.setWidth 6 ≠ 0x05 := fun h5 => hport (by rw [← setWidth_address h, h5]; rfl)

/-- A register read of a length the register may have returns bytes, outside STATUS_ADDR any that the far end draws. -/
theorem exists_respond_regRead {cfg : Params} {addr : BitVec 6} {n : Nat} (fits : lengthFits cfg true addr n = true)
    (hst : addr = cfg.statusAddr → n = 1) (a : Answer) (c : Chip) :
    ∃ bs c', bs.length = n ∧ (addr ≠ cfg.statusAddr → a.bytes.length = n → bs = a.bytes)
      ∧ respond cfg a (.regRead addr n) c = .ok (bs, c') := by
  by_cases h : addr = cfg.statusAddr
  · obtain rfl := hst h
    subst h
    exact ⟨_, c, rfl, fun other => absurd rfl other, respond_statusRead cfg a c⟩
  · exact ⟨_, _, padTo_length _ _, fun _ => padTo_of_length, respond_regRead h fits a c⟩

/-- A register write of a length the register may have goes through, as Reset where it is Reset's frame (R61). -/
theorem exists_receiveWhole_writeOps {cfg : Params} {addr : BitVec 6} {p : List Byte} (h : addr ≠ 0x05)
    (fits : lengthFits cfg false addr p.length = true) (a : Answer) (c : Chip) :
    ∃ c', receiveWhole cfg a (writeOps addr p) c = .ok ([], c') := by
  by_cases hreset : addr = 0x00 ∧ p = [0x00]
  · obtain ⟨rfl, rfl⟩ := hreset
    exact ⟨_, receiveWhole_of_respond (op := .reset) rfl rfl⟩
  · exact ⟨_, receiveWhole_of_respond (frameOf_writeOps h hreset) (respond_regWrite fits a c)⟩

/-- Settles O20: the far end answers the access's frame, and the access does the rest. -/
theorem registerAccessCompletes : Obligations.RegisterAccessCompletes := by
  unfold Obligations.RegisterAccessCompletes
  intro n h d s a rest hs href ha hf hport
  refine ⟨fun hd fits hst => ?_, fun val hd hval fits => ?_⟩
  · obtain ⟨bs, c', hlen, drawn, read⟩ := exists_respond_regRead fits hst a (chipAt s a)
    have went := chipTransact_of_respond href hf (frameOf_readOps (address_ne_port hd hport) n) read
    rw [splitReads_readOps _ hlen, readOps, setWidth_address hd] at went
    have code : (n = 1 ∧ rdregCode n = 0x31) ∨ (n = 2 ∧ rdregCode n = 0x32) ∨ (n = 4 ∧ rdregCode n = 0x34) := by
      rcases h with rfl | rfl | rfl <;> decide
    obtain ⟨-, t, run, ⟨⟨idle, -⟩, -⟩, ⟨e, he, -⟩ | ⟨bs', -, hbs, res⟩⟩ :=
      rdregReadsAndDecodes n _ code d s a rest _ c' hd hs ha went
    · cases he
    · cases hbs
      exact ⟨t, bs, run, idle, hlen, drawn, res⟩
  · have hn := legalWidth_iff.mpr h
    obtain ⟨c', went⟩ := exists_receiveWhole_writeOps (address_ne_port hd hport) (p := encN n (placed d.wfields val))
      (by rwa [encN_length]) a (chipAt s a)
    have went := chipTransact_of_receiveWhole href hf went
    rw [writeOps, setWidth_address hd] at went
    obtain ⟨t, run, ⟨⟨idle, -⟩, -⟩, res⟩ := writeRegisterOp_of_idle (wrregCode n) hn hd hval hs ha went
    exact ⟨t, by rw [exec_wrreg, accessWidth_of_legalWidth hn, run], idle, res⟩

/-! ### Frames without a rule (R175 to R177) -/

/-- A strobe byte with a low nibble, with payload or with a read phase (R60 a, R175). -/
theorem decodeFrame_strobe_error {b : Byte} {p : List Byte} {n : Nat} (h7 : b.getLsbD 7 = true)
    (h : b &&& 0x0F ≠ 0 ∨ p ≠ [] ∨ n ≠ 0) : ∃ why, decodeFrame { out := b :: p, rd := n } = .error why := by
  by_cases more : p ≠ [] ∨ n ≠ 0
  · exact ⟨.strobePayload, by simp only [decodeFrame, h7, if_true, if_pos more]⟩
  · have nibble : b &&& 0x0F ≠ 0 := h.resolve_right more
    have noMode : modeOf b = none := Option.eq_none_iff_forall_ne_some.mpr fun m hm =>
      nibble ((modeOf_eq_some_iff_fields b m).mp hm).2.2
    have noPtr : b ≠ 0xE0 ∧ b ≠ 0xF0 := ⟨fun h => nibble (h ▸ rfl), fun h => nibble (h ▸ rfl)⟩
    exact ⟨.strobeLowNibble, by simp only [decodeFrame, h7, if_true, if_neg more, noMode, if_neg noPtr.1, if_neg noPtr.2]⟩

theorem frameOf_error_of_flatten {ops : List Op} {f : Frame} {why : FrameReject} (h : flatten ops = some f)
    (hop : decodeFrame f = .error why) : frameOf ops = .error (.frameNoRule why) := by
  simp only [frameOf, h, hop]

theorem receiveWhole_of_frameOf_error {ops : List Op} {why : Refusal} (h : frameOf ops = .error why) (cfg : Params)
    (a : Answer)
    (c : Chip) : receiveWhole cfg a ops c = .error why := by
  simp only [receiveWhole, h]

theorem lengthFits_of_not_legalWidth {n : Nat} (h : legalWidth n = false) (cfg : Params) (reading : Bool) (addr : BitVec 6) :
    lengthFits cfg reading addr n = false := by
  simp only [lengthFits, h, Bool.false_and]

/-- The catalog has a register there, and none of this width (R177, log 16). -/
theorem lengthFits_of_catalog {cfg : Params} {reading : Bool} {addr : BitVec 6} {n : Nat} {d : Descriptor}
    (hd : d ∈ cfg.catalog) (haddr : d.addr = addr.setWidth 8) (hfacet : hasFacet reading d = true)
    (other : ∀ d' ∈ cfg.catalog, d'.addr = addr.setWidth 8 → hasFacet reading d' = true → d'.width ≠ n) :
    lengthFits cfg reading addr n = false := by
  have there : cfg.catalog.filter (fun d => d.addr = addr.setWidth 8 && hasFacet reading d) ≠ [] :=
    List.ne_nil_of_mem (List.mem_filter.mpr ⟨hd, by simp [haddr, hfacet]⟩)
  have none : (cfg.catalog.filter fun d => d.addr = addr.setWidth 8 && hasFacet reading d).any
      (fun d => d.width = n) = false := by
    refine List.any_eq_false.mpr fun d' hd' => ?_
    obtain ⟨mem, here⟩ := List.mem_filter.mp hd'
    simp only [Bool.and_eq_true, decide_eq_true_eq] at here
    simpa using other d' mem here.1 here.2
  simp only [lengthFits, there, none, decide_false, Bool.or_false, Bool.and_false]

theorem respond_regRead_error {cfg : Params} {addr : BitVec 6} {n : Nat} (hn : addr = cfg.statusAddr → n ≠ 1)
    (h : addr ≠ cfg.statusAddr → lengthFits cfg true addr n = false) (a : Answer) (c : Chip) :
    respond cfg a (.regRead addr n) c = .error .registerLength := by
  rw [respond, readRegister]
  by_cases hst : addr = cfg.statusAddr
  · rw [if_pos hst]
    exact if_neg (hn hst)
  · rw [if_neg hst, h hst]
    rfl

theorem respond_regWrite_error {cfg : Params} {addr : BitVec 6} {p : List Byte}
    (h : lengthFits cfg false addr p.length = false)
    (a : Answer) (c : Chip) : respond cfg a (.regWrite addr p) c = .error .registerLength := by
  rw [respond, writeRegister, h]
  rfl

theorem respond_rxFifo_error {cfg : Params} {n : Nat} {c : Chip} (h : cfg.fifoDepth < c.rdPtr + n) (a : Answer) :
    respond cfg a (.rxFifo n) c = .error .fifoPastEnd := by
  rw [respond, readFifo, if_neg (Nat.not_le.mpr h)]

theorem respond_txFifo_error {cfg : Params} {p : List Byte} {c : Chip} (h : cfg.fifoDepth < c.wrPtr + p.length) (a : Answer) :
    respond cfg a (.txFifo p) c = .error .fifoPastEnd := by
  rw [respond, writeFifo, if_neg (Nat.not_le.mpr h)]

section

variable {s : State} {a : Answer} {rest : List Answer} (hs : s.seq = .idle) (href : s.cfg.responder = .reference)
  (ha : s.answers = a :: rest) (hf : a.fault = none)

include hs href ha hf

theorem startTransact_refused {ops : List Op} {why : Refusal} (h : receiveWhole s.cfg a ops (chipAt s a) = .error why) :
    startTransact ops s = .refused why := by
  rw [startTransact, accept_of_idle hs]
  exact afterBus_of_refusal ha (chipTransact_of_receiveWhole_error href hf h)

theorem startBwrite_refused {b : List Byte} {why : Refusal} (h : receiveWhole s.cfg a [.write b] (chipAt s a) = .error why) :
    startBwrite b s = .refused why := by
  rw [startBwrite, accept_of_idle hs]
  exact afterBus_of_refusal ha (chipTransact_of_receiveWhole_error href hf h)

theorem frameRegread_refused {addr : BitVec 6} {n : Nat} (h : addr ≠ 0x05) (hn : addr = s.cfg.statusAddr → n ≠ 1)
    (fits : addr ≠ s.cfg.statusAddr → lengthFits s.cfg true addr n = false) :
    exec (.frameRegread addr n) s = .refused .registerLength :=
  startTransact_refused hs href ha hf (receiveWhole_of_respond (frameOf_readOps h n) (respond_regRead_error hn fits a _))

theorem frameRegwrite_refused {addr : BitVec 6} {p : List Byte} (h : addr ≠ 0x05) (hreset : ¬(addr = 0x00 ∧ p = [0x00]))
    (fits : lengthFits s.cfg false addr p.length = false) : exec (.frameRegwrite addr p) s = .refused .registerLength :=
  startTransact_refused hs href ha hf
    (receiveWhole_of_respond (frameOf_writeOps h hreset) (respond_regWrite_error fits a _))

end

/-- Settles O35: a frame that decodes to nothing, a pointer past the end, a length that does not fit. -/
theorem framesWithoutARuleAreRefused : Obligations.FramesWithoutARuleAreRefused := by
  unfold Obligations.FramesWithoutARuleAreRefused
  intro s a rest hs href ha hf
  obtain ⟨rdPtr, wrPtr, -⟩ := radioActs_keep s.cfg a.radio s.chip
  refine ⟨fun b p h7 h => ?_, fun ops b p n flat h7 h => ?_, fun n h => ?_, fun p h => ?_, fun addr n port h1 h2 h4 => ?_,
    fun n port h1 => ?_, fun addr p port h1 h2 h4 => ?_, fun d addr n port hst hd haddr hr other => ?_,
    fun d addr p port hreset hd haddr hw other => ?_⟩
  · obtain ⟨why, noRule⟩ := decodeFrame_strobe_error (n := 0) h7 (h.imp_right .inl)
    refine ⟨why, (exec_bwrite (List.cons_ne_nil _ _) s).trans (startBwrite_refused hs href ha hf ?_)⟩
    exact receiveWhole_of_frameOf_error (frameOf_error_of_flatten (flatten_write _) noRule) _ _ _
  · obtain ⟨why, noRule⟩ := decodeFrame_strobe_error h7 h
    have nonempty : ops ≠ [] := fun h => by rw [h] at flat; cases flat
    refine ⟨why, (exec_transact nonempty s).trans (startTransact_refused hs href ha hf ?_)⟩
    exact receiveWhole_of_frameOf_error (frameOf_error_of_flatten flat noRule) _ _ _
  · exact startTransact_refused hs href ha hf
      (receiveWhole_of_respond (frameOf_of_flatten (flatten_write_read _ _) rfl) (respond_rxFifo_error (rdPtr.symm ▸ h) a))
  · exact startTransact_refused hs href ha hf
      (receiveWhole_of_respond (frameOf_txFifo p) (respond_txFifo_error (wrPtr.symm ▸ h) a))
  · have illegal : legalWidth n = false := by simp [legalWidth, h1, h2, h4]
    exact frameRegread_refused hs href ha hf port (fun _ => h1) fun _ => lengthFits_of_not_legalWidth illegal _ _ _
  · exact frameRegread_refused hs href ha hf port (fun _ => h1) fun h => absurd rfl h
  · have illegal : legalWidth p.length = false := by simp [legalWidth, h1, h2, h4]
    exact frameRegwrite_refused hs href ha hf port (fun ⟨_, hp⟩ => h1 (hp ▸ rfl)) (lengthFits_of_not_legalWidth illegal _ _ _)
  · exact frameRegread_refused hs href ha hf port (fun h => absurd h hst) fun _ => lengthFits_of_catalog hd haddr hr other
  · exact frameRegwrite_refused hs href ha hf port hreset (lengthFits_of_catalog hd haddr hw other)

end Sys2Proof.Machine
end

section
/-! PROOFS. What the far end may do (R104, R166, R174, R178): a given responder, the radio, the draws of Reset, the test responder;
and the FIFO memories as plain data (log 8). -/

namespace Sys2Proof.Machine

open Sys2Proof.Spec

/-! ### Memories in canonical form (log 8) -/

/-- The cells of a canonical memory are what it reads as, where that is not what an unlisted index reads as. -/
theorem Memory.mem_iff_read {m : Memory} (h : m.wf) (x : Host.Cell) : x ∈ m ↔ m.read x.1 = x.2 ∧ x.2 ≠ unlisted := by
  refine ⟨fun hx => ⟨read_of_mem h hx, h.2 x hx⟩, fun ⟨read, listed⟩ => ?_⟩
  have found : ∀ l : Memory, l.read x.1 = x.2 → x ∈ l := by
    intro l hl
    induction l with
    | nil => exact absurd hl.symm listed
    | cons c t ih =>
      rw [Memory.read] at hl
      split_ifs at hl with index
      · exact List.mem_cons.mpr (.inl (Prod.ext index.symm hl.symm))
      · exact List.mem_cons_of_mem _ (ih hl)
  exact found m read

theorem Memory.ext_of_read {m m' : Memory} (h : m.wf) (h' : m'.wf) (same : ∀ i, m.read i = m'.read i) : m = m' := by
  have irrefl : Std.Irrefl fun x y : Host.Cell => x.1 < y.1 := ⟨fun x => Nat.lt_irrefl x.1⟩
  have antisymm : Std.Antisymm fun x y : Host.Cell => x.1 < y.1 := ⟨fun x y hxy hyx => absurd hxy (Nat.lt_asymm hyx)⟩
  refine List.Pairwise.eq_of_mem_iff h.1 h'.1 fun x => ?_
  rw [mem_iff_read h, mem_iff_read h', same]

/-- Settles O36: both lists hold the cells that the reads tell, in rising order. -/
theorem canonicalMemoriesAreTheirReads : Obligations.CanonicalMemoriesAreTheirReads := fun _ _ =>
  Memory.ext_of_read

/-! ### A given responder (R90, R96, R104) -/

theorem asked_eq_lengths {ops : List Op} {bs : List Byte} (h : bs.length = readSize ops) :
    (splitReads ops bs).map List.length = asked ops := by
  induction ops generalizing bs with
  | nil => rfl
  | cons op t ih =>
    cases op with
    | write b => exact ih h
    | read n =>
      rw [readSize_read] at h
      rw [splitReads, asked, List.map_cons, ih (by rw [List.length_drop]; omega), List.length_take,
          Nat.min_eq_left (by omega)]

/-- Buffers of the lengths asked for are the bytes of all of them, cut again. -/
theorem splitReads_flatten_of_asked {ops : List Op} {reads : List (List Byte)} (h : reads.map List.length = asked ops) :
    reads.flatten.length = readSize ops ∧ splitReads ops reads.flatten = reads := by
  induction ops generalizing reads with
  | nil => rw [List.map_eq_nil_iff.mp h]; exact ⟨rfl, rfl⟩
  | cons op t ih =>
    cases op with
    | write b => exact ih h
    | read n =>
      obtain ⟨b, r, rfl, rfl, hr⟩ := List.map_eq_cons_iff.mp h
      obtain ⟨length, cut⟩ := ih hr
      rw [List.flatten_cons, splitReads, List.take_left, List.drop_left, cut, List.length_append, length]
      exact ⟨rfl, rfl⟩

theorem errorOf_legal (cfg : Params) (ops : List Op) (e : TE) : LegalOutcome cfg ops (.err (errorOf cfg e)) := by
  intro n hn
  rw [errorOf, hn]
  exact Nat.le_of_lt_succ (Nat.mod_lt _ n.succ_pos)

theorem errorOf_of_legal {cfg : Params} {ops : List Op} {e : TE} (h : LegalOutcome cfg ops (.err e)) : errorOf cfg e = e := by
  rw [errorOf]
  cases hn : cfg.te with
  | none => rfl
  | some n => exact congrArg TE.mk (Nat.mod_eq_of_lt (Nat.lt_succ_of_le (h n hn)))

/-- Every answer, whichever the responder, has an outcome of legal shape. -/
theorem legalOutcome_of_chipTransact {cfg : Params} {a : Answer} {ops : List Op} {c c' : Chip} {o : BusOutcome}
    (h : chipTransact cfg a ops c = .ok (o, c')) : LegalOutcome cfg ops o := by
  cases o with
  | ok reads =>
    obtain ⟨bs, length, rfl⟩ := chipTransact_reads h
    exact asked_eq_lengths length
  | err e =>
    suffices drawn : ∃ e', e = errorOf cfg e' by
      obtain ⟨e', rfl⟩ := drawn
      exact errorOf_legal cfg ops e'
    rcases chipTransact_cases h with ⟨-, h⟩ | ⟨-, h⟩
    · obtain ⟨_, -, -, ho⟩ | ⟨e', _, -, -, ho⟩ := referenceTransact_cases h
      · cases ho
      · exact ⟨e', BusOutcome.err.inj ho⟩
    · obtain ⟨-, ⟨-, ho⟩ | ⟨e', _, -, ho⟩⟩ := givenTransact_cases h
      · cases ho
      · exact ⟨e', BusOutcome.err.inj ho⟩

/-- The picture of a chip state. -/
def pictureOf (c : Chip) : ChipPicture :=
  { mode := c.mode, prior := c.prior, rdPtr := c.rdPtr, wrPtr := c.wrPtr, rx := c.rxfifo, tx := c.txfifo,
    fecPass := c.fecPass, crcPass := c.crcPass, cat := c.cat }

/-- The answer that says an outcome and a chip state. -/
def answerSaying (o : BusOutcome) (c : Chip) : Answer :=
  match o with
  | .ok reads => { plainAnswer with bytes := reads.flatten, chip := pictureOf c }
  | .err e => { plainAnswer with fault := some (e, 0), chip := pictureOf c }

theorem givenTransact_answerSaying {cfg : Params} {ops : List Op} {o : BusOutcome} {c : Chip} (ho : LegalOutcome cfg ops o)
    (hc : ChipOk cfg.fifoDepth c) : givenTransact cfg (answerSaying o c) ops = (o, c) := by
  have chip : chipOfPicture cfg.fifoDepth (pictureOf c) = c := chipOfPicture_of_ok hc
  cases o with
  | ok reads =>
    obtain ⟨length, cut⟩ := splitReads_flatten_of_asked ho
    rw [answerSaying, givenTransact]
    simp only [chip, plainAnswer, padTo_of_length length, cut]
  | err e =>
    rw [answerSaying, givenTransact]
    simp only [chip, errorOf_of_legal ho]

/-- Settles O32: an answer can say every legal outcome, and the reference responder has no other. -/
theorem anyResponderCanBeGiven : Obligations.AnyResponderCanBeGiven := by
  unfold Obligations.AnyResponderCanBeGiven
  intro cfg ops c hgiven
  have said {o : BusOutcome} {c' : Chip} (ho : LegalOutcome cfg ops o) (hc : ChipOk cfg.fifoDepth c') :
      ∃ a, chipTransact cfg a ops c = .ok (o, c') :=
    ⟨answerSaying o c', by rw [chipTransact_given hgiven, givenTransact_answerSaying ho hc]⟩
  refine ⟨fun a => ?_, fun o c' => said, fun a o c' hc h => ?_⟩
  · rcases hg : givenTransact cfg a ops with ⟨o, c'⟩
    have answer : chipTransact cfg a ops c = .ok (o, c') := by rw [chipTransact_given hgiven, hg]
    obtain ⟨rfl, -⟩ := givenTransact_cases hg
    exact ⟨o, _, answer, legalOutcome_of_chipTransact answer, chipOfPicture_ok _ _⟩
  · have legal : LegalOutcome { cfg with responder := .reference } ops o := legalOutcome_of_chipTransact h
    have chip : ChipOk cfg.fifoDepth c' := chipTransact_ok (cfg := { cfg with responder := .reference }) h hc
    exact said legal chip

/-! ### The radio (R174) -/

theorem radioAct_mode (cfg : Params) (a : RadioAct) (c : Chip) :
    (radioAct cfg a c).prior = c.prior ∧ ((radioAct cfg a c).mode = c.mode
      ∨ (c.mode = .rx ∨ c.mode = .tx) ∧ (radioAct cfg a c).mode = c.prior) := by
  cases a with
  | flags f k => exact ⟨rfl, .inl rfl⟩
  | receive cells => exact ⟨rfl, .inl rfl⟩
  | fallback =>
    rw [radioAct]
    split_ifs with receiving
    · exact ⟨rfl, .inr ⟨receiving, rfl⟩⟩
    · exact ⟨rfl, .inl rfl⟩

/-- Fallbacks after the first change nothing: the prior mode is the chip's already. -/
theorem radioActs_mode (cfg : Params) (acts : List RadioAct) (c : Chip) : (radioActs cfg acts c).mode = c.mode
    ∨ (c.mode = .rx ∨ c.mode = .tx) ∧ (radioActs cfg acts c).mode = c.prior := by
  induction acts generalizing c with
  | nil => exact .inl rfl
  | cons a t ih =>
    rw [radioActs]
    obtain ⟨prior, step⟩ := radioAct_mode cfg a c
    have later := ih (radioAct cfg a c)
    rw [prior] at later
    rcases step with mode | ⟨receiving, mode⟩
    · rwa [mode] at later
    · exact .inr ⟨receiving, later.elim (·.trans mode) (·.2)⟩

theorem Memory.readBytes_getD (m : Memory) {i n k : Nat} (h : k < n) : (m.readBytes i n).getD k 0 = m.read (i + k) := by
  rw [← fifoBytes_eq_readBytes, fifoBytes, List.getD_eq_getElem _ _ (by simpa using h)]
  simp

theorem Memory.read_of_within {depth : Nat} {m : Memory} (h : m.within depth) {i : Nat} (hi : depth ≤ i) :
    m.read i = unlisted := by
  induction m with
  | nil => rfl
  | cons c t ih =>
    have outside : c.1 ≠ i := by have := h c (List.mem_cons_self ..); omega
    rw [read, if_neg outside]
    exact ih fun x hx => h x (List.mem_cons_of_mem _ hx)

/-- The act that brings a whole receive buffer about: each of its bytes received. -/
def receiveAll (depth : Nat) (m : Memory) : RadioAct := .receive ((m.readBytes 0 depth).zipIdx.map Prod.swap)

theorem writeCells_receiveAll {depth : Nat} {m m' : Memory} (h : m.wf) (hd : m.within depth) (h' : m'.wf)
    (hd' : m'.within depth) :
    m'.writeCells depth ((m.readBytes 0 depth).zipIdx.map Prod.swap) = m := by
  have length : (m.readBytes 0 depth).length = depth := Memory.readBytes_length m 0 depth
  rw [Memory.writeCells_zipIdx m' (by omega)]
  refine Memory.ext_of_read (Memory.writeBytes_wf _ _ h') h fun i => ?_
  rw [storedIn_writeBytes h' 0 _ i, length]
  split_ifs with inside
  · rw [Memory.readBytes_getD m (by omega), show 0 + (i - 0) = i by omega]
  · rw [Memory.read_of_within hd' (by omega), Memory.read_of_within hd (by omega)]

theorem radioActs_receiveAll {cfg : Params} {c : Chip} (hc : ChipOk cfg.fifoDepth c) {m : Memory} (h : m.wf)
    (hd : m.within cfg.fifoDepth) (f k : Bool) (acts : List RadioAct) :
    radioActs cfg (receiveAll cfg.fifoDepth m :: .flags f k :: acts) c
      = radioActs cfg acts { c with fecPass := f, crcPass := k, rxfifo := m } := by
  obtain ⟨-, -, wf, -, within, -⟩ := hc
  simp only [radioActs, radioAct, receiveAll, writeCells_receiveAll h hd wf within]

/-- Settles O33: what every act leaves alone, and the acts that receive every byte of a buffer. -/
theorem radioChangesWhatItMay : Obligations.RadioChangesWhatItMay := by
  unfold Obligations.RadioChangesWhatItMay
  refine ⟨fun cfg acts c => ?_, fun cfg c f k m hc h hd => ⟨⟨_, radioActs_receiveAll hc h hd f k []⟩, fun receiving => ?_⟩⟩
  · obtain ⟨rdPtr, wrPtr, txfifo, prior, cat⟩ := radioActs_keep cfg acts c
    exact ⟨rdPtr, wrPtr, txfifo, prior, cat, radioActs_mode cfg acts c⟩
  · exact ⟨_, (radioActs_receiveAll hc h hd f k [.fallback]).trans (by simp only [radioActs, radioAct, if_pos receiving])⟩

/-! ### The draws of Reset (R166) -/

theorem resetChip_of_default {cfg : Params} (h : cfg.chipReset = []) (k : Nat) (draw : ChipPicture) :
    resetChip cfg k draw = chipOfPicture cfg.fifoDepth draw := by
  simp only [resetChip, resetPicture, h]

/-- A draw past the families takes the first. -/
theorem resetChip_of_ne_nil {cfg : Params} (h : cfg.chipReset ≠ []) (k : Nat) (draw : ChipPicture) :
    resetChip cfg k draw = chipOfPicture cfg.fifoDepth ((cfg.chipReset.getD k (cfg.chipReset.head h)).fill draw) := by
  match families : cfg.chipReset, h with
  | p :: t, _ => simp only [resetChip, resetPicture, families, List.head_cons]

/-- Settles O34: the frame is Reset's, and a draw picks a family and the values that it leaves open. -/
theorem resetMayLeaveAnyMemberOfChipReset : Obligations.ResetMayLeaveAnyMemberOfChipReset := by
  unfold Obligations.ResetMayLeaveAnyMemberOfChipReset
  refine ⟨fun cfg a c => rfl, fun cfg k c hdefault hc => ⟨pictureOf c, ?_⟩, fun cfg h => ⟨fun k draw => ?_, fun p hp => ?_⟩⟩
  · rw [resetChip_of_default hdefault]
    exact chipOfPicture_of_ok hc
  · refine ⟨_, ?_, resetChip_of_ne_nil h k draw⟩
    rw [List.getD_eq_getElem?_getD]
    cases hk : cfg.chipReset[k]? with
    | none => exact List.head_mem h
    | some p => exact List.mem_of_getElem? hk
  · obtain ⟨k, hk⟩ := List.getElem?_of_mem hp
    exact ⟨k, fun draw => by rw [resetChip_of_ne_nil h, List.getD_eq_getElem?_getD, hk, Option.getD_some]⟩

end Sys2Proof.Machine
end

section
/-! PROOFS. The test responder (R178): the catalog as a memory of what was last written, the status payload of the flags alone,
and its Reset. -/

namespace Sys2Proof.Machine

open Sys2Proof.Spec

/-! ### The catalog remembered -/

/-- An entry of the catalog, or a write, at this address with this many bytes. -/
def isAt (addr : BitVec 6) (n : Nat) (w : BitVec 6 × List Byte) : Bool := w.1 = addr && w.2.length = n

/-- What is remembered once the bytes are written: any other bytes of that length at that address are forgotten. -/
def remember (w : BitVec 6 × List Byte) (cat : Catalog) : Catalog := w :: cat.filter (fun x => !isAt w.1 w.2.length x)

theorem isAt_iff {addr : BitVec 6} {n : Nat} {w : BitVec 6 × List Byte} :
    isAt addr n w = true ↔ w.1 = addr ∧ w.2.length = n := by
  simp [isAt]

theorem find?_remember (w : BitVec 6 × List Byte) (cat : Catalog) (addr : BitVec 6) (n : Nat) :
    (remember w cat).find? (isAt addr n) = if isAt addr n w then some w else cat.find? (isAt addr n) := by
  cases other : isAt addr n w with
  | true => rw [remember, List.find?_cons_of_pos other, if_pos rfl]
  | false =>
    have kept (x : BitVec 6 × List Byte) : (!isAt w.1 w.2.length x && isAt addr n x) = isAt addr n x := by
      cases hx : isAt addr n x with
      | false => exact Bool.and_false _
      | true =>
        obtain ⟨rfl, rfl⟩ := isAt_iff.mp hx
        have apart : isAt w.1 w.2.length x = false := by
          rw [← Bool.not_eq_true, isAt_iff, eq_comm, @eq_comm Nat, ← isAt_iff, other]
          exact Bool.false_ne_true
        rw [apart]
        rfl
    rw [remember, List.find?_cons_of_neg (by simp [other]), List.find?_filter]
    simp [kept]

theorem testAnswer_writeOps {cfg : Params} {addr : BitVec 6} {p : List Byte} (h : addr ≠ 0x05)
    (hreset : ¬(addr = 0x00 ∧ p = [0x00])) (c : Chip) :
    testAnswer cfg (writeOps addr p) c = { plainAnswer with cat := remember (addr, p) c.cat } := by
  simp only [testAnswer, frameOf_writeOps h hreset]
  rfl

theorem testAnswer_readOps {cfg : Params} {addr : BitVec 6} (h : addr ≠ 0x05) (hst : addr ≠ cfg.statusAddr) (n : Nat)
    (c : Chip) :
    testAnswer cfg (readOps addr n) c = { plainAnswer with bytes := remembered c.cat addr n, cat := c.cat } := by
  simp only [testAnswer, frameOf_readOps h, if_neg hst]

theorem remembered_eq (cat : Catalog) (addr : BitVec 6) (n : Nat) :
    remembered cat addr n = ((cat.find? (isAt addr n)).map Prod.snd).getD [] := by
  rw [remembered,
    show (fun e : BitVec 6 × List Byte => decide (e.1 = addr) && decide (e.2.length = n)) = isAt addr n from rfl]
  cases cat.find? (isAt addr n) <;> rfl

section

variable {cfg : Params} (href : cfg.responder = .reference)

include href

theorem testTransact_writeOps {addr : BitVec 6} {p : List Byte} (h : addr ≠ 0x05) (hreset : ¬(addr = 0x00 ∧ p = [0x00]))
    (fits : lengthFits cfg false addr p.length = true) (c : Chip) :
    testTransact cfg (writeOps addr p) c = .ok (.ok [], { c with cat := remember (addr, p) c.cat }) := by
  rw [testTransact, testAnswer_writeOps h hreset]
  exact chipTransact_of_respond href rfl (frameOf_writeOps h hreset) (respond_regWrite fits _ c)

theorem testTransact_readOps {addr : BitVec 6} {n : Nat} (h : addr ≠ 0x05) (hst : addr ≠ cfg.statusAddr)
    (fits : lengthFits cfg true addr n = true) (c : Chip) :
    testTransact cfg (readOps addr n) c = .ok (.ok [padTo n (remembered c.cat addr n)], c) := by
  rw [testTransact, testAnswer_readOps h hst]
  have read := chipTransact_of_respond (a := { plainAnswer with bytes := remembered c.cat addr n, cat := c.cat })
      (c := c) href rfl
    (frameOf_readOps h n) (respond_regRead hst fits _ c)
  rwa [splitReads_readOps _ (padTo_length n _)] at read

/-- After writes that go through, the last one of an address and a length is what is remembered for them. -/
theorem afterWrites_eq {ws : List (BitVec 6 × List Byte)} (c : Chip)
    (h : ∀ w ∈ ws, w.1 ≠ 0x05 ∧ ¬(w.1 = 0x00 ∧ w.2 = [0x00]) ∧ lengthFits cfg false w.1 w.2.length = true) :
    afterWrites cfg ws c = some { c with cat := ws.foldl (fun cat w => remember w cat) c.cat } := by
  induction ws generalizing c with
  | nil => rfl
  | cons w t ih =>
    obtain ⟨port, reset, fits⟩ := h w (List.mem_cons_self ..)
    simp only [afterWrites, testTransact_writeOps href port reset fits, List.foldl_cons]
    exact ih _ fun x hx => h x (List.mem_cons_of_mem _ hx)

end

theorem find?_foldl_remember (ws : List (BitVec 6 × List Byte)) (cat : Catalog) (addr : BitVec 6) (n : Nat) :
    (ws.foldl (fun cat w => remember w cat) cat).find? (isAt addr n)
      = (ws.reverse.find? (isAt addr n)).or (cat.find? (isAt addr n)) := by
  induction ws generalizing cat with
  | nil => rfl
  | cons w t ih =>
    rw [List.foldl_cons, ih, find?_remember, List.reverse_cons, List.find?_append, Option.or_assoc]
    cases hw : isAt addr n w <;> simp [hw]

/-- What is remembered from nothing, filled up to the length read, is what was last written, or zeros. -/
theorem padTo_remembered (ws : List (BitVec 6 × List Byte)) (addr : BitVec 6) (n : Nat) :
    padTo n (remembered (ws.foldl (fun cat w => remember w cat) []) addr n) = lastWritten ws addr n := by
  rw [remembered_eq, find?_foldl_remember, List.find?_nil, Option.or_none, lastWritten,
    show (fun w : BitVec 6 × List Byte => decide (w.1 = addr) && decide (w.2.length = n)) = isAt addr n from rfl]
  cases found : ws.reverse.find? (isAt addr n) with
  | none => simp [padTo]
  | some w =>
    exact padTo_of_length (isAt_iff.mp (List.find?_some found)).2

/-! ### Its status payload -/

theorem getLsbD_statusPayload_zero (cfg : Params) (f k : Bool) {i : Nat} (hf : i ≠ cfg.fecBit.toNat)
    (hk : i ≠ cfg.crcBit.toNat) :
    (statusPayload cfg f k 0).getLsbD i = false := by
  by_cases hi : i < 8
  · have index : (BitVec.ofNat 3 i).toNat = i := by rw [BitVec.toNat_ofNat]; exact Nat.mod_eq_of_lt hi
    have bits : BitVec.ofNat 3 i ≠ cfg.crcBit ∧ BitVec.ofNat 3 i ≠ cfg.fecBit :=
      ⟨fun h => hk (by rw [← h, index]), fun h => hf (by rw [← h, index])⟩
    rw [← index, statusPayload, getLsbD_setBit, getLsbD_setBit, if_neg bits.1, if_neg bits.2]
    simp
  · exact BitVec.getLsbD_of_ge _ _ (Nat.not_lt.mp hi)

theorem testTransact_statusRead {cfg : Params} (href : cfg.responder = .reference) (h : cfg.statusAddr ≠ 0x05) (c : Chip) :
    testTransact cfg (readOps cfg.statusAddr 1) c = .ok (.ok [[statusPayload cfg c.fecPass c.crcPass 0]], c) := by
  have answer : testAnswer cfg (readOps cfg.statusAddr 1) c = plainAnswer := by
    simp only [testAnswer, frameOf_readOps h, if_true]
  rw [testTransact, answer]
  exact chipTransact_of_respond href rfl (frameOf_readOps h 1) (respond_statusRead cfg plainAnswer c)

/-! ### Its Reset -/

theorem chipOfPicture_testResetPicture (depth : Nat) : chipOfPicture depth testResetPicture = afterTestReset := by
  simp only [chipOfPicture, testResetPicture, Nat.zero_min, Memory.writeCells, afterTestReset]

theorem testTransact_reset {cfg : Params} (href : cfg.responder = .reference) (c : Chip)
    (h : cfg.chipReset = [] ∨ ∃ p ∈ cfg.chipReset, ∃ draw, chipOfPicture cfg.fifoDepth (p.fill draw) = afterTestReset) :
    testTransact cfg [.write [0x00, 0x00]] c = .ok (.ok [], afterTestReset) := by
  have member : cfg.chipReset = [] ∨ ∃ p ∈ cfg.chipReset, hasTestReset cfg p = true := by
    simpa only [hasTestReset_iff, chipOfPicture_testResetPicture] using h
  have set := resetChip_testPick cfg member
  rw [chipOfPicture_testResetPicture] at set
  rw [← set]
  exact chipTransact_of_respond (f := .reset) (bs := []) href rfl rfl rfl

/-- Settles O37, by the catalog that the writes leave, the payload drawn from zero, and the family that has the state. -/
theorem testResponderReturnsWhatWasWritten : Obligations.TestResponderReturnsWhatWasWritten := by
  unfold Obligations.TestResponderReturnsWhatWasWritten
  refine fun cfg href => ⟨fun ws c addr n hcat writes port hst fits => ⟨_, afterWrites_eq href c writes, ?_⟩,
    fun c hwf => ?_, testTransact_reset href⟩
  · rw [testTransact_readOps href port hst fits, hcat, padTo_remembered]
  · obtain ⟨addr, bits⟩ := paramsWf_iff.mp hwf
    exact ⟨_, testTransact_statusRead href addr c, statusDecode_statusPayload bits _ _ _,
      fun i => getLsbD_statusPayload_zero cfg _ _⟩

end Sys2Proof.Machine
end

section
/-! PROOFS. Packet transfer position by position (44_packet.md section 3): the rows of R151, the outcomes of RX and TX whatever the
far end answers (R145, R147), and what both do at the reference responder. -/

namespace Sys2Proof.Machine

open Sys2Proof.Spec

/-! ### The rows of R151 -/

theorem resume_rxStatus {s : State} (hq : s.seq = .rxStatus) (ho : s.regs.opr = 0x70) : resume s = rxStatusStage s := by
  simp only [resume, hq, if_pos ho]

theorem resume_rxCheck {s : State} (hq : s.seq = .rxCheck) (ho : s.regs.opr = 0x70) : resume s = rxCheckStage s := by
  simp only [resume, hq, if_pos ho]

theorem resume_rxPtr {s : State} (hq : s.seq = .rxPtr) (ho : s.regs.opr = 0x70) : resume s = rxPtrStage s := by
  simp only [resume, hq, if_pos ho]

theorem resume_rxData {s : State} (hq : s.seq = .rxData) (ho : s.regs.opr = 0x70) : resume s = rxDataStage s := by
  simp only [resume, hq, if_pos ho]

theorem resume_txPtr {s : State} (hq : s.seq = .txPtr) (ho : s.regs.opr = 0x71) : resume s = txPtrStage s := by
  simp only [resume, hq, if_pos ho]

theorem resume_txData {s : State} (hq : s.seq = .txData) (ho : s.regs.opr = 0x71) : resume s = txDataStage s := by
  simp only [resume, hq, if_pos ho]

theorem positionRow_of_afterBus {s : State} {ops : List Op} {row : List (List Byte) → State → Prop}
    {fail : TE → Answer → State → Result} {ok : List (List Byte) → State → Result}
    (hstep : step s = afterBus s (busTransact s ops) fail ok)
    (hfail : ∀ e a u, ∃ b, fail e a u = .next (raiseTransport e { u with callerBuf := b }))
    (hok : ∀ a c rest reads, chipTransact s.cfg a ops s.chip = .ok (.ok reads, c) →
      ∃ t, ok reads (transacted s c rest ops (.ok reads)) = .next t ∧ SameOutside (transacted s c rest ops (.ok reads)) t
        ∧ row reads t) : PositionRow s ops row := by
  intro a rest o c ha hc
  rw [hstep, afterBus_of_answer ha hc]
  cases o with
  | err e =>
    obtain ⟨b, edge⟩ := hfail e a (transacted s c rest ops (.err e))
    exact ⟨_, edge, rfl, rfl, rfl, rfl, rfl, rfl, fun e' he => by cases he; exact ⟨rfl, rfl⟩, nofun⟩
  | ok reads =>
    obtain ⟨t, run, ⟨cfg, bus, inbox, chip, hist, answers⟩, next⟩ := hok a c rest reads hc
    exact ⟨t, run, answers, hist, chip, cfg, bus, inbox, nofun, fun r hr => by cases hr; exact next⟩

/-- One Read op: one buffer, of the length asked for. -/
theorem reads_of_write_read {cfg : Params} {a : Answer} {w : List Byte} {n : Nat} {c c' : Chip} {reads : List (List Byte)}
    (h : chipTransact cfg a [.write w, .read n] c = .ok (.ok reads, c')) : ∃ b : List Byte, reads = [b] ∧ b.length = n := by
  obtain ⟨bs, length, rfl⟩ := chipTransact_reads h
  simp only [readSize_write, readSize_read, readSize_nil, Nat.add_zero] at length
  exact ⟨bs, by rw [splitReads_write_read, List.take_of_length_le length.le], length⟩

/-- Settles O50: acceptance with the first step is the step of the first position, and each position is its row. -/
theorem packetSequencerPositions : Obligations.PacketSequencerPositions := by
  unfold Obligations.PacketSequencerPositions
  intro s hr
  have steps {q : Seq} (hq : s.seq = q) (hidle : q ≠ .idle) : step s = resume s := step_of_goOn (hq ▸ hidle) hr
  refine ⟨fun hs len => ?_, fun hs buf => ?_, fun hq ho => ?_, fun hq ho => ⟨fun ⟨hf, hk⟩ => ?_, fun hbad => ?_⟩,
    fun hq ho => ?_,
    fun hq ho => ?_, fun hq ho => ?_, fun hq ho => ?_⟩
  · exact (exec_eq_resume (i := .rx len) hs rfl nofun).trans (step_of_goOn (s := accepted (.rx len) s) nofun hr).symm
  · exact (exec_eq_resume (i := .tx buf) hs rfl nofun).trans (step_of_goOn (s := accepted (.tx buf) s) nofun hr).symm
  · refine positionRow_of_afterBus ((steps hq nofun).trans (resume_rxStatus hq ho)) failRx_raises fun a c rest reads hc => ?_
    obtain ⟨b, rfl, -⟩ := reads_of_write_read hc
    exact ⟨_, rfl, ⟨rfl, rfl, rfl, rfl, rfl, rfl⟩, rfl, ⟨b, rfl, rfl⟩, ho, rfl, rfl, rfl⟩
  · exact step_rxCheck_of_flags_true hr ho hq hf hk
  · exact ⟨_, step_rxCheck_of_flag_false hq hr ho rfl hbad, ⟨rfl, rfl, rfl, rfl⟩, rfl, rfl, rfl, rfl, rfl⟩
  · refine positionRow_of_afterBus ((steps hq nofun).trans (resume_rxPtr hq ho)) failRx_raises fun a c rest reads hc => ?_
    exact ⟨_, rfl, ⟨rfl, rfl, rfl, rfl, rfl, rfl⟩, rfl, rfl, rfl, rfl⟩
  · refine positionRow_of_afterBus ((steps hq nofun).trans (resume_rxData hq ho)) failRx_raises fun a c rest reads hc => ?_
    obtain ⟨b, rfl, length⟩ := reads_of_write_read hc
    exact ⟨_, rfl, ⟨rfl, rfl, rfl, rfl, rfl, rfl⟩, rfl, b, rfl, length, rfl, rfl⟩
  · refine positionRow_of_afterBus ((steps hq nofun).trans (resume_txPtr hq ho)) failPlain_raises fun a c rest reads hc => ?_
    exact ⟨_, rfl, ⟨rfl, rfl, rfl, rfl, rfl, rfl⟩, rfl, rfl, rfl, rfl⟩
  · refine positionRow_of_afterBus ((steps hq nofun).trans (resume_txData hq ho)) failPlain_raises fun a c rest reads hc => ?_
    exact ⟨_, rfl, ⟨rfl, rfl, rfl, rfl, rfl, rfl⟩, rfl, rfl, rfl⟩

/-! ### The outcomes of RX and TX (R145, R147) -/

theorem afterBus_next_of_answer {s t : State} {ops : List Op} {fail : TE → Answer → State → Result}
    {ok : List (List Byte) → State → Result} (h : afterBus s (busTransact s ops) fail ok = .next t) :
    t = s ∨ ∃ a rest o c, chipTransact s.cfg a ops s.chip = .ok (o, c)
      ∧ onAnswer fail ok a (transacted s c rest ops o) o = .next t := by
  cases ha : s.answers with
  | nil => cases (afterBus_of_no_answer ha).symm.trans h; exact .inl rfl
  | cons a rest =>
    cases hc : chipTransact s.cfg a ops s.chip with
    | error why => cases (afterBus_of_refusal ha hc).symm.trans h
    | ok oc => exact .inr ⟨a, rest, oc.1, oc.2, hc, (afterBus_of_answer ha hc).symm.trans h⟩

/-- What holds once the operation is accepted and is kept by going on holds when the run stops. -/
theorem runWhole_keeps_from_accepted {i : Instr} {s t : State} {P : State → Prop} (hi : firstSeq i ≠ .marshal)
    (h0 : P (accepted i s)) (hP : ∀ u v, P u → u.seq ≠ .idle → resume u = .next v → P v)
    (h : runWhole i s = .next t) : P t := by
  have keeps : ∀ (n : Nat) (u : State), P u → runOn n (.next u) = .next t → P t := by
    intro n
    induction n with
    | zero => intro u hu run; cases run; exact hu
    | succ n ih =>
      intro u hu run
      by_cases hq : u.seq = .idle
      · cases (runOn_idle hq _).symm.trans run
        exact hu
      · rw [runOn_busy hq] at run
        cases hstep : step u with
        | next v =>
          cases stepCase hstep with
          | goesOn _ _ resumed => exact ih v (hP u v hu hq resumed) (hstep ▸ run)
          | silent hs | runs hs | radio hs | resets hs => exact absurd hs hq
        | fault x => rw [hstep, runOn_fault] at run; cases run
        | refused why => rw [hstep, runOn_refused] at run; cases run
  unfold runWhole at h
  obtain ⟨why, run⟩ | ⟨-, hf, ⟨hm, -⟩ | ⟨-, run⟩⟩ := exec_cases i s
  · rw [run, runOn_refused] at h; cases h
  · exact absurd hm hi
  · rw [run] at h
    cases resumed : resume (accepted i s) with
    | next v => exact keeps 3 v (hP _ v h0 (firstSeq_ne_idle i) resumed) (resumed ▸ h)
    | fault x => rw [resumed, runOn_fault] at h; cases h
    | refused why => rw [resumed, runOn_refused] at h; cases h

/-- The entries of an RX (R145). -/
def statusEntry (s : State) (o : BusOutcome) : Entry := ⟨statusOps s, o, 0x70⟩
def rstRdEntry (o : BusOutcome) : Entry := ⟨[.write [0xF0]], o, 0x70⟩
def rxDataEntry (len : Nat) (o : BusOutcome) : Entry := ⟨[.write [0x45], .read len], o, 0x70⟩

/-- The five rows of R145. -/
inductive RxOutcome (len : Nat) (s t : State) : Prop
  | statusFails (e : TE) (hist : t.hist = s.hist ++ [statusEntry s (.err e)]) (res : t.res = .transportErr e)
      (buf : t.callerBuf.length = len)
  | rejected (b : List Byte) (f k : Bool) (hist : t.hist = s.hist ++ [statusEntry s (.ok [b])])
      (flags : statusDecode s.cfg b = (f, k)) (bad : (f && k) = false) (res : t.res = .packetErr (!f) (!k))
      (buf : t.callerBuf = s.callerBuf)
  | ptrFails (b : List Byte) (e : TE) (hist : t.hist = s.hist ++ [statusEntry s (.ok [b]), rstRdEntry (.err e)])
      (flags : statusDecode s.cfg b = (true, true)) (res : t.res = .transportErr e) (buf : t.callerBuf.length = len)
  | dataFails (b : List Byte) (e : TE)
      (hist : t.hist = s.hist ++ [statusEntry s (.ok [b]), rstRdEntry (.ok []), rxDataEntry len (.err e)])
      (flags : statusDecode s.cfg b = (true, true)) (res : t.res = .transportErr e) (buf : t.callerBuf.length = len)
  | received (b bs : List Byte)
      (hist : t.hist = s.hist ++ [statusEntry s (.ok [b]), rstRdEntry (.ok []), rxDataEntry len (.ok [bs])])
      (flags : statusDecode s.cfg b = (true, true)) (length : bs.length = len) (res : t.res = .ok (.bytes bs))
      (buf : t.callerBuf = bs)

/-- How far an RX accepted in `s` has come. -/
inductive RxSoFar (len : Nat) (s u : State) : Prop
  | atStatus (hq : u.seq = .rxStatus) (ho : u.regs.opr = 0x70) (hlen : u.regs.len = len) (buf : u.callerBuf = s.callerBuf)
      (hist : u.hist = s.hist ++ [])
  | atCheck (hq : u.seq = .rxCheck) (ho : u.regs.opr = 0x70) (hlen : u.regs.len = len) (buf : u.callerBuf = s.callerBuf)
      (b : List Byte) (flags : statusDecode s.cfg b = (u.regs.fecp, u.regs.crcp))
      (hist : u.hist = s.hist ++ [statusEntry s (.ok [b])])
  | atPtr (hq : u.seq = .rxPtr) (ho : u.regs.opr = 0x70) (hlen : u.regs.len = len)
      (b : List Byte) (flags : statusDecode s.cfg b = (true, true)) (hist : u.hist = s.hist ++ [statusEntry s (.ok [b])])
  | atData (hq : u.seq = .rxData) (ho : u.regs.opr = 0x70) (hlen : u.regs.len = len)
      (b : List Byte) (flags : statusDecode s.cfg b = (true, true))
      (hist : u.hist = s.hist ++ [statusEntry s (.ok [b]), rstRdEntry (.ok [])])
  | ended (hq : u.seq = .idle) (outcome : RxOutcome len s u)

/-- The part that every state of a run shares with the state it began in. -/
def SameHost (s u : State) : Prop := u.cfg = s.cfg ∧ u.busOwn = s.busOwn ∧ u.inbox = s.inbox

theorem sameHost_of_resume {s u v : State} (h : SameHost s u) (run : resume u = .next v) : SameHost s v := by
  obtain ⟨cfg, bus, inbox⟩ := h
  obtain ⟨⟨cfg', bus', inbox', -⟩, -⟩ := movesOn_of_resume run
  exact ⟨cfg'.trans cfg, bus'.trans bus, inbox'.trans inbox⟩

theorem reads_of_write {cfg : Params} {a : Answer} {w : List Byte} {c c' : Chip} {reads : List (List Byte)}
    (h : chipTransact cfg a [.write w] c = .ok (.ok reads, c')) : reads = [] := by
  obtain ⟨bs, -, rfl⟩ := chipTransact_reads h
  rfl

theorem hist_transacted {s u : State} {es : List Entry} {hop : Byte} (hist : u.hist = s.hist ++ es) (ho : u.regs.opr = hop)
    (c : Chip) (rest : List Answer) (ops : List Op) (o : BusOutcome) :
    (transacted u c rest ops o).hist = s.hist ++ (es ++ [{ ops := ops, outcome := o, by_ := hop }]) := by
  rw [transacted, hist, ho, List.append_assoc]

theorem rxSoFar_of_rxStatus {len : Nat} {s u v : State} (hcfg : u.cfg = s.cfg) (hq : u.seq = .rxStatus)
    (ho : u.regs.opr = 0x70) (hlen : u.regs.len = len) (buf : u.callerBuf = s.callerBuf) (hist : u.hist = s.hist ++ [])
    (run : rxStatusStage u = .next v) : RxSoFar len s v := by
  obtain rfl | ⟨a, rest, o, c, hc, go⟩ := afterBus_next_of_answer run
  · exact .atStatus hq ho hlen buf hist
  · have same : statusOps u = statusOps s := by rw [statusOps, statusOps, hcfg]
    have entry : (transacted u c rest (statusOps u) o).hist = s.hist ++ [statusEntry s o] := by
      rw [hist_transacted hist ho, same]
      rfl
    cases o with
    | err e =>
      cases go
      exact .ended rfl (.statusFails e entry rfl (hlen ▸ padTo_length _ _))
    | ok reads =>
      obtain ⟨b, rfl, -⟩ := reads_of_write_read hc
      cases go
      exact .atCheck rfl ho hlen buf b (hcfg ▸ rfl) entry

theorem rxSoFar_of_rxCheck {len : Nat} {s u v : State} (ho : u.regs.opr = 0x70) (hlen : u.regs.len = len)
    (buf : u.callerBuf = s.callerBuf) {b : List Byte} (flags : statusDecode s.cfg b = (u.regs.fecp, u.regs.crcp))
    (hist : u.hist = s.hist ++ [statusEntry s (.ok [b])]) (run : rxCheckStage u = .next v) : RxSoFar len s v := by
  unfold rxCheckStage at run
  split_ifs at run with good
  · cases run
    obtain ⟨hf, hk⟩ := (Bool.and_eq_true _ _).mp good
    exact .atPtr rfl ho hlen b (by rw [flags, hf, hk]) hist
  · cases run
    exact .ended rfl (.rejected b _ _ hist flags (Bool.not_eq_true _ ▸ good) rfl buf)

theorem rxSoFar_of_rxPtr {len : Nat} {s u v : State} (hq : u.seq = .rxPtr) (ho : u.regs.opr = 0x70) (hlen : u.regs.len = len)
    {b : List Byte} (flags : statusDecode s.cfg b = (true, true)) (hist : u.hist = s.hist ++ [statusEntry s (.ok [b])])
    (run : rxPtrStage u = .next v) : RxSoFar len s v := by
  obtain rfl | ⟨a, rest, o, c, hc, go⟩ := afterBus_next_of_answer run
  · exact .atPtr hq ho hlen b flags hist
  · have entry := hist_transacted hist ho c rest [.write [0xF0]] o
    cases o with
    | err e =>
      cases go
      exact .ended rfl (.ptrFails b e entry flags rfl (hlen ▸ padTo_length _ _))
    | ok reads =>
      obtain rfl := reads_of_write hc
      cases go
      exact .atData rfl ho hlen b flags entry

theorem rxSoFar_of_rxData {len : Nat} {s u v : State} (hq : u.seq = .rxData) (ho : u.regs.opr = 0x70)
    (hlen : u.regs.len = len)
    {b : List Byte} (flags : statusDecode s.cfg b = (true, true))
    (hist : u.hist = s.hist ++ [statusEntry s (.ok [b]), rstRdEntry (.ok [])]) (run : rxDataStage u = .next v) :
    RxSoFar len s v := by
  obtain rfl | ⟨a, rest, o, c, hc, go⟩ := afterBus_next_of_answer run
  · exact .atData hq ho hlen b flags hist
  · subst hlen
    have entry := hist_transacted hist ho c rest [.write [0x45], .read u.regs.len] o
    cases o with
    | err e =>
      cases go
      exact .ended rfl (.dataFails b e entry flags rfl (padTo_length _ _))
    | ok reads =>
      obtain ⟨bs, rfl, length⟩ := reads_of_write_read hc
      cases go
      exact .ended rfl (.received b bs entry flags length rfl rfl)

/-- Each position of an RX goes on to the next row of R145, or ends in one. -/
theorem rxSoFar_of_resume {len : Nat} {s u v : State} (hcfg : u.cfg = s.cfg) (h : RxSoFar len s u) (hq : u.seq ≠ .idle)
    (run : resume u = .next v) : RxSoFar len s v := by
  cases h with
  | atStatus hq' ho hlen buf hist => exact rxSoFar_of_rxStatus hcfg hq' ho hlen buf hist (resume_rxStatus hq' ho ▸ run)
  | atCheck hq' ho hlen buf b flags hist => exact rxSoFar_of_rxCheck ho hlen buf flags hist (resume_rxCheck hq' ho ▸ run)
  | atPtr hq' ho hlen b flags hist => exact rxSoFar_of_rxPtr hq' ho hlen flags hist (resume_rxPtr hq' ho ▸ run)
  | atData hq' ho hlen b flags hist => exact rxSoFar_of_rxData hq' ho hlen flags hist (resume_rxData hq' ho ▸ run)
  | ended hq' _ => exact absurd hq' hq

/-- Settles O40: the run keeps what is known of each position, up to one of the five rows. -/
theorem rxOutcomesAreTheFiveOfTheTable : Obligations.RxOutcomesAreTheFiveOfTheTable := by
  unfold Obligations.RxOutcomesAreTheFiveOfTheTable
  intro len s t hs run hend
  obtain ⟨⟨cfg, bus, inbox⟩, soFar⟩ :=
      runWhole_keeps_from_accepted (i := .rx len) (P := fun u => SameHost s u ∧ RxSoFar len s u)
    nofun ⟨⟨rfl, rfl, rfl⟩, .atStatus rfl rfl rfl rfl (List.append_nil _).symm⟩
    (fun u v ⟨host, soFar⟩ hq run => ⟨sameHost_of_resume host run, rxSoFar_of_resume host.1 soFar hq run⟩) run
  refine ⟨⟨hend, cfg, bus, inbox⟩, ?_⟩
  cases soFar with
  | atStatus hq | atCheck hq | atPtr hq | atData hq => cases hq.symm.trans hend
  | ended _ outcome =>
    cases outcome with
    | statusFails e hist res buf => exact .inl ⟨e, hist, res, buf⟩
    | rejected b f k hist flags bad res buf => exact .inr (.inl ⟨b, f, k, hist, flags, bad, res, buf⟩)
    | ptrFails b e hist flags res buf => exact .inr (.inr (.inl ⟨b, e, hist, flags, res, buf⟩))
    | dataFails b e hist flags res buf => exact .inr (.inr (.inr (.inl ⟨b, e, hist, flags, res, buf⟩)))
    | received b bs hist flags length res buf => exact .inr (.inr (.inr (.inr ⟨b, bs, hist, flags, length, res, buf⟩)))

/-- The entries of a TX (R147). -/
def rstWrEntry (o : BusOutcome) : Entry := ⟨[.write [0xE0]], o, 0x71⟩
def txDataEntry (buf : List Byte) (o : BusOutcome) : Entry := ⟨[.write [0x05], .write buf], o, 0x71⟩

/-- How far a TX accepted in `s` has come. -/
inductive TxSoFar (buf : List Byte) (s u : State) : Prop
  | atPtr (hq : u.seq = .txPtr) (ho : u.regs.opr = 0x71) (hbuf : u.regs.buf = buf) (hist : u.hist = s.hist ++ [])
  | atData (hq : u.seq = .txData) (ho : u.regs.opr = 0x71) (hbuf : u.regs.buf = buf)
      (hist : u.hist = s.hist ++ [rstWrEntry (.ok [])])
  | ptrFailed (hq : u.seq = .idle) (e : TE) (hist : u.hist = s.hist ++ [rstWrEntry (.err e)]) (res : u.res = .transportErr e)
  | dataFailed (hq : u.seq = .idle) (e : TE) (hist : u.hist = s.hist ++ [rstWrEntry (.ok []), txDataEntry buf (.err e)])
      (res : u.res = .transportErr e)
  | sent (hq : u.seq = .idle) (hist : u.hist = s.hist ++ [rstWrEntry (.ok []), txDataEntry buf (.ok [])])
      (res : u.res = .ok .unit)

theorem txSoFar_of_txPtr {buf : List Byte} {s u v : State} (hq : u.seq = .txPtr) (ho : u.regs.opr = 0x71)
    (hbuf : u.regs.buf = buf) (hist : u.hist = s.hist ++ []) (run : txPtrStage u = .next v) :
    TxSoFar buf s v ∧ v.callerBuf = u.callerBuf := by
  obtain rfl | ⟨a, rest, o, c, hc, go⟩ := afterBus_next_of_answer run
  · exact ⟨.atPtr hq ho hbuf hist, rfl⟩
  · have entry := hist_transacted hist ho c rest [.write [0xE0]] o
    cases o with
    | err e =>
      cases go
      exact ⟨.ptrFailed rfl e entry rfl, rfl⟩
    | ok reads =>
      obtain rfl := reads_of_write hc
      cases go
      exact ⟨.atData rfl ho hbuf entry, rfl⟩

theorem txSoFar_of_txData {buf : List Byte} {s u v : State} (hq : u.seq = .txData) (ho : u.regs.opr = 0x71)
    (hbuf : u.regs.buf = buf) (hist : u.hist = s.hist ++ [rstWrEntry (.ok [])]) (run : txDataStage u = .next v) :
    TxSoFar buf s v ∧ v.callerBuf = u.callerBuf := by
  obtain rfl | ⟨a, rest, o, c, hc, go⟩ := afterBus_next_of_answer run
  · exact ⟨.atData hq ho hbuf hist, rfl⟩
  · subst hbuf
    have entry := hist_transacted hist ho c rest [.write [0x05], .write u.regs.buf] o
    cases o with
    | err e =>
      cases go
      exact ⟨.dataFailed rfl e entry rfl, rfl⟩
    | ok reads =>
      obtain ⟨bs, -, rfl⟩ := chipTransact_reads hc
      cases go
      exact ⟨.sent rfl entry rfl, rfl⟩

/-- Each position of a TX goes on, or ends in one of the three ways, and leaves the caller's buffer alone. -/
theorem txSoFar_of_resume {buf : List Byte} {s u v : State} (h : TxSoFar buf s u) (hq : u.seq ≠ .idle)
    (run : resume u = .next v) : TxSoFar buf s v ∧ v.callerBuf = u.callerBuf := by
  cases h with
  | atPtr hq' ho hbuf hist => exact txSoFar_of_txPtr hq' ho hbuf hist (resume_txPtr hq' ho ▸ run)
  | atData hq' ho hbuf hist => exact txSoFar_of_txData hq' ho hbuf hist (resume_txData hq' ho ▸ run)
  | ptrFailed hq' | dataFailed hq' | sent hq' => exact absurd hq' hq

/-- Settles O43: the run keeps what is known of each position, up to one of the three ends. -/
theorem txOutcomesAreThree : Obligations.TxOutcomesAreThree := by
  unfold Obligations.TxOutcomesAreThree
  intro buf s t hs run hend
  obtain ⟨⟨cfg, bus, inbox⟩, caller, soFar⟩ := runWhole_keeps_from_accepted (i := .tx buf)
    (P := fun u => SameHost s u ∧ u.callerBuf = buf ∧ TxSoFar buf s u) nofun
    ⟨⟨rfl, rfl, rfl⟩, rfl, .atPtr rfl rfl rfl (List.append_nil _).symm⟩
    (fun u v ⟨host, caller, soFar⟩ hq run =>
      have ⟨soFar', kept⟩ := txSoFar_of_resume soFar hq run
      ⟨sameHost_of_resume host run, kept.trans caller, soFar'⟩) run
  refine ⟨⟨hend, cfg, bus, inbox⟩, caller, ?_⟩
  cases soFar with
  | atPtr hq | atData hq => cases hq.symm.trans hend
  | ptrFailed _ e hist res => exact .inl ⟨e, hist, res⟩
  | dataFailed _ e hist res => exact .inr (.inl ⟨e, hist, res⟩)
  | sent _ hist res => exact .inr (.inr ⟨hist, res⟩)

/-! ### RX and TX at the reference responder (R143 to R149, R164 to R168) -/

theorem chipTransact_rstWr {cfg : Params} {a : Answer} (href : cfg.responder = .reference) (hf : a.fault = none) (c : Chip) :
    chipTransact cfg a [.write [0xE0]] c = .ok (.ok [], resetWrPtr (radioActs cfg a.radio c)) :=
  chipTransact_of_respond (f := .rstWr) href hf rfl rfl

section

variable {cfg : Params} {a : Answer} {c : Chip} (href : cfg.responder = .reference)

include href

/-- The buffer write of a TX, from index 0. -/
theorem chipTransact_txFifo {p : List Byte} (hf : a.fault = none) (hptr : c.wrPtr = 0) (room : p.length ≤ cfg.fifoDepth) :
    chipTransact cfg a [.write [0x05], .write p] c = .ok (.ok [],
      { radioActs cfg a.radio c with txfifo := c.txfifo.writeBytes 0 p, wrPtr := p.length }) := by
  obtain ⟨-, ptr, buffer, -⟩ := radioActs_keep cfg a.radio c
  rw [hptr] at ptr
  rw [chipTransact_of_respond href hf (frameOf_txFifo p) (respond_txFifo (by omega) a), ptr, buffer, Nat.zero_add]
  rfl

/-- The buffer write of a TX that breaks off. -/
theorem chipTransact_txFifo_broken {p : List Byte} {e : TE} {k : Nat} (hf : a.fault = some (e, k)) (hptr : c.wrPtr = 0)
    (room : p.length ≤ cfg.fifoDepth) : chipTransact cfg a [.write [0x05], .write p] c = .ok (.err (errorOf cfg e),
      { radioActs cfg a.radio c with
        txfifo := c.txfifo.writeBytes 0 (p.take (k - 1)), wrPtr := min (k - 1) p.length }) := by
  obtain ⟨-, ptr, buffer, -⟩ := radioActs_keep cfg a.radio c
  rw [hptr] at ptr
  rw [chipTransact_of_receiveBroken href hf (receiveBroken_txFifo (by omega) a k), ptr, buffer, Nat.zero_add]

/-- The buffer read of an RX, from index 0, that breaks off. -/
theorem chipTransact_rxFifo_broken {n : Nat} {e : TE} {k : Nat} (hf : a.fault = some (e, k)) (hptr : c.rdPtr = 0)
    (room : n ≤ cfg.fifoDepth) : chipTransact cfg a [.write [0x45], .read n] c =
      .ok (.err (errorOf cfg e), { radioActs cfg a.radio c with rdPtr := min (k - 1) n }) := by
  obtain ⟨ptr, -⟩ := radioActs_keep cfg a.radio c
  rw [hptr] at ptr
  rw [chipTransact_of_receiveBroken href hf (receiveBroken_rxFifo (by omega) a k), ptr, Nat.zero_add]

end

/-- TX at TX_DATA: the pointer reset has gone through and left the chip `c`. -/
def atTxData (buf : List Byte) (s : State) (rest : List Answer) (c : Chip) : State :=
  { s with
    seq := .txData
    regs := { s.regs with opr := 0x71, len := buf.length, buf := buf }
    callerBuf := buf
    chip := c
    answers := rest
    hist := s.hist ++ [{ ops := [.write [0xE0]], outcome := .ok [], by_ := 0x71 }] }

@[simp] theorem atTxData_seq (buf : List Byte) (s : State) (rest : List Answer) (c : Chip) :
    (atTxData buf s rest c).seq = .txData := rfl

theorem exec_tx_eq_atTxData {s : State} {a : Answer} {rest : List Answer} {c : Chip} (hs : s.seq = .idle)
    (ha : s.answers = a :: rest) (hc : chipTransact s.cfg a [.write [0xE0]] s.chip = .ok (.ok [], c)) (buf : List Byte) :
    exec (.tx buf) s = .next (atTxData buf s rest c) := by
  rw [exec_eq_resume (i := .tx buf) hs rfl nofun, resume_txPtr rfl rfl]
  exact afterBus_of_answer (s := accepted (.tx buf) s) ha hc

/-- TX whose pointer reset has gone through ends as its buffer write does. -/
theorem runWhole_tx {s : State} {a1 a2 : Answer} {rest : List Answer} {c1 c2 : Chip} {o : BusOutcome} {buf : List Byte}
    (hs : s.seq = .idle) (hr : NoReset s) (ha : s.answers = a1 :: a2 :: rest)
    (ptr : chipTransact s.cfg a1 [.write [0xE0]] s.chip = .ok (.ok [], c1))
    (data : chipTransact s.cfg a2 [.write [0x05], .write buf] c1 = .ok (o, c2)) :
    ∃ t, runWhole (.tx buf) s = .next t ∧ Ended s t ∧ t.answers = rest
      ∧ t.hist = s.hist ++ [rstWrEntry (.ok []), txDataEntry buf o] ∧ t.res = resUnit o ∧ t.callerBuf = buf
        ∧ t.chip = c2 := by
  have last := afterBus_ends (s := atTxData buf s (a2 :: rest) c1) rfl data fun _ => .unit
  rw [runWhole, exec_tx_eq_atTxData hs ha ptr, runOn_busy (by simp),
    step_of_goOn (s := atTxData buf s (a2 :: rest) c1) nofun hr, resume_txData rfl rfl, txDataStage]
  refine ⟨_, (congrArg (runOn 2) last).trans (runOn_idle rfl 2), ⟨rfl, rfl, rfl, rfl⟩, rfl, ?_,
      (resUnit_eq_outcomeRes o).symm, rfl, rfl⟩
  exact List.append_assoc ..

/-- RX at RX_DATA: the pointer reset has gone through and left the chip `c`. -/
def atRxData (len : Nat) (s : State) (rest : List Answer) (b : Byte) (c : Chip) : State :=
  { transacted { atRxCheck len s rest b c with seq := .rxPtr } c rest [.write [0xF0]] (.ok []) with seq := .rxData }

/-- RX whose status read saw both flags good, and whose pointer reset has gone through, ends as its buffer read does. -/
theorem runWhole_rx_eq_step_atRxData {s : State} {a1 a2 : Answer} {rest : List Answer} {b : Byte} {c1 c2 : Chip} {len : Nat}
    (hs : s.seq = .idle) (hr : NoReset s) (ha : s.answers = a1 :: a2 :: rest)
    (status : chipTransact s.cfg a1 (statusOps s) s.chip = .ok (.ok [[b]], c1)) (good : statusDecode s.cfg [b] = (true, true))
    (ptr : chipTransact s.cfg a2 [.write [0xF0]] c1 = .ok (.ok [], c2)) :
    runWhole (.rx len) s = step (atRxData len s rest b c2) := by
  obtain ⟨fec, crc⟩ := Prod.mk.inj good
  rw [runWhole, exec_rx_eq_atRxCheck hs ha status, runOn_busy (by simp),
    step_rxCheck_of_flags_true (s := atRxCheck len s _ b c1) hr rfl rfl fec crc, runOn_busy (by simp),
    step_rxPtr_of_ok (s := { atRxCheck len s _ b c1 with seq := .rxPtr }) hr rfl rfl rfl ptr, runOn_busy (by simp),
        runOn_zero]
  rfl

theorem runWhole_rx_of_data_err {s : State} {a1 a2 a3 : Answer} {rest : List Answer} {b : Byte} {e : TE} {c1 c2 c3 : Chip}
    {len : Nat} (hs : s.seq = .idle) (hr : NoReset s) (ha : s.answers = a1 :: a2 :: a3 :: rest)
    (status : chipTransact s.cfg a1 (statusOps s) s.chip = .ok (.ok [[b]], c1)) (good : statusDecode s.cfg [b] = (true, true))
    (ptr : chipTransact s.cfg a2 [.write [0xF0]] c1 = .ok (.ok [], c2))
    (data : chipTransact s.cfg a3 [.write [0x45], .read len] c2 = .ok (.err e, c3)) :
    ∃ t, runWhole (.rx len) s = .next t ∧ Ended s t ∧ t.answers = rest ∧ t.res = .transportErr e
      ∧ t.hist = s.hist ++ [statusEntry s (.ok [[b]]), rstRdEntry (.ok []), rxDataEntry len (.err e)] ∧ t.chip = c3 := by
  rw [runWhole_rx_eq_step_atRxData hs hr ha status good ptr, step_of_goOn (s := atRxData len s _ b c2) nofun hr,
    resume_rxData rfl rfl]
  refine ⟨_, afterBus_of_answer (s := atRxData len s (a3 :: rest) b c2) rfl data, ⟨rfl, rfl, rfl, rfl⟩, rfl, rfl, ?_, rfl⟩
  exact (List.append_assoc _ _ _).trans (List.append_assoc _ _ _)

theorem txfifo_of_ptrReset (cfg : Params) (a : Answer) (c : Chip) :
    (resetWrPtr (radioActs cfg a.radio c)).txfifo = c.txfifo := by
  obtain ⟨-, -, buffer, -⟩ := radioActs_keep cfg a.radio c
  exact buffer

/-- Settles O42: the two transactions, the second from index 0 of the buffer as the first left it. -/
theorem txStoresTheBuffer : Obligations.TxStoresTheBuffer := by
  unfold Obligations.TxStoresTheBuffer
  rintro buf s a1 a2 rest c1 c2 hs hr href ha hf1 hf2 rfl rfl room wf
  have ptr := chipTransact_rstWr href hf1 s.chip
  have data := chipTransact_txFifo (c := resetWrPtr (radioActs s.cfg a1.radio s.chip)) href hf2 rfl room
  rw [txfifo_of_ptrReset] at data
  refine ⟨⟨_, rfl⟩, ⟨_, exec_tx_eq_atTxData hs ha ptr buf, rfl, rfl, rfl, rfl, rfl, rfl, rfl, rfl, rfl, rfl, rfl, rfl⟩, ?_⟩
  obtain ⟨t, run, ended, answers, hist, res, caller, chip⟩ := runWhole_tx hs hr ha ptr data
  exact ⟨t, _, run, ended, answers, hist, res, caller, chip, storedIn_writeBytes wf 0 buf⟩

/-- Settles O38, from the three transactions that go through. -/
theorem rxReturnsTheReceiveBuffer : Obligations.RxReturnsTheReceiveBuffer := by
  unfold Obligations.RxReturnsTheReceiveBuffer
  rintro len s a1 a2 a3 rest c1 c2 c3 hs hr href params ha hf1 hf2 hf3 rfl fec crc rfl rfl room
  obtain ⟨b, status, flags⟩ := chipTransact_statusRead href params hf1
  have good : statusDecode s.cfg [b] = (true, true) := flags.trans (Prod.ext fec crc)
  have ptr := chipTransact_rstRd href hf2 (chipAt s a1)
  have data := chipTransact_rxFifo (c := resetRdPtr (radioActs s.cfg a2.radio (chipAt s a1))) (n := len) href hf3
    (by rw [resetRdPtr_rdPtr]; omega)
  rw [resetRdPtr_rdPtr, Nat.zero_add] at data
  obtain ⟨fecp, crcp⟩ := Prod.mk.inj good
  rw [fifoBytes_eq_readBytes]
  exact ⟨⟨_, rfl⟩, b, good, ⟨_, exec_rx_eq_atRxCheck hs ha status len, rfl, rfl, rfl, fecp, crcp, rfl, rfl, rfl, rfl,
      rfl, rfl,
    rfl, rfl⟩, _, runWhole_rx_of_flags_true hs hr ha status good ptr data, ⟨rfl, rfl, rfl, rfl⟩, rfl, rfl, rfl, rfl, rfl⟩

/-- Settles O44: the part of the buffer access that arrived, in TX and in RX. -/
theorem brokenPacketTransferLeavesAPrefix : Obligations.BrokenPacketTransferLeavesAPrefix := by
  unfold Obligations.BrokenPacketTransferLeavesAPrefix
  constructor
  · rintro buf s a1 a2 rest e k c1 c2 hs hr href ha hf1 hf2 rfl rfl room wf
    have ptr := chipTransact_rstWr href hf1 s.chip
    have data := chipTransact_txFifo_broken (c := resetWrPtr (radioActs s.cfg a1.radio s.chip)) href hf2 rfl room
    rw [txfifo_of_ptrReset] at data
    obtain ⟨t, run, ended, answers, hist, res, -, chip⟩ := runWhole_tx hs hr ha ptr data
    exact ⟨t, _, run, ended, answers, res, hist, chip, storedIn_writeBytes wf 0 _⟩
  · rintro len s a1 a2 a3 rest e k c1 c2 c3 hs hr href params ha hf1 hf2 hf3 rfl fec crc rfl rfl room
    obtain ⟨b, status, flags⟩ := chipTransact_statusRead href params hf1
    have good : statusDecode s.cfg [b] = (true, true) := flags.trans (Prod.ext fec crc)
    have ptr := chipTransact_rstRd href hf2 (chipAt s a1)
    have data := chipTransact_rxFifo_broken (c := resetRdPtr (radioActs s.cfg a2.radio (chipAt s a1))) href hf3 rfl room
    obtain ⟨t, run, ended, answers, res, hist, chip⟩ := runWhole_rx_of_data_err hs hr ha status good ptr data
    exact ⟨t, b, run, ended, answers, res, hist, chip⟩

end Sys2Proof.Machine
end
